-- ==== Sys2Proof/Word.lean ====
section
/-! DEFINITION. The word types of HUFB: one abbreviation for each width the spec fixes
(00_scope.md R7, R8, R12). Nothing in this hardware is signed (R12). -/

namespace Sys2Proof

/-- A host data word, DW = 32 bits, and every 32-bit register (00_scope.md R8). -/
abbrev Word := BitVec 32

/-- A Symbol: "one byte value (0–255)", SYMW = 8 bits (00_scope.md R7). -/
abbrev Sym := BitVec 8

/-- A node index, NODEW = 9 bits (00_scope.md R8). -/
abbrev NodeIx := BitVec 9

/-- A node weight, WW = 40 bits, unsigned (00_scope.md R8, 41_build.md R128). -/
abbrev Weight := BitVec 40

/-- A host word address, AW = 18 bits (00_scope.md R8, 20_memory.md R60). -/
abbrev Addr := BitVec 18

/-- A bit-string: position 0 is the head of the list (00_scope.md R13). It is not a number. -/
abbrev BitString := List Bool

end Sys2Proof
end

