-- ==== Sys2Proof/Config.lean ====
section
/-! DEFINITION. What is fixed for the machine: the spec's parameters (00_scope.md R7 to R9) and the
FREE VALUES, constants with no body for every value the spec calls unspecified (00_scope.md R15).
Nothing can be proved about a free value, so every claim holds whatever it is. -/

namespace Sys2Proof

/-- NSYM, the number of distinct symbol values (00_scope.md R7). -/
abbrev Config.nSym : Nat := 256

/-- MAXNODES, the most nodes a tree can have (00_scope.md R7). -/
abbrev Config.maxNodes : Nat := 511

/-- MAXLEN, the longest code in bits (00_scope.md R8). -/
abbrev Config.maxLen : Nat := 255

/-- The two open parameters that a rule reads (00_scope.md R9). They are held in State as the constant
registers SYMCAP and BITCAP, so a claim about every state covers every choice of them. -/
structure Params where
  symCap : Nat
  bitCap : Nat
  deriving DecidableEq, Repr

/-- The defaults of 92_eei_decisions.md section 7; State.reset is the block built with them. -/
def Config.defaults : Params := { symCap := 65536, bitCap := 2097152 }

/-- FREE VALUE: what the engine or the host gets from SYMBUF[i] when nothing has written that entry,
drawn afresh for every draw number (20_memory.md R79, 93_implementation_defined.md section 2 row 1). -/
opaque Config.freeSymbol (draw : Nat) (i : Nat) : Sym

/-- FREE VALUE: what a read of BITBUF word q gives when nothing has written that word (20_memory.md R79).
A command reads each position once, so the word form gives every single read a value of its own. -/
opaque Config.freeBitWord (draw : Nat) (q : Nat) : Word

/-- FREE VALUE: what a read of the CODEBITS word at index a = 8 × s + w gives when nothing has written it
(20_memory.md R79). `time` is the position in the command's loop, so that two reads by one command
need not agree. -/
opaque Config.freeCodeWord (draw : Nat) (time : Nat) (a : Nat) : Word

/-- FREE VALUE: what a host read of any address but STATUS returns while BUSY is 1
(70_reset_and_hazards.md R250). -/
opaque Config.freeBusyRead (draw : Nat) (a : Nat) : Word

end Sys2Proof
end

