-- ==== Sys2Proof/Syntax.lean ====
section
/-! DEFINITION. The ten commands of HUFB, one constructor for each row of spec/opcode_table.json
(30_encoding.md R93). No command has an operand (R95). -/

namespace Sys2Proof

/-- A command (30_encoding.md R93). Its word, and the word's reading, are in Decode.lean. -/
inductive Instr where
  /-- NOP, does nothing (45_system.md R186). -/
  | nop
  /-- COUNT, the Frequency Counter (40_count.md R111). -/
  | count
  /-- BUILD, the Tree Builder (41_build.md R121). -/
  | build
  /-- DERIVE, the Code Table Deriver (42_derive.md R141). -/
  | derive
  /-- ENCODE, the Bit Encoder (43_encode.md R156). -/
  | encode
  /-- DECODE, the Bit Decoder walking the tree (44_decode.md R166). -/
  | decode
  /-- DECODEC, the Bit Decoder matching the code table (44_decode.md R172). -/
  | decodec
  /-- MKTABLE, COUNT, then BUILD unless the table is empty, then DERIVE (42_derive.md R148). -/
  | mktable
  /-- CLRF, clear fault (45_system.md R187). -/
  | clrf
  /-- SRST, soft reset (45_system.md R188). -/
  | srst
  deriving DecidableEq, Repr

/-- The ten commands in the order of their opcodes (30_encoding.md R93). -/
def Instr.all : List Instr :=
  [.nop, .count, .build, .derive, .encode, .decode, .decodec, .mktable, .clrf, .srst]

end Sys2Proof
end

