-- ==== Sys2Proof/Machine/HostOp.lean ====
section
/-! DEFINITION. What the outside world does to the block: the host operations of 30_encoding.md R99, the
accesses of a byte-bus wrapper (20_memory.md R65), the reset input (70_reset_and_hazards.md R240), and
the two agents of 00_scope.md R10. -/

namespace Sys2Proof.Machine

/-- A host operation (30_encoding.md R99), and an access through a byte-bus wrapper (20_memory.md R65). -/
inductive HostOp where
  /-- `WR addr, value`: MemWrite(addr, 1, value). -/
  | wr (a : Addr) (v : Word)
  /-- `RD addr`: MemRead(addr, 1); the value read is the operation's result. -/
  | rd (a : Addr)
  /-- `CMD mnemonic`: MemWrite(0x00000, 1, the command's word). -/
  | cmd (i : Instr)
  /-- `WAIT`: repeat `RD 0x00001` until bit 0 of the result is 0. -/
  | wait
  /-- `EXPECT addr, value`: `RD addr`, and the claim that the result equals `value`. -/
  | expect (a : Addr) (v : Word)
  /-- A read of `nBytes` bytes at a byte address, through a wrapper. -/
  | busRd (byteAddr nBytes : Nat)
  /-- A write of `nBytes` bytes at a byte address, through a wrapper. -/
  | busWr (byteAddr nBytes : Nat) (v : Word)
  deriving DecidableEq, Repr

/-- One thing that reaches the block from outside: a host operation, or the reset input asserted and released. -/
inductive Input where
  | op (o : HostOp)
  | reset
  deriving DecidableEq, Repr

/-- The two agents (00_scope.md R10). -/
inductive Agent where
  | host
  | engine
  deriving DecidableEq, Repr

/-- The result of one host read: the address read, the value the port returned, and the value an EXPECT
claimed, if the read was an EXPECT's (30_encoding.md R99). -/
structure ReadResult where
  addr : Addr
  value : Word
  claim : Option Word
  deriving DecidableEq, Repr

end Sys2Proof.Machine
end

