-- ==== Sys2Proof/Machine/State.lean ====
section
/-! DEFINITION. The whole state of HUFB (10_state.md R20), the reasons a step can stop, and the state
after reset (R50). -/

namespace Sys2Proof.Machine

/-- A Huffman Node (10_state.md R36), the document's tagged union. KIND is the constructor; a field that
the other variant holds reads 0. -/
inductive Node where
  /-- KIND = 0: a leaf holds one Symbol and its weight. -/
  | leaf (sym : Sym) (weight : Weight)
  /-- KIND = 1: an internal node names its two children by index. -/
  | internal (left right : NodeIx) (weight : Weight)
  deriving DecidableEq, Repr

/-- A memory: (cell number, contents) pairs, cell numbers strictly rising. A cell that is not listed is one
nothing has written since reset, or since its contents became unspecified (20_memory.md R79). -/
abbrev Memory (w : Nat) := List (Nat × BitVec w)

/-- The six errors (60_exceptions.md R210). Their codes are in Machine/Flags.lean. -/
inductive Err where
  | invalidInput
  | unknownSymbol
  | truncatedStream
  | invalidCode
  | capacity
  | illegalCommand
  deriving DecidableEq, Repr

/-- A command's output, what is emptied when it ends with an error (60_exceptions.md R221). -/
inductive Output where
  /-- COUNT: the frequency table. -/
  | frequencies
  /-- BUILD: the tree. -/
  | tree
  /-- DERIVE: the code table. -/
  | codeTable
  /-- MKTABLE: the frequency table, the tree and the code table. -/
  | allTables
  /-- ENCODE: the bitstream. -/
  | bitstream
  /-- DECODE and DECODEC: the symbol sequence. -/
  | symbols
  /-- NOP, CLRF, SRST and an illegal word. -/
  | nothing
  deriving DecidableEq, Repr

/-- The state. A name in capitals is the spec's. -/
structure State where
  /-- SYM_LEN (10_state.md R21). -/
  symLen : Word
  /-- BIT_LEN (10_state.md R22). -/
  bitLen : Word
  /-- SYMCAP, constant, the parameter SYM_CAP (10_state.md R24). -/
  symcap : Word
  /-- BITCAP, constant, the parameter BIT_CAP (10_state.md R24). -/
  bitcap : Word
  /-- The command word in execution, from the write of CMD that issued it until the command ends. STATUS.BUSY
  is 1 exactly while there is one (10_state.md R26, R28). -/
  running : Option Word
  /-- STATUS.FAULT (10_state.md R27, R29). -/
  fault : Bool
  /-- STATUS.OVR (10_state.md R27, R29). -/
  ovr : Bool
  /-- STATUS.ERR (10_state.md R27, R29). -/
  err : BitVec 4
  /-- ERRINFO (10_state.md R31). -/
  errinfo : Word
  /-- FREQ[0..255], the Frequency Table (10_state.md R35). -/
  freq : Vector Word 256
  /-- NODE[0..NNODES−1], the Huffman Tree, and with it NNODES, which is its length: entries at and beyond
  NNODES do not exist (10_state.md R23, R36). -/
  node : List Node
  /-- CODELEN[0..255] (10_state.md R37). -/
  codelen : Vector (BitVec 8) 256
  /-- CODEBITS[0..255], word w of entry s in cell 8 × s + w (10_state.md R38, 20_memory.md R71). -/
  codebits : Memory 32
  /-- SYMBUF[0..SYM_CAP−1] (10_state.md R40). -/
  symbuf : Memory 8
  /-- BITBUF, in words of 32 positions (10_state.md R41, 20_memory.md R70). -/
  bitbuf : Memory 32
  /-- The outside world: what the host and the reset input do next, in order (30_encoding.md R99). -/
  inputs : List Input
  /-- Which agent moves next while a command is in execution. Empty: the engine (70_reset_and_hazards.md R258). -/
  sched : List Agent
  /-- The results of the host's reads, newest first (30_encoding.md R99). -/
  log : List ReadResult
  /-- The model's own counter: it selects the free values a step draws (Config.lean). -/
  draw : Nat
  deriving DecidableEq, Repr

/-- The reasons the machine stops with a fault: NONE. No behaviour of HUFB is a fault that stops it. An error
of the spec is a completed command with STATUS.FAULT = 1, which is a next state (00_scope.md R16), and
"Nothing in HUFB is ever `stuck`" (93_implementation_defined.md). Safe: nothing stops. -/
inductive Fault where
  deriving DecidableEq, Repr

/-- The reasons a step is refused. -/
inductive Refusal where
  /-- Raised by an arm of exec for an instruction that has no meaning yet. No arm does. Safe. -/
  | notModelled (mnemonic : String)
  /-- Raised by the host operations `busRd` and `busWr` for a sub-word, misaligned or burst access through a
  wrapper, or one outside the port's words: "a model refuses such an access" (20_memory.md R65). Safe. -/
  | wrapperAccess
  deriving DecidableEq, Repr

/-- The state after the RESET event, for a block built with the given capacities (10_state.md R50,
70_reset_and_hazards.md R240): the block is idle and nothing is waiting outside. -/
def State.resetOf (p : Params) : State where
  symLen := 0
  bitLen := 0
  symcap := BitVec.ofNat 32 p.symCap
  bitcap := BitVec.ofNat 32 p.bitCap
  running := none
  fault := false
  ovr := false
  err := 0
  errinfo := 0
  freq := Vector.replicate 256 0
  node := []
  codelen := Vector.replicate 256 0
  codebits := []
  symbuf := []
  bitbuf := []
  inputs := []
  sched := []
  log := []
  draw := 0

/-- The machine right after reset, with the default capacities (10_state.md R50). -/
def State.reset : State := State.resetOf Config.defaults

end Sys2Proof.Machine
end

