-- ==== Sys2Proof/Machine/Flags.lean ====
section
/-! DEFINITION. The block's only flags, BUSY, FAULT, OVR and ERR (10_state.md R27 to R29), and the codes of
the errors (60_exceptions.md R210). HUFB has no condition codes. -/

namespace Sys2Proof.Machine

/-- STATUS.BUSY: 1 exactly while a command is in execution (10_state.md R28). -/
def State.busy (s : State) : Bool := s.running.isSome

/-- The code of an error in STATUS.ERR (60_exceptions.md R210). -/
def Err.code : Err → BitVec 4
  | .invalidInput => 1
  | .unknownSymbol => 2
  | .truncatedStream => 3
  | .invalidCode => 4
  | .capacity => 5
  | .illegalCommand => 6

/-- The error a code names; 0 and 7 to 15 name none (60_exceptions.md R210). -/
def Err.ofCode (c : BitVec 4) : Option Err :=
  [Err.invalidInput, .unknownSymbol, .truncatedStream, .invalidCode, .capacity, .illegalCommand].find?
    fun e => e.code == c

/-- The STATUS word: BUSY in bit 0, FAULT 1, OVR 2, ERR 7:4; bits 3 and 31:8 read 0 (10_state.md R27, R32). -/
def State.statusWord (s : State) : Word :=
  (0 : BitVec 24) ++ s.err ++ (0 : BitVec 1) ++ BitVec.ofBool s.ovr ++ BitVec.ofBool s.fault ++
    BitVec.ofBool s.busy

/-- The flags that a recorded error sets, FAULT and ERR together, with ERRINFO (60_exceptions.md R220). -/
def State.recordError (s : State) (e : Err) (info : Word) : State :=
  { s with fault := true, err := e.code, errinfo := info }

/-- FAULT, ERR, OVR and ERRINFO all to 0 (45_system.md R187, R188). -/
def State.clearFlags (s : State) : State :=
  { s with fault := false, ovr := false, err := 0, errinfo := 0 }

end Sys2Proof.Machine
end

