-- ==== Sys2Proof/Machine/Bits.lean ====
section
/-! DEFINITION. Packing bit-strings into 32-bit words, first bit in the most significant position
(00_scope.md R8 BITORDER; 20_memory.md R70, R71). -/

namespace Sys2Proof.Machine

/-- Position `j` of a word that holds a bit-string: bit 31 − j (20_memory.md R70, R71). -/
def wordBit (w : Word) (j : Nat) : Bool := w.getMsbD j

/-- Word `k` of a bit-string: position 32 × k + j is bit 31 − j; positions past the end are 0. -/
def packWord (p : BitString) (k : Nat) : Word :=
  (BitVec.ofBoolListBE ((List.range 32).map fun j => p.getD (32 * k + j) false)).setWidth 32

/-- ⌈n / 32⌉, how many words a bit-string of length `n` occupies (20_memory.md R70). -/
def wordsFor (n : Nat) : Nat := (n + 31) / 32

end Sys2Proof.Machine
end

