-- ==== Sys2Proof/Machine/Operands.lean ====
section
/-! DEFINITION. The operands of the commands: how the engine reads the registers and memories that a command
names (20_memory.md R74, 00_scope.md R14). A read of a cell nothing has written takes a free value
(20_memory.md R79). -/

namespace Sys2Proof.Machine

/-- The contents of a cell, if something has written it. -/
def Memory.read {w : Nat} : Memory w → Nat → Option (BitVec w)
  | [], _ => none
  | (b, v) :: rest, a => if b = a then some v else Memory.read rest a

/-- The 256 symbols in ascending order, the range of every `for s in 0..255`. -/
def allSymbols : List Sym := (List.range 256).map (BitVec.ofNat 8)

/-- NNODES, 9 bits: the number of nodes of the tree (10_state.md R23). -/
def State.nnodes (s : State) : BitVec 9 := BitVec.ofNat 9 s.node.length

/-- FREQ[c] (10_state.md R35). -/
def State.freqAt (s : State) (c : Sym) : Word := s.freq[c.toNat]'(c.isLt)

/-- CODELEN[c] (10_state.md R37). -/
def State.codelenAt (s : State) (c : Sym) : BitVec 8 := s.codelen[c.toNat]'(c.isLt)

/-- SYM(i), SYMBUF[i] as the engine reads it (00_scope.md R14). -/
def State.symAt (s : State) (i : Nat) : Sym := (s.symbuf.read i).getD (Config.freeSymbol s.draw i)

/-- BITBUF word q as it is read (20_memory.md R70). -/
def State.bitWord (s : State) (q : Nat) : Word := (s.bitbuf.read q).getD (Config.freeBitWord s.draw q)

/-- BIT(t), position t of the bit buffer (00_scope.md R14, 20_memory.md R70). -/
def State.bitAt (s : State) (t : Nat) : Bool := wordBit (s.bitWord (t / 32)) (t % 32)

/-- CODEBITS word a = 8 × s + w as it is read at the position `time` of a command's loop (20_memory.md R71). -/
def State.codeWord (s : State) (time : Nat) (a : Nat) : Word :=
  (s.codebits.read a).getD (Config.freeCodeWord s.draw time a)

/-- CODEBITS[c](j) (10_state.md R38, 20_memory.md R71). -/
def State.codeBit (s : State) (time : Nat) (c : Sym) (j : Nat) : Bool :=
  wordBit (s.codeWord time (8 * c.toNat + j / 32)) (j % 32)

/-- CODE(c): the first CODELEN[c] positions of CODEBITS[c] (10_state.md R38). -/
def State.codeOf (s : State) (time : Nat) (c : Sym) : BitString :=
  (List.range (s.codelenAt c).toNat).map (s.codeBit time c)

/-- The symbol sequence SYM(0), ..., SYM(SYM_LEN−1) (10_state.md R21). -/
def State.symbols (s : State) : List Sym := (List.range s.symLen.toNat).map s.symAt

/-- The bit sequence BIT(0), ..., BIT(BIT_LEN−1) (10_state.md R22). -/
def State.bits (s : State) : BitString := (List.range s.bitLen.toNat).map s.bitAt

/-- A node's KIND: true for an internal node (10_state.md R36). -/
def Node.kind : Node → Bool
  | .leaf _ _ => false
  | .internal _ _ _ => true

/-- SYM of a leaf, 0 of an internal node (10_state.md R36). -/
def Node.sym : Node → Sym
  | .leaf c _ => c
  | .internal _ _ _ => 0

/-- LEFT of an internal node, 0 of a leaf (10_state.md R36). -/
def Node.left : Node → NodeIx
  | .leaf _ _ => 0
  | .internal l _ _ => l

/-- RIGHT of an internal node, 0 of a leaf (10_state.md R36). -/
def Node.right : Node → NodeIx
  | .leaf _ _ => 0
  | .internal _ r _ => r

/-- WEIGHT (10_state.md R36). -/
def Node.weight : Node → Weight
  | .leaf _ w => w
  | .internal _ _ w => w

/-- What stands in for a node at an index where none exists. No rule reads one (20_memory.md R74). -/
def Node.absent : Node := .leaf 0 0

/-- NODE[k] (10_state.md R36). -/
def nodeAt (ns : List Node) (k : Nat) : Node := ns.getD k Node.absent

/-- A table of one entry for each symbol. -/
def bySymbol {α : Type} (f : Sym → α) : Vector α 256 := ⟨(allSymbols.map f).toArray, by simp [allSymbols]⟩

/-- The table is empty when all 256 entries are 0 (10_state.md R35). -/
def tableEmpty (freq : Vector Word 256) : Bool := freq.toList.all fun n => n == 0

end Sys2Proof.Machine
end

