-- ==== Sys2Proof/Machine/Ops.lean ====
section
/-! DEFINITION. The operations the commands share: writing memory, ending a command with success or with an
error (60_exceptions.md R220, R221) and the return from an error (R225), the reset event, and the loop
that both decoders run (44_decode.md R165). -/

namespace Sys2Proof.Machine

/-- The canonical form: cell numbers strictly rising, and each below the memory's size. -/
abbrev Memory.wf {w : Nat} (size : Nat) (m : Memory w) : Prop :=
  (m.map Prod.fst).Pairwise (· < ·) ∧ ∀ c ∈ m, c.1 < size

/-- Write one cell, keeping the cell numbers rising. -/
def Memory.write {w : Nat} : Memory w → Nat → BitVec w → Memory w
  | [], a, v => [(a, v)]
  | (b, u) :: rest, a, v =>
    if a < b then (a, v) :: (b, u) :: rest
    else if a = b then (a, v) :: rest
    else (b, u) :: Memory.write rest a v

/-- Write consecutive cells from `a` on. -/
def Memory.writeFrom {w : Nat} : Memory w → Nat → List (BitVec w) → Memory w
  | m, _, [] => m
  | m, a, v :: vs => Memory.writeFrom (m.write a v) (a + 1) vs

/-- The command ends with success: STATUS.BUSY <- 0 (30_encoding.md R92 step 5). -/
def endCommand (s : State) : State := { s with running := none }

/-- Emptying a command's output: its length or count is 0 and the storage behind it is unspecified, that is,
no cell of it is written any more (60_exceptions.md R221). -/
def emptyOutput : Output → State → State
  | .frequencies, s => { s with freq := Vector.replicate 256 0 }
  | .tree, s => { s with node := [] }
  | .codeTable, s => { s with codelen := Vector.replicate 256 0, codebits := [] }
  | .allTables, s =>
    { s with freq := Vector.replicate 256 0, node := [], codelen := Vector.replicate 256 0, codebits := [] }
  | .bitstream, s => { s with bitLen := 0, bitbuf := [] }
  | .symbols, s => { s with symLen := 0, symbuf := [] }
  | .nothing, s => s

/-- `raise E(info)`, the error ending of a command with output `out`: the one operation that takes an exception
(60_exceptions.md R220). Nothing is saved and control goes nowhere: the block is idle with FAULT = 1. -/
def raiseError (out : Output) (e : Err) (info : Word) (s : State) : State :=
  endCommand ((emptyOutput out s).recordError e info)

/-- The return from an error (60_exceptions.md R225): FAULT, OVR, ERR and ERRINFO to 0, nothing restored. -/
def acknowledge (s : State) : State := s.clearFlags

/-- ERRINFO when a length register is over its buffer's capacity (60_exceptions.md R212). -/
def overCapacity : Word := 0xFFFFFFFF

/-- A position as ERRINFO records it (60_exceptions.md R212). -/
def position (n : Nat) : Word := BitVec.ofNat 32 n

/-- The RESET event (70_reset_and_hazards.md R240, R241): the state of 10_state.md R50 whatever the block was
doing. The capacities are parameters; the host's own future and record stand. -/
def resetEvent (s : State) : State :=
  { State.resetOf Config.defaults with
      symcap := s.symcap, bitcap := s.bitcap, inputs := s.inputs, sched := s.sched, log := s.log, draw := s.draw }

/-- How a command's loop ends: with its result, or at the first error (60_exceptions.md R223). -/
inductive Ending (α : Type) where
  | done (result : α)
  | failed (e : Err) (info : Word)
  deriving DecidableEq, Repr

/-- What one bit does to a decoder that stands at `σ`. -/
inductive Move (σ : Type) where
  /-- No path or entry is left. -/
  | noPath
  /-- Still inside a code. -/
  | inside (x : σ)
  /-- The bit completes a code: emit its symbol. -/
  | emit (c : Sym)
  deriving DecidableEq, Repr

/-- The loop of both decoders (44_decode.md R166, R172): consume the bits one at a time from position `p`, where
`at_` is where the decoder stands, `start` the position of the first bit of the unfinished code, and `out`
the symbols emitted. `move p x b` is what bit `b` at position `p` does at `x`. -/
def decodeLoop {σ : Type} (move : Nat → σ → Bool → Move σ) (root : σ) (cap : Nat) :
    BitString → Nat → σ → Nat → List Sym → Ending (List Sym)
  | [], p, _, start, out => if start ≠ p then .failed .truncatedStream (position start) else .done out
  | b :: bs, p, at_, start, out =>
    match move p at_ b with
    | .noPath => .failed .invalidCode (position p)
    | .inside x => decodeLoop move root cap bs (p + 1) x start out
    | .emit c =>
      if out.length = cap then .failed .capacity (position p)
      else decodeLoop move root cap bs (p + 1) root (p + 1) (out ++ [c])

/-- How DECODE and DECODEC end: SYMBUF[0..m−1] and SYM_LEN, or the error (44_decode.md R166, R172). -/
def storeSymbols (r : Ending (List Sym)) (s : State) : State :=
  match r with
  | .done out => endCommand { s with symbuf := s.symbuf.writeFrom 0 out, symLen := BitVec.ofNat 32 out.length }
  | .failed e info => raiseError .symbols e info s

end Sys2Proof.Machine
end

