-- ==== Sys2Proof/Machine/Decoder.lean ====
section
/-! DEFINITION. The Bit Decoder: DECODE by walking the tree, DECODEC by matching the code table
(44_decode.md). -/

namespace Sys2Proof.Machine

/-- What a bit does at node `cur` of the tree (44_decode.md R166): no path without a tree (R170); with one leaf bit
0 is its code and bit 1 is none (R169); else a step to LEFT or RIGHT (R167). -/
def treeMove (ns : List Node) (cur : Nat) (b : Bool) : Move Nat :=
  if ns.length = 0 then .noPath
  else if ns.length = 1 then (if b then .noPath else .emit (nodeAt ns 0).sym)
  else
    let n := nodeAt ns cur
    let child := (if b then n.right else n.left).toNat
    if (nodeAt ns child).kind then .inside child else .emit (nodeAt ns child).sym

/-- DECODE (44_decode.md R166). -/
def execDecode (s : State) : Host.Outcome State Fault Refusal :=
  if s.bitLen.toNat > s.bitcap.toNat then .next (raiseError .symbols .capacity overCapacity s)
  else
    let root := s.node.length - 1
    .next (storeSymbols (decodeLoop (fun _ cur b => treeMove s.node cur b) root s.symcap.toNat s.bits 0 root 0 []) s)

/-- Entry `c` matches the accumulated bits (44_decode.md R173). -/
def entryMatches (s : State) (p : Nat) (acc : BitString) (c : Sym) : Bool :=
  (s.codelenAt c).toNat == acc.length && s.codeOf p c == acc

/-- Entry `c` is a longer entry of which the accumulated bits are a prefix (44_decode.md R175). -/
def entryContinues (s : State) (p : Nat) (acc : BitString) (c : Sym) : Bool :=
  decide (acc.length < (s.codelenAt c).toNat) && acc.isPrefixOf (s.codeOf p c)

/-- What the bit `b` at position `p` does to the accumulated bit-string (44_decode.md R172): the smallest symbol
that matches is emitted (R174); else some longer entry must continue (R175). -/
def tableMove (s : State) (p : Nat) (acc : BitString) (b : Bool) : Move BitString :=
  match allSymbols.find? (entryMatches s p (acc ++ [b])) with
  | some c => .emit c
  | none => if allSymbols.any (entryContinues s p (acc ++ [b])) then .inside (acc ++ [b]) else .noPath

/-- DECODEC (44_decode.md R172). -/
def execDecodec (s : State) : Host.Outcome State Fault Refusal :=
  if s.bitLen.toNat > s.bitcap.toNat then .next (raiseError .symbols .capacity overCapacity s)
  else .next (storeSymbols (decodeLoop (tableMove s) [] s.symcap.toNat s.bits 0 [] 0 []) s)

end Sys2Proof.Machine
end

