-- ==== Sys2Proof/Machine/Build.lean ====
section
/-! DEFINITION. The Tree Builder: BUILD (41_build.md). The hidden state PQ is a list of keys kept in ascending
order of (WEIGHT, index), so extract_min takes the head: "How the set is held ... is free" (10_state.md R45). -/

namespace Sys2Proof.Machine

/-- A member of PQ with its key: the node's WEIGHT, then its index (10_state.md R45). -/
structure Key where
  weight : Weight
  index : Nat
  deriving DecidableEq, Repr

/-- The order of extraction: first by WEIGHT, unsigned, then by index (41_build.md R124). -/
def Key.before (a b : Key) : Bool :=
  decide (a.weight.toNat < b.weight.toNat) || (a.weight == b.weight && decide (a.index < b.index))

/-- PQ + {k}, in order. -/
def insertKey (k : Key) : List Key → List Key
  | [] => [k]
  | x :: xs => if k.before x then k :: x :: xs else x :: insertKey k xs

/-- One leaf for each symbol with a count, in ascending symbol order (41_build.md R122). -/
def leafNodes (freq : Vector Word 256) : List Node :=
  allSymbols.filterMap fun c =>
    let n := freq[c.toNat]'(c.isLt)
    if n = 0 then none else some (.leaf c (n.setWidth 40))

/-- PQ after the leaves are created, from index `i` on (41_build.md R121). -/
def leafQueue : Nat → List Node → List Key
  | _, [] => []
  | i, n :: ns => insertKey ⟨n.weight, i⟩ (leafQueue (i + 1) ns)

/-- The node a merge makes of the first extracted `a` and the second extracted `b` (41_build.md R125, R128). -/
def mergeNode (a b : Key) : Node :=
  .internal (BitVec.ofNat 9 a.index) (BitVec.ofNat 9 b.index) (a.weight + b.weight)

/-- The merge loop (41_build.md R123): while PQ has two members, take out the two smallest, then create their
parent at the next index and put it in. `fuel` is a bound on the number of merges. -/
def mergeLoop : Nat → List Node → List Key → List Node
  | fuel + 1, ns, a :: b :: pq =>
    mergeLoop fuel (ns ++ [mergeNode a b]) (insertKey ⟨a.weight + b.weight, ns.length⟩ pq)
  | _, ns, _ => ns

/-- The tree BUILD makes of a frequency table: n leaves, then n − 1 merges (41_build.md R121, R127). -/
def buildTree (freq : Vector Word 256) : List Node :=
  let leaves := leafNodes freq
  mergeLoop leaves.length leaves (leafQueue 0 leaves)

/-- The body of BUILD for a table that is not empty. -/
def buildBody (s : State) : State := { s with node := buildTree s.freq }

/-- BUILD (41_build.md R121, R131). -/
def execBuild (s : State) : Host.Outcome State Fault Refusal :=
  if tableEmpty s.freq then .next (raiseError .tree .invalidInput 0 s)
  else .next (endCommand (buildBody s))

end Sys2Proof.Machine
end

