-- ==== Sys2Proof/Machine/Count.lean ====
section
/-! DEFINITION. The Frequency Counter: COUNT (40_count.md). -/

namespace Sys2Proof.Machine

/-- FREQ[c] <- FREQ[c] + 1, on 32 bits unsigned (40_count.md R111). -/
def tally (freq : Vector Word 256) (c : Sym) : Vector Word 256 :=
  freq.set c.toNat (freq[c.toNat]'(c.isLt) + 1) c.isLt

/-- The body of COUNT after its check: all entries to 0, then one tally for each symbol in turn. -/
def countBody (s : State) : State :=
  { s with freq := s.symbols.foldl tally (Vector.replicate 256 0) }

/-- COUNT (40_count.md R111). -/
def execCount (s : State) : Host.Outcome State Fault Refusal :=
  if s.symLen.toNat > s.symcap.toNat then .next (raiseError .frequencies .capacity overCapacity s)
  else .next (endCommand (countBody s))

end Sys2Proof.Machine
end

