-- ==== Sys2Proof/Machine/Derive.lean ====
section
/-! DEFINITION. The Code Table Deriver: DERIVE and MKTABLE (42_derive.md). -/

namespace Sys2Proof.Machine

/-- The walk from node `k` with the path `p` from the root: each leaf with its path, left before right, bit 0 for
LEFT and bit 1 for RIGHT (42_derive.md R141, R142). `fuel` bounds the depth; a tree that meets the invariant
of 10_state.md R42 has depth below its number of nodes. -/
def walk (ns : List Node) : Nat → Nat → BitString → List (Sym × BitString)
  | 0, _, _ => []
  | fuel + 1, k, p =>
    match nodeAt ns k with
    | .leaf c _ => [(c, p)]
    | .internal l r _ => walk ns fuel l.toNat (p ++ [false]) ++ walk ns fuel r.toNat (p ++ [true])

/-- The codes of a tree: none of no tree (42_derive.md R145), the single bit 0 of the one-leaf tree (R143), else
the path of each leaf from the root NODE[NNODES−1] (R142). -/
def treeCodes (ns : List Node) : List (Sym × BitString) :=
  match ns with
  | [] => []
  | [n] => [(n.sym, [false])]
  | _ => walk ns ns.length (ns.length - 1) []

/-- The code of a symbol in a list of codes; the empty bit-string when the symbol has none. -/
def codeIn : List (Sym × BitString) → Sym → BitString
  | [], _ => []
  | (d, p) :: rest, c => if d = c then p else codeIn rest c

/-- All 2048 words of CODEBITS for a code table, every position beyond a code 0 (42_derive.md R144). -/
def codeCells (code : Sym → BitString) : Memory 32 :=
  allSymbols.flatMap fun c => (List.range 8).map fun w => (8 * c.toNat + w, packWord (code c) w)

/-- The body of DERIVE: every entry of CODELEN and every position of CODEBITS (42_derive.md R141, R144). -/
def deriveBody (s : State) : State :=
  let code := codeIn (treeCodes s.node)
  { s with codelen := bySymbol fun c => BitVec.ofNat 8 (code c).length, codebits := codeCells code }

/-- DERIVE (42_derive.md R141). It cannot fail. -/
def execDerive (s : State) : Host.Outcome State Fault Refusal := .next (endCommand (deriveBody s))

/-- The middle of MKTABLE: no tree for the empty table, else the body of BUILD (42_derive.md R148). -/
def buildUnlessEmpty (s : State) : State :=
  if tableEmpty s.freq then { s with node := [] } else buildBody s

/-- MKTABLE (42_derive.md R148). -/
def execMktable (s : State) : Host.Outcome State Fault Refusal :=
  if s.symLen.toNat > s.symcap.toNat then .next (raiseError .allTables .capacity overCapacity s)
  else .next (endCommand (deriveBody (buildUnlessEmpty (countBody s))))

end Sys2Proof.Machine
end

