-- ==== Sys2Proof/Machine/Encoder.lean ====
section
/-! DEFINITION. The Bit Encoder: ENCODE (43_encode.md). -/

namespace Sys2Proof.Machine

/-- The symbol loop of ENCODE over the positions `is`, `acc` the bits written so far: UnknownSymbol before
Capacity, symbol by symbol (43_encode.md R156, R157, R161). -/
def encodeLoop (s : State) : List Nat → BitString → Ending BitString
  | [], acc => .done acc
  | i :: is, acc =>
    let c := s.symAt i
    if s.codelenAt c = 0 then .failed .unknownSymbol (position i)
    else if acc.length + (s.codelenAt c).toNat > s.bitcap.toNat then .failed .capacity (position i)
    else encodeLoop s is (acc ++ s.codeOf i c)

/-- A bit-string stored at position 0 of BITBUF, the rest of its last word 0, every later word as it was
(43_encode.md R159; 20_memory.md R70). -/
def storeBits (p : BitString) (m : Memory 32) : Memory 32 :=
  m.writeFrom 0 ((List.range (wordsFor p.length)).map (packWord p))

/-- ENCODE (43_encode.md R156). -/
def execEncode (s : State) : Host.Outcome State Fault Refusal :=
  if s.symLen.toNat > s.symcap.toNat then .next (raiseError .bitstream .capacity overCapacity s)
  else
    match encodeLoop s (List.range s.symLen.toNat) [] with
    | .done p => .next (endCommand { s with bitbuf := storeBits p s.bitbuf, bitLen := BitVec.ofNat 32 p.length })
    | .failed e info => .next (raiseError .bitstream e info s)

end Sys2Proof.Machine
end

