-- ==== Sys2Proof/Machine/System.lean ====
section
/-! DEFINITION. The system commands NOP, CLRF and SRST (45_system.md). -/

namespace Sys2Proof.Machine

/-- NOP (45_system.md R186): nothing but the end of BUSY. -/
def execNop (s : State) : Host.Outcome State Fault Refusal := .next (endCommand s)

/-- CLRF (45_system.md R187), the return from an error. -/
def execClrf (s : State) : Host.Outcome State Fault Refusal := .next (endCommand (acknowledge s))

/-- SRST (45_system.md R188): CODEBITS, SYMBUF and BITBUF stay. -/
def execSrst (s : State) : Host.Outcome State Fault Refusal :=
  .next (endCommand (acknowledge
    { s with symLen := 0, bitLen := 0, node := [], freq := Vector.replicate 256 0,
             codelen := Vector.replicate 256 0 }))

end Sys2Proof.Machine
end

