-- ==== Sys2Proof/Decode.lean ====
section
/-! DEFINITION. Reading a command word and writing one (30_encoding.md R90 to R96). A command is one
32-bit word of format C: bits 31:8 ZERO, bits 7:0 OPCODE. -/

namespace Sys2Proof

/-- Why a word is none of the ten commands (30_encoding.md R94). -/
inductive Illegal where
  /-- ZERO ≠ 0, whatever the OPCODE. -/
  | zeroField
  /-- ZERO = 0 and OPCODE in 0x0A..0xFF. -/
  | reservedOpcode
  deriving DecidableEq, Repr

/-- What a word is: exactly one of the ten commands, or illegal (30_encoding.md R96). -/
inductive Decoded where
  | command (i : Instr)
  | illegal (why : Illegal)
  deriving DecidableEq, Repr

/-- The OPCODE field, bits 7:0 (30_encoding.md R91). -/
def opcodeField (w : Word) : BitVec 8 := w.extractLsb' 0 8

/-- The ZERO field, bits 31:8 (30_encoding.md R91). -/
def zeroField (w : Word) : BitVec 24 := w.extractLsb' 8 24

/-- The opcode map (30_encoding.md R93), total on the 256 opcodes. -/
def opcodeMap (op : BitVec 8) : Decoded :=
  match op.toNat with
  | 0x00 => .command .nop
  | 0x01 => .command .count
  | 0x02 => .command .build
  | 0x03 => .command .derive
  | 0x04 => .command .encode
  | 0x05 => .command .decode
  | 0x06 => .command .decodec
  | 0x07 => .command .mktable
  | 0x08 => .command .clrf
  | 0x09 => .command .srst
  | _ => .illegal .reservedOpcode

/-- The decoder, total on every 32-bit word (30_encoding.md R96). -/
def decode (w : Word) : Decoded :=
  if zeroField w ≠ 0 then .illegal .zeroField else opcodeMap (opcodeField w)

/-- OPCODE of a command (30_encoding.md R93). -/
def opcodeOf : Instr → BitVec 8
  | .nop => 0x00
  | .count => 0x01
  | .build => 0x02
  | .derive => 0x03
  | .encode => 0x04
  | .decode => 0x05
  | .decodec => 0x06
  | .mktable => 0x07
  | .clrf => 0x08
  | .srst => 0x09

/-- The encoder: the word of format C with the command's OPCODE (30_encoding.md R91, R93). -/
def encode (i : Instr) : Word := (0 : BitVec 24) ++ opcodeOf i

/-- The command word of an opcode-table row: the low `nbits` bits of `w`, every bit above them 0. A command
is one 32-bit word, the data of one host write (30_encoding.md R90), so bit numbers are the word's own. -/
def tableWord (nbits w : Nat) : Word := BitVec.ofNat 32 (w % 2 ^ nbits)

/-- The instruction the decoder reads from an opcode-table row's bits; none where it is illegal, or where
the bits do not fit the one 32-bit word. -/
def decodeTableWord (nbits w : Nat) : Option Instr :=
  if w % 2 ^ nbits < 2 ^ 32 then
    match decode (tableWord nbits w) with
    | .command i => some i
    | .illegal _ => none
  else none

end Sys2Proof
end

