-- ==== Sys2Proof/Machine/Map.lean ====
section
/-! DEFINITION. The host port's address map (20_memory.md R60 to R62, R65, R66): which location a word
address names, and the addresses of the locations. -/

namespace Sys2Proof.Machine

/-- A location of the address map (20_memory.md R66). -/
inductive Loc where
  | cmd
  | status
  | errinfo
  | symLen
  | bitLen
  | nnodes
  | symcap
  | bitcap
  /-- FREQ[c]. -/
  | freq (c : Sym)
  /-- CODELEN[c]. -/
  | codelen (c : Sym)
  /-- CODEBITS[s] word w, at index a = 8 × s + w. -/
  | codebits (a : Nat)
  /-- NODE[k] word j. -/
  | node (k j : Nat)
  /-- SYMBUF[i]. -/
  | symbuf (i : Nat)
  /-- BITBUF word q. -/
  | bitbuf (q : Nat)
  | unmapped
  deriving DecidableEq, Repr

/-- The registers, word addresses 0x00000 to 0x00007 (20_memory.md R66). -/
def registerLoc : Nat → Loc
  | 0x00 => .cmd
  | 0x01 => .status
  | 0x02 => .errinfo
  | 0x03 => .symLen
  | 0x04 => .bitLen
  | 0x05 => .nnodes
  | 0x06 => .symcap
  | 0x07 => .bitcap
  | _ => .unmapped

/-- The address map (20_memory.md R66), row by row, for the capacities SYM_CAP and BIT_CAP. -/
def locate (symcap bitcap : Nat) (a : Addr) : Loc :=
  let n := a.toNat
  if n < 0x00100 then registerLoc n
  else if n < 0x00200 then .freq (BitVec.ofNat 8 (n - 0x00100))
  else if n < 0x00300 then .codelen (BitVec.ofNat 8 (n - 0x00200))
  else if n < 0x00800 then .unmapped
  else if n < 0x01000 then .codebits (n - 0x00800)
  else if n < 0x01800 then .node ((n - 0x01000) / 4) ((n - 0x01000) % 4)
  else if n < 0x10000 then .unmapped
  else if n < 0x20000 then if n - 0x10000 < symcap then .symbuf (n - 0x10000) else .unmapped
  else if n < 0x30000 then if n - 0x20000 < bitcap / 32 then .bitbuf (n - 0x20000) else .unmapped
  else .unmapped

/-- Word address of CMD. -/
abbrev addrCmd : Addr := 0x00000
/-- Word address of STATUS. -/
abbrev addrStatus : Addr := 0x00001
/-- Word address of ERRINFO. -/
abbrev addrErrinfo : Addr := 0x00002
/-- Word address of SYM_LEN. -/
abbrev addrSymLen : Addr := 0x00003
/-- Word address of BIT_LEN. -/
abbrev addrBitLen : Addr := 0x00004
/-- Word address of NNODES. -/
abbrev addrNnodes : Addr := 0x00005
/-- Word address of SYMCAP. -/
abbrev addrSymcap : Addr := 0x00006
/-- Word address of BITCAP. -/
abbrev addrBitcap : Addr := 0x00007
/-- Word address of FREQ[c]. -/
def addrFreq (c : Sym) : Addr := BitVec.ofNat 18 (0x00100 + c.toNat)
/-- Word address of CODELEN[c]. -/
def addrCodelen (c : Sym) : Addr := BitVec.ofNat 18 (0x00200 + c.toNat)
/-- Word address of CODEBITS[c] word `w`. -/
def addrCodebits (c : Sym) (w : Nat) : Addr := BitVec.ofNat 18 (0x00800 + 8 * c.toNat + w)
/-- Word address of NODE[k] word `j`. -/
def addrNode (k j : Nat) : Addr := BitVec.ofNat 18 (0x01000 + 4 * k + j)
/-- Word address of SYMBUF[i], for i ≤ 0xFFFF. DESIGN CHOICE (log entry 16): past its window the address runs on, modulo
2^18. -/
def addrSymbuf (i : Nat) : Addr := BitVec.ofNat 18 (0x10000 + i)
/-- Word address of BITBUF word `q`, for q ≤ 0xFFFF. DESIGN CHOICE (log entry 16): past its window the address runs on,
modulo 2^18. -/
def addrBitbuf (q : Nat) : Addr := BitVec.ofNat 18 (0x20000 + q)

/-- The accesses a wrapper on a byte-addressed bus accepts: 32-bit ones at byte addresses that are multiples
of 4, inside the port's 2^18 words (20_memory.md R62, R65). -/
def wrapperAccepts (byteAddr nBytes : Nat) : Bool :=
  nBytes == 4 && byteAddr % 4 == 0 && decide (byteAddr / 4 < 2 ^ 18)

/-- The word address of an accepted wrapper access: word `a` is at byte address 4 × a (20_memory.md R62). -/
def wrapperAddr (byteAddr : Nat) : Addr := BitVec.ofNat 18 (byteAddr / 4)

end Sys2Proof.Machine
end

