-- ==== Sys2Proof/Machine/Port.lean ====
section
/-! DEFINITION. The host port: reads and writes (20_memory.md R63, R64), the issue of a command
(30_encoding.md R92), the busy protocol (70_reset_and_hazards.md R250), and which agent moves next. -/

namespace Sys2Proof.Machine

/-- Word `j` of NODE[k] as the host sees it (20_memory.md R68); 0 for k ≥ NNODES. -/
def nodeWord (ns : List Node) (k j : Nat) : Word :=
  if k < ns.length then
    let n := nodeAt ns k
    match j with
    | 0 => BitVec.ofBool n.kind ++ (0 : BitVec 4) ++ n.left ++ n.right ++ (0 : BitVec 1) ++ n.sym
    | 1 => n.weight.extractLsb' 0 32
    | 2 => (n.weight.extractLsb' 32 8).setWidth 32
    | _ => 0
  else 0

/-- What a location reads as (20_memory.md R63, R66 to R72); a cell nothing has written reads as a free value,
its reserved bits 0 (R79; 10_state.md R32). -/
def readLoc (s : State) : Loc → Word
  | .cmd => 0
  | .status => s.statusWord
  | .errinfo => s.errinfo
  | .symLen => s.symLen
  | .bitLen => s.bitLen
  | .nnodes => s.nnodes.setWidth 32
  | .symcap => s.symcap
  | .bitcap => s.bitcap
  | .freq c => s.freqAt c
  | .codelen c => (s.codelenAt c).setWidth 32
  | .codebits a => s.codeWord 0 a
  | .node k j => nodeWord s.node k j
  | .symbuf i => (s.symAt i).setWidth 32
  | .bitbuf q => s.bitWord q
  | .unmapped => 0

/-- The location an address names in this block. -/
def State.locOf (s : State) (a : Addr) : Loc := locate s.symcap.toNat s.bitcap.toNat a

/-- MemRead(a, 1): the value of the address map (20_memory.md R63); while BUSY is 1, a STATUS read is exact and
any other read returns an unspecified value (70_reset_and_hazards.md R250). -/
def portRead (s : State) (a : Addr) : Word :=
  if s.busy && a != addrStatus then Config.freeBusyRead s.draw a.toNat else readLoc s (s.locOf a)

/-- The words the fault gate lets through: CLRF and SRST (60_exceptions.md R224). -/
def passesGate (w : Word) : Bool := w == 0x00000008 || w == 0x00000009

/-- The issue of a command, steps 1 and 2 of 30_encoding.md R92: the fault gate, then BUSY <- 1. -/
def issue (w : Word) (s : State) : State :=
  if s.fault && !passesGate w then s else { s with running := some w }

/-- What a write stores while the block is idle (20_memory.md R64): the bits the location has; a read-only
location and an unmapped address ignore it; CMD issues. -/
def writeLoc (s : State) (v : Word) : Loc → State
  | .cmd => issue v s
  | .symLen => { s with symLen := v }
  | .bitLen => { s with bitLen := v }
  | .freq c => { s with freq := s.freq.set c.toNat v c.isLt }
  | .codelen c => { s with codelen := s.codelen.set c.toNat (v.setWidth 8) c.isLt }
  | .codebits a => { s with codebits := s.codebits.write a v }
  | .symbuf i => { s with symbuf := s.symbuf.write i (v.setWidth 8) }
  | .bitbuf q => { s with bitbuf := s.bitbuf.write q v }
  | .status => s
  | .errinfo => s
  | .nnodes => s
  | .symcap => s
  | .bitcap => s
  | .node _ _ => s
  | .unmapped => s

/-- MemWrite(a, 1, v) (20_memory.md R64); while BUSY is 1 the write is dropped and sets STATUS.OVR, whatever the
address (70_reset_and_hazards.md R250). -/
def portWrite (s : State) (a : Addr) (v : Word) : State :=
  if s.busy then { s with ovr := true } else writeLoc s v (s.locOf a)

/-- A host read with its result on record (30_encoding.md R99). -/
def recordRead (s : State) (a : Addr) (claim : Option Word) : State :=
  { s with log := ⟨a, portRead s a, claim⟩ :: s.log }

/-- One host operation, `s` with the operation still first in its inputs and `rest` behind it. A `WAIT` that
reads BUSY = 1 stays (30_encoding.md R99). -/
def hostStep (o : HostOp) (rest : List Input) (s : State) : Host.Outcome State Fault Refusal :=
  let s' := { s with inputs := rest }
  match o with
  | .wr a v => .next (portWrite s' a v)
  | .cmd i => .next (portWrite s' addrCmd (encode i))
  | .rd a => .next (recordRead s' a none)
  | .expect a v => .next (recordRead s' a (some v))
  | .wait => .next (if (portRead s addrStatus).getLsbD 0 then s else s')
  | .busRd b n => if wrapperAccepts b n then .next (recordRead s' (wrapperAddr b) none) else .refused .wrapperAccess
  | .busWr b n v => if wrapperAccepts b n then .next (portWrite s' (wrapperAddr b) v) else .refused .wrapperAccess

/-- One input from outside. -/
def inputStep (i : Input) (rest : List Input) (s : State) : Host.Outcome State Fault Refusal :=
  match i with
  | .op o => hostStep o rest s
  | .reset => .next (resetEvent { s with inputs := rest })

/-- What moves next. -/
inductive Turn where
  /-- The engine ends the command in execution, whose word is `w`. -/
  | engine (w : Word)
  /-- The outside world does `i`; `rest` follows. -/
  | input (i : Input) (rest : List Input)
  /-- Nothing: the block is idle and nothing waits outside. -/
  | idle
  deriving DecidableEq, Repr

/-- The block is idle: the next input. A command is in execution: the schedule says whether the host gets an access
in first; where it says nothing, or no input waits, the engine ends the command (70_reset_and_hazards.md R258). -/
def turn (s : State) : Turn :=
  match s.running, s.inputs, s.sched with
  | none, [], _ => .idle
  | none, i :: rest, _ => .input i rest
  | some _, i :: rest, .host :: _ => .input i rest
  | some w, _, _ => .engine w

/-- What every step but an idle one does first: a fresh draw number, and one entry of the schedule used while a
command is in execution. -/
def takeTurn (s : State) : State :=
  { s with draw := s.draw + 1, sched := if s.busy then s.sched.tail else s.sched }

/-- An illegal command word (60_exceptions.md R218): IllegalCommand with ERRINFO = the word, nothing to empty. -/
def illegalCommand (w : Word) (s : State) : State := raiseError .nothing .illegalCommand w s

/-- The host's program placed before the block: the inputs it will perform. -/
def State.load (s : State) (ops : List HostOp) : State := { s with inputs := ops.map Input.op }

end Sys2Proof.Machine
end

