-- ==== Sys2Proof/Machine/Engine.lean ====
section
/-! DEFINITION. The engine's turn: the command in execution is read and runs to its end (30_encoding.md R92
steps 3 to 5). -/

namespace Sys2Proof.Machine

/-- Steps 3 to 5 of 30_encoding.md R92 for the command word `w`. -/
def engineStep (w : Word) (s : State) : Host.Outcome State Fault Refusal :=
  match decode w with
  | .command i => exec i s
  | .illegal _ => .next (illegalCommand w s)

end Sys2Proof.Machine
end

