-- ==== Sys2Proof/Machine/Step.lean ====
section
/-! DEFINITION. One step: the engine ends the command in execution, or the outside world performs one input, or
the idle block stays as it is. -/

namespace Sys2Proof.Machine

/-- One step of the machine. -/
def step (s : State) : Host.Outcome State Fault Refusal :=
  match turn s with
  | .engine w => engineStep w (takeTurn s)
  | .input i rest => inputStep i rest (takeTurn s)
  | .idle => .next s

/-- `s` just after the host has issued the word of an opcode-table row by a write of CMD that passed the gate, the
engine's turn next: HUFB fetches nothing, its commands arrive so (10_state.md R30). -/
def State.withFetchWord (s : State) (nbits w : Nat) : State :=
  { s with running := some (tableWord nbits w), sched := .engine :: s.sched }

end Sys2Proof.Machine
end

