-- ==== Sys2Proof/WellFormed.lean ====
section
/-! DEFINITION. What is well formed: instructions, host programs (30_encoding.md R99), the operand of
SETCODE (R100) and the parameters (00_scope.md R9). -/

namespace Sys2Proof

/-- A command has no operand (30_encoding.md R95), so each constructor is well formed as it stands. -/
def Instr.wellFormed : Instr → Bool
  | .nop => true
  | .count => true
  | .build => true
  | .derive => true
  | .encode => true
  | .decode => true
  | .decodec => true
  | .mktable => true
  | .clrf => true
  | .srst => true

/-- The ranges of the open parameters (00_scope.md R9). -/
def Params.wellFormed (p : Params) : Bool :=
  decide (1 ≤ p.symCap) && decide (p.symCap ≤ 65536) &&
    decide (256 ≤ p.bitCap) && decide (p.bitCap ≤ 2097152) && p.bitCap % 32 == 0

namespace Machine

/-- The busy protocol of a host program, from a point where `owed` says whether a `WAIT` is still owed
for a `CMD`: until then only `RD 0x00001` may stand (30_encoding.md R99). DESIGN CHOICE (log entry 17): only the operation
`CMD` owes a `WAIT`; a `WR 0x00000`, or a wrapper's write of byte address 0, owes none. Until the `WAIT` an EXPECT of
0x00001 counts as such a read, and a wrapper's read of it does not. -/
def waitsKept : Bool → List HostOp → Bool
  | owed, [] => !owed
  | _, .wait :: ops => waitsKept false ops
  | true, .rd a :: ops => a == 0x00001#18 && waitsKept true ops
  | true, .expect a _ :: ops => a == 0x00001#18 && waitsKept true ops
  | true, _ :: _ => false
  | false, .cmd _ :: ops => waitsKept true ops
  | false, _ :: ops => waitsKept false ops

/-- "A well-formed host program performs `WAIT` after every `CMD` before any operation other than
`RD 0x00001`" (30_encoding.md R99). An EXPECT of that address is such a read. -/
def programWellFormed (ops : List HostOp) : Bool := waitsKept false ops

/-- The code a `SETCODE` may write: 1 ≤ L ≤ 255 (30_encoding.md R100). -/
def codeWellFormed (p : BitString) : Bool := decide (1 ≤ p.length) && decide (p.length ≤ Config.maxLen)

end Machine

end Sys2Proof
end

