-- ==== Sys2Proof/Safety.lean ====
section
/-! DEFINITION. What counts as a safe state and a safe run, in the terms claims use: the invariants of the state
(10_state.md R27 to R29, R42), what a command needs to have been written (70_reset_and_hazards.md R246), the
busy protocol (R250), and which command can end with which error (60_exceptions.md R211). -/

namespace Sys2Proof.Machine

/-- The indices of a node's children: none of a leaf, LEFT then RIGHT of an internal node (10_state.md R36). -/
def Node.children : Node → List Nat
  | .leaf _ _ => []
  | .internal l r _ => [l.toNat, r.toNat]

/-- The tree invariant of 10_state.md R42 for a tree of `n` leaves; each field is one of its points. -/
structure IsTree (n : Nat) (ns : List Node) : Prop where
  /-- 1 ≤ n ≤ 256. -/
  leaves : 1 ≤ n ∧ n ≤ Config.nSym
  /-- NNODES = 2n − 1. -/
  size : ns.length = 2 * n - 1
  /-- (a) NODE[0..n−1] are leaves. -/
  leavesFirst : ∀ k < n, (nodeAt ns k).kind = false
  /-- (a) Their SYM fields are strictly ascending. -/
  ascending : ∀ k < n, ∀ j < k, (nodeAt ns j).sym.toNat < (nodeAt ns k).sym.toNat
  /-- (b) NODE[n..2n−2] are internal. -/
  internals : ∀ k < ns.length, n ≤ k → (nodeAt ns k).kind = true
  /-- (c) LEFT < k, RIGHT < k and LEFT ≠ RIGHT. -/
  childrenBelow : ∀ k < ns.length, n ≤ k →
    (nodeAt ns k).left.toNat < k ∧ (nodeAt ns k).right.toNat < k ∧ (nodeAt ns k).left ≠ (nodeAt ns k).right
  /-- (d) Every index 0..2n−3 is a child of exactly one internal node, and the root of none. -/
  oneParent : ∀ k < ns.length, (ns.flatMap Node.children).count k = if k = ns.length - 1 then 0 else 1
  /-- (e) An internal node's WEIGHT is the exact sum of its children's. -/
  sums : ∀ k < ns.length, n ≤ k →
    (nodeAt ns k).weight.toNat =
      (nodeAt ns (nodeAt ns k).left.toNat).weight.toNat + (nodeAt ns (nodeAt ns k).right.toNat).weight.toNat
  /-- (e) A leaf's WEIGHT is between 1 and 2^32 − 1. -/
  leafWeights : ∀ k < n, 1 ≤ (nodeAt ns k).weight.toNat ∧ (nodeAt ns k).weight.toNat < 2 ^ 32
  /-- (f) Internal nodes' weights are non-decreasing. -/
  rising : ∀ k < ns.length, ∀ j < k, n ≤ j → (nodeAt ns j).weight.toNat ≤ (nodeAt ns k).weight.toNat

/-- The tree invariant (10_state.md R42): no tree, or a tree of some number of leaves. -/
def TreeInvariant (ns : List Node) : Prop := ns = [] ∨ ∃ n, IsTree n ns

/-- STATUS is legal (10_state.md R27, R29, R31): FAULT and ERR stand together, ERR is 0 to 6, and ERRINFO is 0
when no error is recorded. -/
abbrev State.statusOk (s : State) : Prop :=
  (s.fault = true ↔ s.err ≠ 0) ∧ s.err.toNat ≤ 6 ∧ (s.fault = false → s.errinfo = 0)

/-- The fault gate holds (60_exceptions.md R224): while FAULT is 1 only CLRF or SRST is in execution. -/
abbrev State.gateOk (s : State) : Prop := s.fault = true → s.running.all passesGate = true

/-- The capacities are in their ranges (00_scope.md R9). -/
abbrev State.paramsOk (s : State) : Prop :=
  Params.wellFormed { symCap := s.symcap.toNat, bitCap := s.bitcap.toNat } = true

/-- The memories are in canonical form and inside their sizes (10_state.md R38, R40, R41). -/
abbrev State.memoriesOk (s : State) : Prop :=
  Memory.wf 2048 s.codebits ∧ Memory.wf s.symcap.toNat s.symbuf ∧ Memory.wf (s.bitcap.toNat / 32) s.bitbuf

/-- The invariant of the whole state. -/
def State.Inv (s : State) : Prop :=
  s.paramsOk ∧ s.memoriesOk ∧ s.statusOk ∧ s.gateOk ∧ TreeInvariant s.node

/-- Every SYMBUF entry below SYM_LEN is written (70_reset_and_hazards.md R246). -/
abbrev State.symbolsWritten (s : State) : Prop := ∀ i < s.symLen.toNat, (s.symbuf.read i).isSome = true

/-- Every BITBUF word that holds a position below BIT_LEN is written (70_reset_and_hazards.md R246). -/
abbrev State.bitsWritten (s : State) : Prop := ∀ t < s.bitLen.toNat, (s.bitbuf.read (t / 32)).isSome = true

/-- Every CODEBITS word that holds a position below its entry's CODELEN is written (70_reset_and_hazards.md R246). -/
abbrev State.codesWritten (s : State) : Prop :=
  ∀ c : Sym, ∀ j < (s.codelenAt c).toNat, (s.codebits.read (8 * c.toNat + j / 32)).isSome = true

/-- What a command reads is written (70_reset_and_hazards.md R245, R246). -/
def State.inputsWritten (s : State) : Instr → Prop
  | .nop => True
  | .count => s.symbolsWritten
  | .build => True
  | .derive => True
  | .encode => s.symbolsWritten ∧ s.codesWritten
  | .decode => s.bitsWritten
  | .decodec => s.bitsWritten ∧ s.codesWritten
  | .mktable => s.symbolsWritten
  | .clrf => True
  | .srst => True

/-- The inputs a step does not refuse: all but a wrapper access that the port does not have (20_memory.md R65). -/
def Input.accepted : Input → Bool
  | .op (.busRd b n) => wrapperAccepts b n
  | .op (.busWr b n _) => wrapperAccepts b n
  | .op (.wr _ _) => true
  | .op (.rd _) => true
  | .op (.cmd _) => true
  | .op .wait => true
  | .op (.expect _ _) => true
  | .reset => true

/-- The operations the busy protocol allows while BUSY is 1: reads of STATUS (70_reset_and_hazards.md R250). -/
def HostOp.readsStatus : HostOp → Bool
  | .rd a => a == addrStatus
  | .expect a _ => a == addrStatus
  | .wait => true
  | .busRd b n => wrapperAccepts b n && wrapperAddr b == addrStatus
  | .wr _ _ => false
  | .cmd _ => false
  | .busWr _ _ _ => false

/-- The operations that are a host write (30_encoding.md R99): WR, CMD, and a wrapper's write. -/
def HostOp.isWrite : HostOp → Bool
  | .wr _ _ => true
  | .cmd _ => true
  | .busWr _ _ _ => true
  | .rd _ => false
  | .expect _ _ => false
  | .wait => false
  | .busRd _ _ => false

/-- `o` is a host read of word address `a`, in one of its forms: RD, EXPECT (30_encoding.md R99), or a 32-bit read
through a wrapper at byte address 4 × a (20_memory.md R62). `claim` is the value an EXPECT claims. -/
def HostOp.isReadOf (o : HostOp) (a : Addr) (claim : Option Word) : Prop :=
  (o = .rd a ∧ claim = none) ∨ (∃ v, o = .expect a v ∧ claim = some v) ∨ (o = .busRd (4 * a.toNat) 4 ∧ claim = none)

/-- `o` is a host write of `v` to word address `a`, in one of its forms: WR, CMD (30_encoding.md R99), or a 32-bit
write through a wrapper at byte address 4 × a (20_memory.md R62). -/
def HostOp.isWriteOf (o : HostOp) (a : Addr) (v : Word) : Prop :=
  o = .wr a v ∨ (∃ i, o = .cmd i ∧ a = 0x00000#18 ∧ v = encode i) ∨ o = .busWr (4 * a.toNat) 4 v

/-- A wrapper access that the port does not have: not 32 bits, misaligned, or beyond the 2^18 words (20_memory.md R60,
R65). -/
abbrev noWordAccess (byteAddr nBytes : Nat) : Prop := nBytes ≠ 4 ∨ byteAddr % 4 ≠ 0 ∨ 2 ^ 18 ≤ byteAddr / 4

/-- An input that can change a register or memory by itself: a host write, or the reset input. -/
def Input.changesState : Input → Bool
  | .op o => o.isWrite
  | .reset => true

/-- A step that keeps what 70_reset_and_hazards.md R256 asks of the host: nothing but a read of STATUS while BUSY is
1, no access the port does not have, and a command's inputs written. -/
def SafeStep (s : State) : Prop :=
  match turn s with
  | .engine w =>
    match decode w with
    | .command i => s.inputsWritten i
    | .illegal _ => True
  | .input (.op o) _ => (s.busy = true → o.readsStatus = true) ∧ (Input.op o).accepted = true
  | .input .reset _ => True
  | .idle => True

/-- A command's output (60_exceptions.md R221). -/
def outputOf : Instr → Output
  | .nop => .nothing
  | .count => .frequencies
  | .build => .tree
  | .derive => .codeTable
  | .encode => .bitstream
  | .decode => .symbols
  | .decodec => .symbols
  | .mktable => .allTables
  | .clrf => .nothing
  | .srst => .nothing

/-- The errors each command can end with, in the order it looks for them (60_exceptions.md R211, R223). -/
def errorsOf : Instr → List Err
  | .nop => []
  | .count => [.capacity]
  | .build => [.invalidInput]
  | .derive => []
  | .encode => [.capacity, .unknownSymbol]
  | .decode => [.capacity, .invalidCode, .truncatedStream]
  | .decodec => [.capacity, .invalidCode, .truncatedStream]
  | .mktable => [.capacity]
  | .clrf => []
  | .srst => []

/-- The node reached from node `k` by the steps of a bit-string: bit 0 to LEFT, bit 1 to RIGHT (42_derive.md R142).
There is no step from a leaf. -/
def follow (ns : List Node) : Nat → BitString → Option Nat
  | k, [] => some k
  | k, b :: p =>
    match nodeAt ns k with
    | .leaf _ _ => none
    | .internal l r _ => follow ns (if b then r else l).toNat p

/-- The root, NODE[NNODES−1] (10_state.md R23). -/
def rootOf (ns : List Node) : Nat := ns.length - 1

/-- The members of PQ when node `k` is about to be created: the earlier nodes that are no child of an earlier node
(41_build.md R121, R123). -/
def candidates (ns : List Node) (k : Nat) : List Nat :=
  (List.range k).filter fun j => !((ns.take k).flatMap Node.children).contains j

/-- Node `i` is extracted before node `j`: smaller WEIGHT, or equal WEIGHT and smaller index (41_build.md R124). -/
abbrev extractedBefore (ns : List Node) (i j : Nat) : Prop :=
  (nodeAt ns i).weight.toNat < (nodeAt ns j).weight.toNat ∨
    ((nodeAt ns i).weight = (nodeAt ns j).weight ∧ i < j)

/-- No code of the table is a prefix of another symbol's code (46_properties.md R197). -/
def State.prefixFree (s : State) : Prop :=
  ∀ c d : Sym, c ≠ d → s.codelenAt c ≠ 0 → s.codelenAt d ≠ 0 → ¬ (s.codeOf 0 c <+: s.codeOf 0 d)

/-- DECODEC takes the code of `c` when it meets it: no entry's code is a shorter prefix of it, and no smaller symbol has
the same code (44_decode.md R174). In a prefix-free table it takes every entry's. -/
def State.taken (s : State) (c : Sym) : Prop :=
  s.codelenAt c ≠ 0 ∧ (∀ d : Sym, d.toNat < c.toNat → s.codeOf 0 d ≠ s.codeOf 0 c) ∧
    ∀ d, s.codelenAt d ≠ 0 → s.codeOf 0 d <+: s.codeOf 0 c → s.codeOf 0 d = s.codeOf 0 c

/-- After the bits `q` DECODEC is inside a code: they are a proper prefix of some code, and no entry's code is a prefix
of them (44_decode.md R172, R174). -/
def State.insideCode (s : State) (q : BitString) : Prop :=
  (∃ c, q <+: s.codeOf 0 c ∧ q ≠ s.codeOf 0 c) ∧ ∀ d, s.codelenAt d ≠ 0 → ¬ (s.codeOf 0 d <+: q)

/-- The code table is the one DERIVE makes of the tree now in NODE (44_decode.md R178). -/
def State.tableOfTree (s : State) : Prop :=
  s.codelen = (deriveBody s).codelen ∧ s.codebits = (deriveBody s).codebits

/-- Number of symbols with a count, the distinct count `n` (00_scope.md section 7). -/
def distinctCount (s : State) : Nat := (allSymbols.filter fun c => s.freqAt c != 0).length

end Sys2Proof.Machine
end

