-- ==== Sys2Proof/Certificates/Slice0/Obligations.lean ====
section
/-! DEFINITION. The statements for the provers, in the order of the spec's files: encoding and issue, the host port,
the ten commands, properties of the commands together, errors, and the invariants of every step. -/

open Sys2Proof Sys2Proof.Machine

/-! ## Encoding and issue -/

/-- 30_encoding.md R93, R94: the ten words, and three illegal ones. -/
def Obligations.TenWordsAndThreeIllegalOnes : Prop :=
  decode 0x00000000#32 = .command .nop ∧ decode 0x00000001#32 = .command .count ∧
  decode 0x00000002#32 = .command .build ∧ decode 0x00000003#32 = .command .derive ∧
  decode 0x00000004#32 = .command .encode ∧ decode 0x00000005#32 = .command .decode ∧
  decode 0x00000006#32 = .command .decodec ∧ decode 0x00000007#32 = .command .mktable ∧
  decode 0x00000008#32 = .command .clrf ∧ decode 0x00000009#32 = .command .srst ∧
  decode 0x0000000A#32 = .illegal .reservedOpcode ∧ decode 0x00000101#32 = .illegal .zeroField ∧
  decode 0xFFFFFFFF#32 = .illegal .zeroField

/-- 30_encoding.md R96: every word is exactly one of the ten commands, or illegal; and decode of encode is the
command itself. -/
def Obligations.DecodeAndEncodeAgree : Prop :=
  (∀ i : Instr, i.wellFormed = true → decode (encode i) = .command i) ∧
  (∀ (w : Word) (i : Instr), decode w = .command i → w = encode i) ∧
  (∀ w : Word, (∃ i, decode w = .command i) ↔ w.toNat ≤ 9) ∧
  (∀ w : Word, decode w = .illegal .reservedOpcode ↔ 9 < w.toNat ∧ w.toNat < 256) ∧
  (∀ w : Word, decode w = .illegal .zeroField ↔ 256 ≤ w.toNat)

/-- 30_encoding.md R92 steps 3 to 5: the engine's turn runs the command whose word is in execution. Around it the
model's step takes a fresh draw number and uses one entry of the schedule (log entries 2, 5). -/
def Obligations.StepRunsTheDecodedCommand : Prop :=
  (∀ (s : State) (w : Word) (i : Instr), turn s = .engine w → decode w = .command i → i.wellFormed = true →
    step s = exec i { s with draw := s.draw + 1, sched := s.sched.tail }) ∧
  (∀ (s : State) (nbits w : Nat), turn (s.withFetchWord nbits w) = .engine (tableWord nbits w)) ∧
  (∀ (s : State) (w : Word), turn s = .engine w ↔
    s.running = some w ∧ (s.inputs = [] ∨ s.sched.head? ≠ some .host))

/-- 30_encoding.md R94, 60_exceptions.md R218: an illegal word ends with IllegalCommand, ERRINFO = the word, and
nothing else changes (but the model's own draw number and schedule). -/
def Obligations.IllegalWordEndsWithIllegalCommand : Prop :=
  ∀ (s : State) (w : Word), turn s = .engine w → 9 < w.toNat →
    step s = .next { s with running := none, fault := true, err := 6, errinfo := w,
                            draw := s.draw + 1, sched := s.sched.tail }

/-- 30_encoding.md R92 steps 1 and 2, 60_exceptions.md R224: a write of CMD to the idle block issues the command, or is
dropped by the fault gate. -/
def Obligations.CmdWriteIssuesOrIsGated : Prop :=
  (∀ (s : State) (w : Word) (rest : List Input), s.running = none → s.inputs = .op (.wr addrCmd w) :: rest →
    step s = .next { s with
      inputs := rest, draw := s.draw + 1,
      running := if s.fault = true ∧ w ≠ 0x00000008#32 ∧ w ≠ 0x00000009#32 then none else some w }) ∧
  (∀ (s : State) (i : Instr) (rest : List Input), s.running = none → s.inputs = .op (.cmd i) :: rest →
    step s = .next { s with
      inputs := rest, draw := s.draw + 1,
      running := if s.fault = true ∧ i ≠ .clrf ∧ i ≠ .srst then none else some (encode i) })

/-- 70_reset_and_hazards.md R250: while BUSY is 1 a host write to any address is dropped and sets OVR. -/
def Obligations.BusyWriteIsDroppedAndSetsOvr : Prop :=
  ∀ (s : State) (o : HostOp) (rest : List Input), s.busy = true → turn s = .input (.op o) rest →
    (Input.op o).accepted = true →
    ((∃ a v, o = .wr a v) ∨ (∃ i, o = .cmd i) ∨ (∃ b n v, o = .busWr b n v)) →
    step s = .next { s with ovr := true, inputs := rest, draw := s.draw + 1, sched := s.sched.tail }

/-- 70_reset_and_hazards.md R250: while BUSY is 1 a host read, in any of its three forms, changes nothing but the host's
record, and of STATUS it is exact, with BUSY = 1; a WAIT waits on. -/
def Obligations.BusyReadsChangeNothing : Prop :=
  ∀ (s : State) (rest : List Input), s.busy = true →
    (∀ (o : HostOp) (a : Addr) (claim : Option Word), o.isReadOf a claim → turn s = .input (.op o) rest →
      ∃ v : Word, step s = .next { s with inputs := rest, draw := s.draw + 1, sched := s.sched.tail,
                                          log := ⟨a, v, claim⟩ :: s.log } ∧
        (a = 0x00001#18 →
          v.getLsbD 0 = true ∧ v.getLsbD 1 = s.fault ∧ v.getLsbD 2 = s.ovr ∧ v.extractLsb' 4 4 = s.err)) ∧
    (turn s = .input (.op .wait) rest →
      step s = .next { s with draw := s.draw + 1, sched := s.sched.tail })

/-- 70_reset_and_hazards.md R258, 46_properties.md R206: a command in execution ends after finitely many steps,
whatever the host does meanwhile and however long the model's schedule lets it (log entry 5). -/
def Obligations.WaitEnds : Prop :=
  ∀ s : State, (∀ i ∈ s.inputs, i.accepted = true) →
    ∃ k, k ≤ s.sched.length + 1 ∧ ∃ t, Host.Core.run Sys2Proof.core k s = .next t ∧ t.busy = false

/-! ## The host port -/

/-- 20_memory.md R66: the address map, row by row, for capacities in their ranges. -/
def Obligations.AddressMapIsTheTable : Prop :=
  ∀ s : State, s.paramsOk →
    s.locOf 0x00000#18 = .cmd ∧ s.locOf 0x00001#18 = .status ∧ s.locOf 0x00002#18 = .errinfo ∧
    s.locOf 0x00003#18 = .symLen ∧ s.locOf 0x00004#18 = .bitLen ∧ s.locOf 0x00005#18 = .nnodes ∧
    s.locOf 0x00006#18 = .symcap ∧ s.locOf 0x00007#18 = .bitcap ∧
    (∀ a : Addr, 0x00008 ≤ a.toNat → a.toNat ≤ 0x000FF → s.locOf a = .unmapped) ∧
    (∀ c : Sym, s.locOf (BitVec.ofNat 18 (0x00100 + c.toNat)) = .freq c) ∧
    (∀ c : Sym, s.locOf (BitVec.ofNat 18 (0x00200 + c.toNat)) = .codelen c) ∧
    (∀ a : Addr, 0x00300 ≤ a.toNat → a.toNat ≤ 0x007FF → s.locOf a = .unmapped) ∧
    (∀ (c : Sym) (w : Nat), w < 8 →
      s.locOf (BitVec.ofNat 18 (0x00800 + 8 * c.toNat + w)) = .codebits (8 * c.toNat + w)) ∧
    (∀ k j : Nat, k < 512 → j < 4 → s.locOf (BitVec.ofNat 18 (0x01000 + 4 * k + j)) = .node k j) ∧
    (∀ a : Addr, 0x01800 ≤ a.toNat → a.toNat ≤ 0x0FFFF → s.locOf a = .unmapped) ∧
    (∀ i : Nat, i < s.symcap.toNat → s.locOf (BitVec.ofNat 18 (0x10000 + i)) = .symbuf i) ∧
    (∀ i : Nat, s.symcap.toNat ≤ i → i ≤ 0xFFFF → s.locOf (BitVec.ofNat 18 (0x10000 + i)) = .unmapped) ∧
    (∀ q : Nat, q < s.bitcap.toNat / 32 → s.locOf (BitVec.ofNat 18 (0x20000 + q)) = .bitbuf q) ∧
    (∀ q : Nat, s.bitcap.toNat / 32 ≤ q → q ≤ 0xFFFF → s.locOf (BitVec.ofNat 18 (0x20000 + q)) = .unmapped) ∧
    (∀ a : Addr, 0x30000 ≤ a.toNat → s.locOf a = .unmapped)

/-- 10_state.md R27, R32: the layout of STATUS as the host reads it, busy or not. -/
def Obligations.StatusReadsItsFields : Prop :=
  ∀ s : State, (portRead s addrStatus).getLsbD 0 = s.running.isSome ∧ (portRead s addrStatus).getLsbD 1 = s.fault ∧
    (portRead s addrStatus).getLsbD 2 = s.ovr ∧ (portRead s addrStatus).getLsbD 3 = false ∧
    (portRead s addrStatus).extractLsb' 4 4 = s.err ∧ (portRead s addrStatus).extractLsb' 8 24 = 0

/-- 20_memory.md R63, R65, R67, R72, 10_state.md R21 to R24, R31, R35, R37: a host read of the idle block, in any of its
three forms, is a step that puts the value on the host's record and changes no state; a wrapper access that the
port does not have is refused; and what each location reads. (STATUS and NODE have statements of their own.) -/
def Obligations.HostReadChangesNoState : Prop :=
  (∀ (s : State) (o : HostOp) (a : Addr) (claim : Option Word) (rest : List Input), s.running = none →
    o.isReadOf a claim → s.inputs = .op o :: rest →
    ∃ x, step s = .next { s with inputs := rest, draw := s.draw + 1, log := ⟨a, x, claim⟩ :: s.log } ∧
      x = portRead { s with inputs := rest, draw := s.draw + 1 } a) ∧
  (∀ (s : State) (b n : Nat) (rest : List Input), noWordAccess b n → turn s = .input (.op (.busRd b n)) rest →
    step s = .refused .wrapperAccess) ∧
  (∀ s : State, s.busy = false →
    portRead s 0x00000#18 = 0 ∧ portRead s 0x00002#18 = s.errinfo ∧
    portRead s 0x00003#18 = s.symLen ∧ portRead s 0x00004#18 = s.bitLen ∧
    (portRead s 0x00005#18).toNat = s.node.length % 512 ∧
    portRead s 0x00006#18 = s.symcap ∧ portRead s 0x00007#18 = s.bitcap ∧
    (∀ c : Sym, portRead s (BitVec.ofNat 18 (0x00100 + c.toNat)) = s.freq[c.toNat]'(c.isLt)) ∧
    (∀ c : Sym, portRead s (BitVec.ofNat 18 (0x00200 + c.toNat)) = (s.codelen[c.toNat]'(c.isLt)).setWidth 32) ∧
    (∀ (c : Sym) (w : Nat) (x : Word), w < 8 → s.codebits.read (8 * c.toNat + w) = some x →
      portRead s (BitVec.ofNat 18 (0x00800 + 8 * c.toNat + w)) = x) ∧
    (∀ (i : Nat) (x : Sym), i < s.symcap.toNat → i ≤ 0xFFFF → s.symbuf.read i = some x →
      portRead s (BitVec.ofNat 18 (0x10000 + i)) = x.setWidth 32) ∧
    (∀ (q : Nat) (x : Word), q < s.bitcap.toNat / 32 → q ≤ 0xFFFF → s.bitbuf.read q = some x →
      portRead s (BitVec.ofNat 18 (0x20000 + q)) = x) ∧
    (∀ a : Addr, s.locOf a = .unmapped → portRead s a = 0))

/-- 20_memory.md R64 to R67, R69 to R71, 10_state.md R32. A host write to the idle block, in any of its three forms, is a
step that performs the port's write; a wrapper access that the port does not have is refused. Which field each
writable location is, and that nothing else changes. What is written reads back, cut to the bits the location has;
a read-only location and an unmapped address read as before; CMD, whose write issues a command, reads 0. -/
def Obligations.WrittenLocationReadsBack : Prop :=
  (∀ (s : State) (o : HostOp) (a : Addr) (v : Word) (rest : List Input), s.running = none →
    o.isWriteOf a v → s.inputs = .op o :: rest →
    step s = .next (portWrite { s with inputs := rest, draw := s.draw + 1 } a v)) ∧
  (∀ (s : State) (b n : Nat) (v : Word) (rest : List Input), noWordAccess b n →
    turn s = .input (.op (.busWr b n v)) rest → step s = .refused .wrapperAccess) ∧
  (∀ (s : State) (v : Word), s.busy = false →
    portWrite s 0x00003#18 v = { s with symLen := v } ∧ portWrite s 0x00004#18 v = { s with bitLen := v } ∧
    (∀ c : Sym, portWrite s (BitVec.ofNat 18 (0x00100 + c.toNat)) v =
      { s with freq := s.freq.set c.toNat v c.isLt }) ∧
    (∀ c : Sym, portWrite s (BitVec.ofNat 18 (0x00200 + c.toNat)) v =
      { s with codelen := s.codelen.set c.toNat (v.setWidth 8) c.isLt }) ∧
    (∀ (c : Sym) (w : Nat), w < 8 →
      ∃ m, portWrite s (BitVec.ofNat 18 (0x00800 + 8 * c.toNat + w)) v = { s with codebits := m } ∧
        m.read (8 * c.toNat + w) = some v ∧ ∀ k, k ≠ 8 * c.toNat + w → m.read k = s.codebits.read k) ∧
    (∀ i : Nat, i < s.symcap.toNat → i ≤ 0xFFFF →
      ∃ m, portWrite s (BitVec.ofNat 18 (0x10000 + i)) v = { s with symbuf := m } ∧
        m.read i = some (v.setWidth 8) ∧ ∀ k, k ≠ i → m.read k = s.symbuf.read k) ∧
    (∀ q : Nat, q < s.bitcap.toNat / 32 → q ≤ 0xFFFF →
      ∃ m, portWrite s (BitVec.ofNat 18 (0x20000 + q)) v = { s with bitbuf := m } ∧
        m.read q = some v ∧ ∀ k, k ≠ q → m.read k = s.bitbuf.read k)) ∧
  (∀ s : State, s.busy = false → portRead s addrCmd = 0) ∧
  ∀ (s : State) (a : Addr) (v : Word), s.busy = false → a ≠ addrCmd →
    portRead (portWrite s a v) a =
      match s.locOf a with
      | .symLen => v
      | .bitLen => v
      | .freq _ => v
      | .codebits _ => v
      | .bitbuf _ => v
      | .codelen _ => (v.setWidth 8).setWidth 32
      | .symbuf _ => (v.setWidth 8).setWidth 32
      | .cmd => 0
      | .status => portRead s a
      | .errinfo => portRead s a
      | .nnodes => portRead s a
      | .symcap => portRead s a
      | .bitcap => portRead s a
      | .node _ _ => portRead s a
      | .unmapped => 0

/-- 20_memory.md R64: a write to any address but CMD changes what no other address reads. -/
def Obligations.WriteLeavesEveryOtherAddress : Prop :=
  ∀ (s : State) (a b : Addr) (v : Word), s.busy = false → a ≠ addrCmd → a ≠ b →
    portRead (portWrite s a v) b = portRead s b

/-- 20_memory.md R64, R72: a write to a read-only location or an unmapped address of the idle block is ignored. -/
def Obligations.ReadOnlyAndUnmappedWritesAreIgnored : Prop :=
  ∀ (s : State) (a : Addr) (v : Word) (rest : List Input), s.running = none → s.inputs = .op (.wr a v) :: rest →
    (s.locOf a = .status ∨ s.locOf a = .errinfo ∨ s.locOf a = .nnodes ∨ s.locOf a = .symcap ∨ s.locOf a = .bitcap ∨
      (∃ k j, s.locOf a = .node k j) ∨ s.locOf a = .unmapped) →
    step s = .next { s with inputs := rest, draw := s.draw + 1 }

/-- 20_memory.md R68: the words of NODE[k]; 0 for k ≥ NNODES. -/
def Obligations.NodeWindowReadsTheNode : Prop :=
  ∀ (s : State) (k : Nat), s.busy = false → k < 512 →
    (k < s.node.length →
      (portRead s (addrNode k 0)).getLsbD 31 = (nodeAt s.node k).kind ∧
      (portRead s (addrNode k 0)).extractLsb' 27 4 = 0 ∧
      (portRead s (addrNode k 0)).extractLsb' 18 9 = (nodeAt s.node k).left ∧
      (portRead s (addrNode k 0)).extractLsb' 9 9 = (nodeAt s.node k).right ∧
      (portRead s (addrNode k 0)).getLsbD 8 = false ∧
      (portRead s (addrNode k 0)).extractLsb' 0 8 = (nodeAt s.node k).sym ∧
      (portRead s (addrNode k 1)).toNat + 2 ^ 32 * (portRead s (addrNode k 2)).toNat =
        (nodeAt s.node k).weight.toNat ∧
      portRead s (addrNode k 3) = 0) ∧
    (s.node.length ≤ k → ∀ j < 4, portRead s (addrNode k j) = 0)

/-- 20_memory.md R70: the engine's BIT(t) is bit 31 − (t mod 32) of the word the host sees at 0x20000 + t div 32. -/
def Obligations.BitbufIsPackedFirstBitHighest : Prop :=
  ∀ (s : State) (t : Nat), s.busy = false → s.paramsOk → t < s.bitcap.toNat →
    s.bitAt t = (portRead s (BitVec.ofNat 18 (0x20000 + t / 32))).getLsbD (31 - t % 32)

/-- 20_memory.md R71: position j of CODEBITS[c], where it has been written, is bit 31 − (j mod 32) of the word the host
sees at 0x00800 + 8c + j div 32, at whatever time the engine reads it. -/
def Obligations.CodebitsIsPackedFirstBitHighest : Prop :=
  ∀ (s : State) (c : Sym) (time j : Nat), s.busy = false → j < 256 →
    (s.codebits.read (8 * c.toNat + j / 32)).isSome = true →
    s.codeBit time c j = (portRead s (BitVec.ofNat 18 (0x00800 + 8 * c.toNat + j / 32))).getLsbD (31 - j % 32)

/-! ## COUNT -/

/-- 40_count.md R111, R114: FREQ[c] is the number of positions below SYM_LEN that hold c, the counts sum to SYM_LEN, and
nothing else changes. -/
def Obligations.CountTalliesTheSymbols : Prop :=
  ∀ s : State, s.symLen.toNat ≤ s.symcap.toNat →
    ∃ f : Vector Word 256, exec .count s = .next { s with running := none, freq := f } ∧
      (∀ c : Sym, (f[c.toNat]'(c.isLt)).toNat = s.symbols.count c) ∧
      (∀ c : Sym, f[c.toNat]'(c.isLt) ≠ 0 ↔ c ∈ s.symbols) ∧
      (allSymbols.map fun c => (f[c.toNat]'(c.isLt)).toNat).sum = s.symLen.toNat

/-- 60_exceptions.md R216 (a), R212, R221: a length register over its capacity ends the command with Capacity, ERRINFO
0xFFFFFFFF and its output emptied.
That an emptied or unspecified buffer lists nothing is the model's choice, log entry 3. -/
def Obligations.LengthOverCapacityEndsWithCapacity : Prop :=
  (∀ s : State, s.symLen.toNat > s.symcap.toNat →
    exec .count s = .next { s with running := none, fault := true, err := 5, errinfo := 0xFFFFFFFF#32,
                                   freq := Vector.replicate 256 0 } ∧
    exec .mktable s = .next { s with running := none, fault := true, err := 5, errinfo := 0xFFFFFFFF#32,
                                     freq := Vector.replicate 256 0, node := [],
                                     codelen := Vector.replicate 256 0, codebits := [] } ∧
    exec .encode s = .next { s with running := none, fault := true, err := 5, errinfo := 0xFFFFFFFF#32,
                                    bitLen := 0, bitbuf := [] }) ∧
  (∀ s : State, s.bitLen.toNat > s.bitcap.toNat →
    exec .decode s = .next { s with running := none, fault := true, err := 5, errinfo := 0xFFFFFFFF#32,
                                    symLen := 0, symbuf := [] } ∧
    exec .decodec s = .next { s with running := none, fault := true, err := 5, errinfo := 0xFFFFFFFF#32,
                                     symLen := 0, symbuf := [] })

/-! ## BUILD -/

/-- 41_build.md R122, R126, R130: BUILD on a table that is not empty makes a tree that meets the invariant of
10_state.md R42, with one leaf for each counted symbol in ascending order, the counts as weights, and their sum
as the root's; nothing else changes. -/
def Obligations.BuildMakesTheTree : Prop :=
  ∀ s : State, (∃ c, s.freqAt c ≠ 0) →
    ∃ ns : List Node, exec .build s = .next { s with running := none, node := ns } ∧
      IsTree (distinctCount s) ns ∧
      (∀ k < distinctCount s, ∃ c, (allSymbols.filter fun c => s.freqAt c != 0)[k]? = some c ∧
        ns[k]? = some (.leaf c ((s.freqAt c).setWidth 40))) ∧
      (nodeAt ns (rootOf ns)).weight.toNat = (allSymbols.map fun c => (s.freqAt c).toNat).sum

/-- 41_build.md R123, R124, R125: each internal node has as LEFT the smallest of the nodes then in PQ, by WEIGHT and
then by index, and as RIGHT the smallest of the rest. -/
def Obligations.BuildMergesTheTwoSmallest : Prop :=
  ∀ s t : State, (∃ c, s.freqAt c ≠ 0) → exec .build s = .next t →
    ∀ k < t.node.length, distinctCount s ≤ k →
      (nodeAt t.node k).left.toNat ∈ candidates t.node k ∧
      (nodeAt t.node k).right.toNat ∈ candidates t.node k ∧
      (nodeAt t.node k).left ≠ (nodeAt t.node k).right ∧
      (∀ j ∈ candidates t.node k, j ≠ (nodeAt t.node k).left.toNat →
        extractedBefore t.node (nodeAt t.node k).left.toNat j) ∧
      (∀ j ∈ candidates t.node k, j ≠ (nodeAt t.node k).left.toNat → j ≠ (nodeAt t.node k).right.toNat →
        extractedBefore t.node (nodeAt t.node k).right.toNat j)

/-- 41_build.md R129: exactly one symbol with a count gives a single leaf. -/
def Obligations.BuildOfOneSymbolIsOneLeaf : Prop :=
  ∀ (s : State) (c : Sym), s.freqAt c ≠ 0 → (∀ d, d ≠ c → s.freqAt d = 0) →
    exec .build s = .next { s with running := none, node := [.leaf c ((s.freqAt c).setWidth 40)] }

/-- 41_build.md R131: BUILD with every FREQ[c] = 0 ends with InvalidInput, ERRINFO = 0, NNODES = 0. -/
def Obligations.BuildOnEmptyTableFails : Prop :=
  ∀ s : State, (∀ c, s.freqAt c = 0) →
    exec .build s = .next { s with running := none, fault := true, err := 1, errinfo := 0, node := [] }

/-! ## DERIVE and MKTABLE -/

/-- 42_derive.md R142, R144: with a tree of two or more leaves the code of each leaf's symbol is the path from the root
to it, 1 to 255 bits; every other symbol has no entry; every position beyond a code is 0; nothing else changes. -/
def Obligations.DeriveRecordsThePaths : Prop :=
  ∀ (s : State) (n : Nat), IsTree n s.node → 2 ≤ n →
    ∃ t : State, exec .derive s = .next t ∧
      t = { s with running := none, codelen := t.codelen, codebits := t.codebits } ∧
      (∀ time, ∀ k < n, follow s.node (rootOf s.node) (t.codeOf time (nodeAt s.node k).sym) = some k) ∧
      (∀ k < n, 1 ≤ (t.codelenAt (nodeAt s.node k).sym).toNat) ∧
      (∀ c, (∀ k < n, (nodeAt s.node k).sym ≠ c) → t.codelenAt c = 0) ∧
      (∀ time c j, (t.codelenAt c).toNat ≤ j → j < 256 → t.codeBit time c j = false) ∧
      (∀ a < 2048, (t.codebits.read a).isSome = true)

/-- 42_derive.md R143, R145: the one-leaf tree gives its symbol the code "0"; no tree gives the empty table. -/
def Obligations.DeriveOfOneLeafAndOfNoTree : Prop :=
  (∀ (s : State) (c : Sym) (w : Weight), s.node = [.leaf c w] →
    ∃ t : State, exec .derive s = .next t ∧
      t = { s with running := none, codelen := t.codelen, codebits := t.codebits } ∧
      t.codelenAt c = 1 ∧ (∀ time, t.codeOf time c = [false]) ∧ (∀ d, d ≠ c → t.codelenAt d = 0) ∧
      (∀ a < 2048, t.codebits.read a = some 0)) ∧
  (∀ s : State, s.node = [] →
    ∃ t : State, exec .derive s = .next t ∧
      t = { s with running := none, codelen := t.codelen, codebits := t.codebits } ∧
      (∀ d, t.codelenAt d = 0) ∧ (∀ a < 2048, t.codebits.read a = some 0))

/-- 46_properties.md R197: after any DERIVE or MKTABLE that ended with success no code is a prefix of another symbol's. -/
def Obligations.DerivedCodesArePrefixFree : Prop :=
  (∀ s t : State, TreeInvariant s.node → exec .derive s = .next t → t.prefixFree) ∧
  (∀ s t : State, s.symLen.toNat ≤ s.symcap.toNat → exec .mktable s = .next t → t.prefixFree)

/-- 42_derive.md R147: with two or more leaves the code is complete. -/
def Obligations.DerivedCodeIsComplete : Prop :=
  ∀ (s t : State) (n : Nat), IsTree n s.node → 2 ≤ n → exec .derive s = .next t →
    ∀ p : BitString, p.length = Config.maxLen → ∃! c : Sym, t.codelenAt c ≠ 0 ∧ t.codeOf 0 c <+: p

/-- 42_derive.md R148: MKTABLE ends as COUNT, BUILD, DERIVE when there is input, and as COUNT, DERIVE from no tree when
there is none. -/
def Obligations.MktableIsCountBuildDerive : Prop :=
  (∀ s : State, 1 ≤ s.symLen.toNat → s.symLen.toNat ≤ s.symcap.toNat →
    ∃ a b t, exec .count s = .next a ∧ exec .build a = .next b ∧ exec .derive b = .next t ∧
      exec .mktable s = .next t ∧ t.fault = s.fault ∧ t.node ≠ []) ∧
  (∀ s : State, s.symLen = 0 →
    ∃ a t, exec .count { s with node := [] } = .next a ∧ exec .derive a = .next t ∧ exec .mktable s = .next t ∧
      t.fault = s.fault ∧ t.node = [] ∧ (∀ c, t.freqAt c = 0) ∧ (∀ c, t.codelenAt c = 0))

/-- 42_derive.md R148: what MKTABLE leaves: the tallies, a tree that meets the invariant of 10_state.md R42 with a leaf
for each symbol of the input, an entry for exactly the symbols of the input, and everything else unchanged. -/
def Obligations.MktableMakesAllThreeTables : Prop :=
  ∀ s : State, s.symLen.toNat ≤ s.symcap.toNat →
    ∃ t : State, exec .mktable s = .next t ∧
      t = { s with running := none, freq := t.freq, node := t.node, codelen := t.codelen, codebits := t.codebits } ∧
      (∀ c, (t.freqAt c).toNat = s.symbols.count c) ∧ TreeInvariant t.node ∧
      t.node.length = 2 * distinctCount t - 1 ∧ t.tableOfTree ∧
      (∀ c, t.codelenAt c ≠ 0 ↔ c ∈ s.symbols)

/-! ## ENCODE -/

/-- 43_encode.md R158, R159: ENCODE of an input whose symbols all have entries and whose codes fit writes the codes in
input order, zero-fills the last word, and leaves every later word and everything else. -/
def Obligations.EncodeConcatenatesTheCodes : Prop :=
  ∀ (s : State) (p : BitString), s.symLen.toNat ≤ s.symcap.toNat →
    (∀ i < s.symLen.toNat, s.codelenAt (s.symAt i) ≠ 0) →
    p = (List.range s.symLen.toNat).flatMap (fun i => s.codeOf i (s.symAt i)) → p.length ≤ s.bitcap.toNat →
    ∃ m : Memory 32, exec .encode s =
        .next { s with running := none, bitLen := BitVec.ofNat 32 p.length, bitbuf := m } ∧
      p.length = ((List.range s.symLen.toNat).map fun i => (s.codelenAt (s.symAt i)).toNat).sum ∧
      (∀ t < 32 * wordsFor p.length, ∃ w, m.read (t / 32) = some w ∧ wordBit w (t % 32) = p.getD t false) ∧
      (∀ q, wordsFor p.length ≤ q → m.read q = s.bitbuf.read q)

/-- 43_encode.md R157: the first symbol without an entry ends ENCODE with UnknownSymbol, ERRINFO its position.
That an emptied or unspecified buffer lists nothing is the model's choice, log entry 3. -/
def Obligations.EncodeStopsAtTheFirstUnknownSymbol : Prop :=
  ∀ (s : State) (i : Nat), s.symLen.toNat ≤ s.symcap.toNat → i < s.symLen.toNat →
    s.codelenAt (s.symAt i) = 0 → (∀ j < i, s.codelenAt (s.symAt j) ≠ 0) →
    ((List.range i).map fun j => (s.codelenAt (s.symAt j)).toNat).sum ≤ s.bitcap.toNat →
    exec .encode s = .next { s with running := none, fault := true, err := 2, errinfo := BitVec.ofNat 32 i,
                                    bitLen := 0, bitbuf := [] }

/-- 43_encode.md R161: the first code that does not fit ends ENCODE with Capacity, ERRINFO its symbol's position.
That an emptied or unspecified buffer lists nothing is the model's choice, log entry 3. -/
def Obligations.EncodeStopsAtTheFirstCodeThatDoesNotFit : Prop :=
  ∀ (s : State) (i : Nat), s.symLen.toNat ≤ s.symcap.toNat → i < s.symLen.toNat →
    (∀ j ≤ i, s.codelenAt (s.symAt j) ≠ 0) →
    ((List.range i).map fun j => (s.codelenAt (s.symAt j)).toNat).sum ≤ s.bitcap.toNat →
    s.bitcap.toNat < ((List.range (i + 1)).map fun j => (s.codelenAt (s.symAt j)).toNat).sum →
    exec .encode s = .next { s with running := none, fault := true, err := 5, errinfo := BitVec.ofNat 32 i,
                                    bitLen := 0, bitbuf := [] }

/-! ## DECODE and DECODEC -/

/-- 44_decode.md R166, R167: when the bits are the paths of leaves of the tree, one after another, DECODE writes those
leaves' symbols, leaves every later SYMBUF entry and everything else. -/
def Obligations.DecodeWalksTheTree : Prop :=
  ∀ (s : State) (n : Nat) (steps : List (Nat × BitString)), IsTree n s.node → 2 ≤ n →
    s.bitLen.toNat ≤ s.bitcap.toNat → s.bits = steps.flatMap Prod.snd →
    (∀ x ∈ steps, (nodeAt s.node x.1).kind = false ∧ follow s.node (rootOf s.node) x.2 = some x.1) →
    steps.length ≤ s.symcap.toNat →
    ∃ m : Memory 8, exec .decode s =
        .next { s with running := none, symLen := BitVec.ofNat 32 steps.length, symbuf := m } ∧
      (∀ i < steps.length, m.read i = (steps[i]?).map fun x => (nodeAt s.node x.1).sym) ∧
      (∀ i, steps.length ≤ i → m.read i = s.symbuf.read i)

/-- 44_decode.md R168: bits that end inside a code end DECODE with TruncatedStream, ERRINFO the position of the first bit
of the unfinished code.
That an emptied or unspecified buffer lists nothing is the model's choice, log entry 3. -/
def Obligations.DecodeReportsATruncatedStream : Prop :=
  ∀ (s : State) (n k : Nat) (steps : List (Nat × BitString)) (q : BitString), IsTree n s.node → 2 ≤ n →
    s.bitLen.toNat ≤ s.bitcap.toNat → s.bits = steps.flatMap Prod.snd ++ q →
    (∀ x ∈ steps, (nodeAt s.node x.1).kind = false ∧ follow s.node (rootOf s.node) x.2 = some x.1) →
    q ≠ [] → follow s.node (rootOf s.node) q = some k → (nodeAt s.node k).kind = true →
    steps.length ≤ s.symcap.toNat →
    exec .decode s = .next { s with running := none, fault := true, err := 3,
                                    errinfo := BitVec.ofNat 32 (steps.flatMap Prod.snd).length,
                                    symLen := 0, symbuf := [] }

/-- 44_decode.md R177: the bit that completes a symbol that does not fit ends DECODE with Capacity, ERRINFO its position.
That an emptied or unspecified buffer lists nothing is the model's choice, log entry 3. -/
def Obligations.DecodeReportsTheSymbolThatDoesNotFit : Prop :=
  ∀ (s : State) (n : Nat) (steps : List (Nat × BitString)) (q : BitString), IsTree n s.node → 2 ≤ n →
    s.bitLen.toNat ≤ s.bitcap.toNat → s.bits = steps.flatMap Prod.snd ++ q →
    (∀ x ∈ steps, (nodeAt s.node x.1).kind = false ∧ follow s.node (rootOf s.node) x.2 = some x.1) →
    steps.length = s.symcap.toNat + 1 →
    exec .decode s = .next { s with running := none, fault := true, err := 5,
                                    errinfo := BitVec.ofNat 32 ((steps.flatMap Prod.snd).length - 1),
                                    symLen := 0, symbuf := [] }

/-- 44_decode.md R169, R177: with one leaf each bit 0 emits its symbol, the first bit 1 ends DECODE with InvalidCode, and
the bit 0 whose symbol does not fit ends it with Capacity.
That an emptied or unspecified buffer lists nothing is the model's choice, log entry 3. -/
def Obligations.DecodeOfOneLeaf : Prop :=
  ∀ (s : State) (c : Sym) (w : Weight) (m : Nat), s.node = [.leaf c w] → s.bitLen.toNat ≤ s.bitcap.toNat →
    m ≤ s.symcap.toNat →
    (s.bits = List.replicate m false →
      ∃ b : Memory 8, exec .decode s = .next { s with running := none, symLen := BitVec.ofNat 32 m, symbuf := b } ∧
        (∀ i < m, b.read i = some c) ∧ (∀ i, m ≤ i → b.read i = s.symbuf.read i)) ∧
    (∀ q, s.bits = List.replicate m false ++ true :: q →
      exec .decode s = .next { s with running := none, fault := true, err := 4, errinfo := BitVec.ofNat 32 m,
                                      symLen := 0, symbuf := [] }) ∧
    (∀ q, m = s.symcap.toNat → s.bits = List.replicate m false ++ false :: q →
      exec .decode s = .next { s with running := none, fault := true, err := 5, errinfo := BitVec.ofNat 32 m,
                                      symLen := 0, symbuf := [] })

/-- 44_decode.md R170, R171: with no tree a stream that is not empty ends DECODE with InvalidCode at bit 0, and the empty
one decodes to the empty sequence; with three or more nodes DECODE never ends with InvalidCode.
That an emptied or unspecified buffer lists nothing is the model's choice, log entry 3. -/
def Obligations.DecodeRaisesInvalidCodeOnlySo : Prop :=
  (∀ s : State, s.node = [] → s.bitLen ≠ 0 → s.bitLen.toNat ≤ s.bitcap.toNat →
    exec .decode s = .next { s with running := none, fault := true, err := 4, errinfo := 0,
                                    symLen := 0, symbuf := [] }) ∧
  (∀ s : State, s.node = [] → s.bitLen = 0 → exec .decode s = .next { s with running := none, symLen := 0 }) ∧
  (∀ (s t : State) (n : Nat), IsTree n s.node → 2 ≤ n → s.err ≠ 4 → exec .decode s = .next t → t.err ≠ 4)

/-- 44_decode.md R179: the empty bitstream decodes to the empty sequence, with any tree or table. -/
def Obligations.EmptyBitstreamDecodesToNothing : Prop :=
  ∀ s : State, s.bitLen = 0 →
    exec .decode s = .next { s with running := none, symLen := 0 } ∧
    exec .decodec s = .next { s with running := none, symLen := 0 }

/-- 44_decode.md R173, R174, R175: what one bit does to the accumulated bits of DECODEC: the smallest symbol whose code
equals them is emitted; else it goes on if some longer code has them as a prefix; else no entry is left. -/
def Obligations.OneBitOfDecodecMatchesTheTable : Prop :=
  ∀ (s : State) (p : Nat) (acc : BitString) (b : Bool),
    (∀ c, tableMove s p acc b = .emit c ↔
      (s.codelenAt c).toNat = (acc ++ [b]).length ∧ s.codeOf p c = acc ++ [b] ∧
        ∀ d : Sym, d.toNat < c.toNat → s.codeOf p d ≠ acc ++ [b]) ∧
    (∀ x, tableMove s p acc b = .inside x ↔
      x = acc ++ [b] ∧ (∀ c, s.codeOf p c ≠ acc ++ [b]) ∧
        ∃ c, (acc ++ [b]).length < (s.codelenAt c).toNat ∧ acc ++ [b] <+: s.codeOf p c) ∧
    (tableMove s p acc b = .noPath ↔ ∀ c, ¬ (acc ++ [b] <+: s.codeOf p c))

/-- 44_decode.md R172, R173, R174: with any table whose codes are written, prefix-free or not, when the bits are one after
another codes that DECODEC takes (no entry's code is a shorter prefix, no smaller symbol has the same code), it
writes their symbols, leaves every later SYMBUF entry and everything else. -/
def Obligations.DecodecEmitsTheCodesInTurn : Prop :=
  ∀ (s : State) (cs : List Sym), s.codesWritten → (∀ c ∈ cs, s.taken c) →
    s.bits = cs.flatMap (s.codeOf 0) → s.bitLen.toNat ≤ s.bitcap.toNat → cs.length ≤ s.symcap.toNat →
    ∃ m : Memory 8, exec .decodec s =
        .next { s with running := none, symLen := BitVec.ofNat 32 cs.length, symbuf := m } ∧
      (∀ i < cs.length, m.read i = cs[i]?) ∧ (∀ i, cs.length ≤ i → m.read i = s.symbuf.read i)

/-- 44_decode.md R174 to R177: how DECODEC fails, with any table whose codes are written, prefix-free or not, after codes
that it takes: inside a code at the end of the bits, at a bit no entry continues with, or at the bit that completes
a symbol that does not fit. That SYMBUF then lists nothing is log entry 3. -/
def Obligations.DecodecReportsWhereItFails : Prop :=
  ∀ (s : State) (cs : List Sym) (q : BitString), s.codesWritten → (∀ c ∈ cs, s.taken c) →
    s.bits = cs.flatMap (s.codeOf 0) ++ q → s.bitLen.toNat ≤ s.bitcap.toNat →
    (cs.length ≤ s.symcap.toNat → q ≠ [] → s.insideCode q →
      exec .decodec s = .next { s with running := none, fault := true, err := 3,
                                       errinfo := BitVec.ofNat 32 (cs.flatMap (s.codeOf 0)).length,
                                       symLen := 0, symbuf := [] }) ∧
    (∀ x b y, cs.length ≤ s.symcap.toNat → q = x ++ b :: y → (x = [] ∨ s.insideCode x) →
      (∀ c, ¬ (x ++ [b] <+: s.codeOf 0 c)) →
      exec .decodec s = .next { s with running := none, fault := true, err := 4,
                                       errinfo := BitVec.ofNat 32 (cs.flatMap (s.codeOf 0) ++ x).length,
                                       symLen := 0, symbuf := [] }) ∧
    (cs.length = s.symcap.toNat + 1 →
      exec .decodec s = .next { s with running := none, fault := true, err := 5,
                                       errinfo := BitVec.ofNat 32 ((cs.flatMap (s.codeOf 0)).length - 1),
                                       symLen := 0, symbuf := [] })

/-! ## The commands together -/

/-- 44_decode.md R178: with the table DERIVE makes of the tree now in NODE, DECODE and DECODEC end in the same state. -/
def Obligations.TheTwoDecodersAgree : Prop :=
  ∀ s : State, TreeInvariant s.node → s.tableOfTree → exec .decode s = exec .decodec s

/-- 46_properties.md R196: MKTABLE, ENCODE, then DECODE or DECODEC gives the symbols back. R195's capacity assumption is
the hypothesis on the sum of the code lengths. -/
def Obligations.EncodeThenDecodeGivesTheInputBack : Prop :=
  ∀ s a : State, s.symLen.toNat ≤ s.symcap.toNat → s.symbolsWritten → exec .mktable s = .next a →
    (s.symbols.map fun c => (a.codelenAt c).toNat).sum ≤ s.bitcap.toNat →
    ∃ b c, exec .encode a = .next b ∧ exec .decode b = .next c ∧ exec .decodec b = .next c ∧
      c.symLen = s.symLen ∧ c.symbols = s.symbols ∧ c.fault = s.fault ∧ c.err = s.err

/-- 46_properties.md R200: one distinct symbol, N times: one leaf, the code "0", N bits 0, and the input back. -/
def Obligations.OneDistinctSymbolTakesOneBitEach : Prop :=
  ∀ (s : State) (c : Sym), 1 ≤ s.symLen.toNat → s.symLen.toNat ≤ s.symcap.toNat → s.symLen.toNat ≤ s.bitcap.toNat →
    s.symbolsWritten → (∀ i < s.symLen.toNat, s.symAt i = c) →
    ∃ a b d, exec .mktable s = .next a ∧ exec .encode a = .next b ∧ exec .decode b = .next d ∧
      exec .decodec b = .next d ∧ a.nnodes = 1 ∧ a.codelenAt c = 1 ∧ a.codeOf 0 c = [false] ∧
      (∀ x, x ≠ c → a.codelenAt x = 0) ∧ b.bitLen = s.symLen ∧ b.bits = List.replicate s.symLen.toNat false ∧
      d.symLen = s.symLen ∧ d.symbols = s.symbols

/-- 46_properties.md R201, 43_encode.md R160: the empty input gives three empty tables, an empty bitstream with BITBUF
unchanged, and the empty sequence back. -/
def Obligations.EmptyInputGivesEmptyOutputs : Prop :=
  ∀ s : State, s.symLen = 0 →
    exec .encode s = .next { s with running := none, bitLen := 0 } ∧
    ∃ a b d, exec .mktable s = .next a ∧ exec .encode a = .next b ∧ exec .decode b = .next d ∧
      exec .decodec b = .next d ∧ (∀ c, a.freqAt c = 0) ∧ a.nnodes = 0 ∧ (∀ c, a.codelenAt c = 0) ∧
      b.bitLen = 0 ∧ b.bitbuf = s.bitbuf ∧ d.symLen = 0 ∧
      a.fault = s.fault ∧ b.fault = s.fault ∧ d.fault = s.fault

/-- 46_properties.md R205, 20_memory.md R79: when everything a command reads has been written, its result does not depend
on any free value: another draw number gives the same end. -/
def Obligations.WrittenInputsLeaveNothingFree : Prop :=
  ∀ (i : Instr) (s t : State) (d : Nat), s.inputsWritten i → exec i s = .next t →
    exec i { s with draw := d } = .next { t with draw := d }

/-- 20_memory.md R79, 70_reset_and_hazards.md R246: no command reads a SYMBUF entry at or above SYM_LEN, a BITBUF position
at or above BIT_LEN, or a CODEBITS position at or above CODELEN. Contents that differ only there give ends that are
equal but for those memories, and in those each cell is the same in both ends or kept in both. -/
def Obligations.NothingBeyondTheLengthsIsRead : Prop :=
  ∀ (i : Instr) (s u t : State), u = { s with symbuf := u.symbuf, bitbuf := u.bitbuf, codebits := u.codebits } →
    (∀ k < s.symLen.toNat, u.symAt k = s.symAt k) → (∀ k < s.bitLen.toNat, u.bitAt k = s.bitAt k) →
    (∀ (time : Nat) (c : Sym), ∀ j < (s.codelenAt c).toNat, u.codeBit time c j = s.codeBit time c j) →
    exec i s = .next t →
    ∃ r : State, exec i u = .next r ∧
      r = { t with symbuf := r.symbuf, bitbuf := r.bitbuf, codebits := r.codebits } ∧
      (∀ k, r.symbuf.read k = t.symbuf.read k ∨
        (r.symbuf.read k = u.symbuf.read k ∧ t.symbuf.read k = s.symbuf.read k)) ∧
      (∀ k, r.bitbuf.read k = t.bitbuf.read k ∨
        (r.bitbuf.read k = u.bitbuf.read k ∧ t.bitbuf.read k = s.bitbuf.read k)) ∧
      (∀ k, r.codebits.read k = t.codebits.read k ∨
        (r.codebits.read k = u.codebits.read k ∧ t.codebits.read k = s.codebits.read k))

/-! ## Errors, flags and the system commands -/

/-- 45_system.md R186, R187, R188: NOP, CLRF and SRST, whole. -/
def Obligations.SystemCommandsDoTheirPseudocode : Prop :=
  ∀ s : State,
    exec .nop s = .next { s with running := none } ∧
    exec .clrf s = .next { s with running := none, fault := false, err := 0, ovr := false, errinfo := 0 } ∧
    exec .srst s = .next { s with running := none, fault := false, err := 0, ovr := false, errinfo := 0,
                                  symLen := 0, bitLen := 0, node := [], freq := Vector.replicate 256 0,
                                  codelen := Vector.replicate 256 0 }

/-- 60_exceptions.md R211, R220, R221, R222: a command that ends with an error ends with one it can end with, its output
emptied, FAULT, ERR and ERRINFO written, BUSY 0, and everything else as it was.
That an emptied or unspecified buffer lists nothing is the model's choice, log entry 3. -/
def Obligations.AnErrorEmptiesTheOutputAndNothingElse : Prop :=
  ∀ (i : Instr) (s t : State), s.fault = false → exec i s = .next t → t.fault = true →
    ∃ e ∈ errorsOf i, ∃ info : Word,
      t = { emptyOutput (outputOf i) s with running := none, fault := true, err := e.code, errinfo := info }

/-- 10_state.md R43: what each command leaves unchanged, whatever way it ends. -/
def Obligations.EachCommandKeepsWhatItDoesNotWrite : Prop :=
  ∀ (i : Instr) (s t : State), exec i s = .next t →
    t.running = none ∧ t.symcap = s.symcap ∧ t.bitcap = s.bitcap ∧
    t.inputs = s.inputs ∧ t.sched = s.sched ∧ t.log = s.log ∧ t.draw = s.draw ∧
    (i ∉ [.decode, .decodec, .srst] → t.symLen = s.symLen) ∧ (i ∉ [.encode, .srst] → t.bitLen = s.bitLen) ∧
    (i ∉ [.build, .mktable, .srst] → t.node = s.node) ∧ (i ∉ [.count, .mktable, .srst] → t.freq = s.freq) ∧
    (i ∉ [.derive, .mktable, .srst] → t.codelen = s.codelen) ∧ (i ∉ [.derive, .mktable] → t.codebits = s.codebits) ∧
    (i ∉ [.decode, .decodec] → t.symbuf = s.symbuf) ∧ (i ≠ .encode → t.bitbuf = s.bitbuf) ∧
    (i ∉ [.clrf, .srst] → t.ovr = s.ovr) ∧
    (i ∉ [.clrf, .srst] → t.fault = false → t.err = s.err ∧ t.errinfo = s.errinfo)

/-- 46_properties.md R206, 10_state.md R28: every command ends, with BUSY 0. -/
def Obligations.EveryCommandEnds : Prop :=
  ∀ (i : Instr) (s : State), ∃ t, exec i s = .next t ∧ t.busy = false

/-- 10_state.md R29: OVR is set only by a host write while BUSY is 1, and cleared only by CLRF, SRST and reset. -/
def Obligations.OvrRecordsABrokenProtocol : Prop :=
  ∀ s t : State, step s = .next t →
    (s.ovr = false → t.ovr = true →
      s.busy = true ∧ ∃ o rest, turn s = .input (.op o) rest ∧ o.isWrite = true) ∧
    (s.ovr = true → t.ovr = false →
      turn s = .engine (encode .clrf) ∨ turn s = .engine (encode .srst) ∨ ∃ rest, turn s = .input .reset rest)

/-- 70_reset_and_hazards.md R252, 41_build.md R130: the frequency table, the tree and the code table each change only by
their own commands, by SRST and reset, or (but not the tree) by the host. -/
def Obligations.NothingIsRebuiltAutomatically : Prop :=
  ∀ s t : State, step s = .next t →
    (t.node ≠ s.node →
      (∃ i, i ∈ [Instr.build, .mktable, .srst] ∧ turn s = .engine (encode i)) ∨ ∃ rest, turn s = .input .reset rest) ∧
    (t.freq ≠ s.freq →
      (∃ i, i ∈ [Instr.count, .mktable, .srst] ∧ turn s = .engine (encode i)) ∨ ∃ x rest, turn s = .input x rest ∧ x.changesState = true) ∧
    (t.codelen ≠ s.codelen →
      (∃ i, i ∈ [Instr.derive, .mktable, .srst] ∧ turn s = .engine (encode i)) ∨ ∃ x rest, turn s = .input x rest ∧ x.changesState = true) ∧
    (t.codebits ≠ s.codebits →
      (∃ i, i ∈ [Instr.derive, .mktable] ∧ turn s = .engine (encode i)) ∨ ∃ x rest, turn s = .input x rest ∧ x.changesState = true)

/-- 70_reset_and_hazards.md R240, R241: the RESET event gives the state of 10_state.md R50 whatever the block was doing,
a command in execution included. The capacities, being parameters, stay.
That an emptied or unspecified buffer lists nothing is the model's choice, log entry 3. -/
def Obligations.ResetGivesTheResetState : Prop :=
  ∀ (s : State) (rest : List Input), turn s = .input .reset rest →
    ∃ t, step s = .next t ∧ t.symLen = 0 ∧ t.bitLen = 0 ∧ t.node = [] ∧ t.statusWord = 0 ∧ t.errinfo = 0 ∧
      (∀ c, t.freqAt c = 0) ∧ (∀ c, t.codelenAt c = 0) ∧ t.running = none ∧ t.codebits = [] ∧ t.symbuf = [] ∧
      t.bitbuf = [] ∧ t.symcap = s.symcap ∧ t.bitcap = s.bitcap

/-! ## Invariants of every step -/

/-- 10_state.md R50: the state after reset meets the whole invariant, for every choice of the capacities. -/
def Obligations.ResetStateMeetsTheInvariant : Prop :=
  State.reset.Inv ∧ ∀ p : Params, p.wellFormed = true → (State.resetOf p).Inv

/-- 10_state.md R29, R31: every step keeps STATUS legal. -/
def Obligations.StepKeepsStatusLegal : Prop :=
  ∀ s t : State, s.statusOk → step s = .next t → t.statusOk

/-- 60_exceptions.md R224, R225: no step puts a command other than CLRF and SRST in execution while FAULT is 1. -/
def Obligations.StepKeepsTheFaultGate : Prop :=
  ∀ s t : State, s.gateOk → step s = .next t → t.gateOk

/-- 10_state.md R24: no step changes SYMCAP or BITCAP. -/
def Obligations.StepKeepsTheCapacities : Prop :=
  ∀ s t : State, step s = .next t → t.symcap = s.symcap ∧ t.bitcap = s.bitcap

/-- 10_state.md R38, R40, R41: every step keeps the three memories in canonical form and inside their sizes. -/
def Obligations.StepKeepsMemoriesCanonical : Prop :=
  ∀ s t : State, s.paramsOk → s.memoriesOk → step s = .next t → t.memoriesOk

/-- 10_state.md R42: every step keeps the tree invariant. -/
def Obligations.StepKeepsTheTreeInvariant : Prop :=
  ∀ s t : State, TreeInvariant s.node → step s = .next t → TreeInvariant t.node
end

