-- ==== Sys2Proof/Laws/Bits.lean ====
section
/-! SUPPORT. The laws of packing and of the tables over the 256 symbols. -/

namespace Sys2Proof.Machine

/-- Position `j` of packed word `k` is position 32 × k + j of the bit-string, 0 past its end. -/
theorem wordBit_packWord (p : BitString) (k : Nat) {j : Nat} (h : j < 32) :
    wordBit (packWord p k) j = p.getD (32 * k + j) false := by
  have hl : ((List.range 32).map fun j => p.getD (32 * k + j) false).length = 32 := by simp
  unfold wordBit packWord
  rw [BitVec.getMsbD_eq_getLsbD, BitVec.getLsbD_setWidth, BitVec.getLsbD_ofBoolListBE, hl]
  have h1 : 32 - 1 - (32 - 1 - j) = j := by omega
  have h2 : 32 - 1 - j < 32 := by omega
  rw [h1]
  simp [h, h2]

@[simp] theorem mem_allSymbols (c : Sym) : c ∈ allSymbols :=
  List.mem_map.2 ⟨c.toNat, List.mem_range.2 c.isLt, BitVec.ofNat_toNat 8 c⟩

theorem allSymbols_length : allSymbols.length = 256 := by simp [allSymbols]

/-- The entry of a symbol in a table made symbol by symbol. -/
@[simp] theorem bySymbol_getElem {α : Type} (f : Sym → α) (c : Sym) : (bySymbol f)[c.toNat]'(c.isLt) = f c := by
  simp [bySymbol, allSymbols]

/-- The table is empty exactly when every entry is 0. -/
theorem tableEmpty_iff (freq : Vector Word 256) :
    tableEmpty freq = true ↔ ∀ c : Sym, freq[c.toNat]'(c.isLt) = 0 := by
  simp only [tableEmpty, List.all_eq_true, beq_iff_eq]
  refine ⟨fun h c => h _ (by simp), fun h n hn => ?_⟩
  obtain ⟨i, hi, rfl⟩ := List.getElem_of_mem hn
  have hi' : i < 256 := by simpa using hi
  have := h (BitVec.ofNat 8 i)
  simpa [BitVec.toNat_ofNat, Nat.mod_eq_of_lt hi'] using this

/-- CODELEN after the body of DERIVE. -/
@[simp] theorem deriveBody_codelenAt (s : State) (c : Sym) :
    (deriveBody s).codelenAt c = BitVec.ofNat 8 (codeIn (treeCodes s.node) c).length :=
  bySymbol_getElem _ c

/-- A listed cell of a memory in canonical form reads as it is listed. -/
theorem read_of_mem {w : Nat} {m : Memory w} {a : Nat} {v : BitVec w} (h : (m.map Prod.fst).Pairwise (· < ·))
    (hm : (a, v) ∈ m) : m.read a = some v := by
  induction m with
  | nil => cases hm
  | cons c m ih =>
    obtain ⟨b, u⟩ := c
    simp only [List.map_cons, List.pairwise_cons] at h
    rcases List.mem_cons.1 hm with e | e
    · cases e; simp [Memory.read]
    · have hb : b < a := h.1 a (List.mem_map.2 ⟨_, e, rfl⟩)
      rw [Memory.read, if_neg (by omega), ih h.2 e]

/-- The cells of the first `n` symbols of a code table are 0, 1, ..., 8n − 1. -/
theorem codeCells_keys (code : Sym → BitString) (n : Nat) (hn : n ≤ 256) :
    ((((List.range n).map (BitVec.ofNat 8)).flatMap fun c =>
      (List.range 8).map fun w => (8 * c.toNat + w, packWord (code c) w)).map Prod.fst) = List.range (8 * n) := by
  induction n with
  | zero => rfl
  | succ n ih =>
    have h8 : (BitVec.ofNat 8 n).toNat = n := by simp; omega
    have e : 8 * (n + 1) = 8 * n + 1 + 1 + 1 + 1 + 1 + 1 + 1 + 1 := by omega
    rw [List.range_succ (n := n), List.map_append, List.flatMap_append, List.map_append, ih (by omega), e]
    simp [List.range_succ, h8]

theorem codeCells_wf (code : Sym → BitString) : Memory.wf 2048 (codeCells code) := by
  have hk : (codeCells code).map Prod.fst = List.range 2048 := codeCells_keys code 256 (le_refl _)
  refine ⟨hk ▸ List.pairwise_lt_range, fun c hc => List.mem_range.1 (hk ▸ List.mem_map_of_mem hc)⟩

/-- CODEBITS after the body of DERIVE: every one of its words is written. -/
theorem codeCells_read (code : Sym → BitString) (c : Sym) {w : Nat} (h : w < 8) :
    (codeCells code).read (8 * c.toNat + w) = some (packWord (code c) w) :=
  read_of_mem (codeCells_wf code).1 (List.mem_flatMap.2
    ⟨c, mem_allSymbols c, List.mem_map.2 ⟨w, List.mem_range.2 h, rfl⟩⟩)

end Sys2Proof.Machine
end

