-- ==== Sys2Proof/Laws/Memory.lean ====
section
/-! SUPPORT. The laws of memory: a read after a write, that a write leaves every other cell, and that every operation
keeps the canonical form. -/

namespace Sys2Proof.Machine

variable {w : Nat}

@[simp] theorem Memory.read_nil (a : Nat) : Memory.read ([] : Memory w) a = none := rfl

theorem Memory.read_cons (b : Nat) (v : BitVec w) (m : Memory w) (a : Nat) :
    Memory.read ((b, v) :: m) a = if b = a then some v else m.read a := rfl

@[simp] theorem Memory.read_write_same (m : Memory w) (a : Nat) (v : BitVec w) :
    (m.write a v).read a = some v := by
  induction m with
  | nil => simp [Memory.write, Memory.read]
  | cons c m ih =>
    obtain ⟨b, u⟩ := c
    unfold Memory.write
    split
    · simp [Memory.read]
    · split
      · simp [Memory.read]
      · rename_i h1 h2
        rw [Memory.read_cons, if_neg (fun h => h2 h.symm), ih]

theorem Memory.read_write_other (m : Memory w) {a b : Nat} (v : BitVec w) (h : a ≠ b) :
    (m.write a v).read b = m.read b := by
  induction m with
  | nil => simp [Memory.write, Memory.read, h]
  | cons c m ih =>
    obtain ⟨d, u⟩ := c
    unfold Memory.write
    split
    · rw [Memory.read_cons, if_neg h]
    · split
      · rename_i h1 h2
        rw [Memory.read_cons, Memory.read_cons, if_neg h, if_neg (h2 ▸ h)]
      · rw [Memory.read_cons, Memory.read_cons, ih]

theorem Memory.read_write (m : Memory w) (a b : Nat) (v : BitVec w) :
    (m.write a v).read b = if a = b then some v else m.read b := by
  split
  · subst_vars; simp
  · exact Memory.read_write_other m v ‹_›

/-- A cell of a write is a cell of the memory or the one written. -/
theorem Memory.mem_write {m : Memory w} {a : Nat} {v : BitVec w} {c : Nat × BitVec w} (h : c ∈ m.write a v) :
    c = (a, v) ∨ c ∈ m := by
  induction m with
  | nil => simpa [Memory.write] using h
  | cons d m ih =>
    obtain ⟨b, u⟩ := d
    unfold Memory.write at h
    split at h
    · simpa using h
    · split at h
      · rcases List.mem_cons.1 h with h | h
        · exact .inl h
        · exact .inr (List.mem_cons_of_mem _ h)
      · rcases List.mem_cons.1 h with h | h
        · exact .inr (h ▸ List.mem_cons_self)
        · exact (ih h).imp_right (List.mem_cons_of_mem _)

theorem Memory.write_rising {m : Memory w} (a : Nat) (v : BitVec w) (h : (m.map Prod.fst).Pairwise (· < ·)) :
    ((m.write a v).map Prod.fst).Pairwise (· < ·) := by
  induction m with
  | nil => simp [Memory.write]
  | cons d m ih =>
    obtain ⟨b, u⟩ := d
    simp only [List.map_cons, List.pairwise_cons] at h
    unfold Memory.write
    split
    · rename_i hab
      simp only [List.map_cons, List.pairwise_cons, List.mem_cons, forall_eq_or_imp]
      exact ⟨⟨hab, fun x hx => lt_trans hab (h.1 x hx)⟩, h⟩
    · split
      · rename_i hab; subst hab
        simpa only [List.map_cons, List.pairwise_cons] using h
      · simp only [List.map_cons, List.pairwise_cons]
        refine ⟨fun x hx => ?_, ih h.2⟩
        obtain ⟨c, hc, rfl⟩ := List.mem_map.1 hx
        rcases Memory.mem_write hc with rfl | hc
        · show b < a; omega
        · exact h.1 _ (List.mem_map_of_mem hc)

/-- A write inside the memory keeps the canonical form. -/
theorem Memory.wf_write {size : Nat} {m : Memory w} {a : Nat} (v : BitVec w) (h : m.wf size) (ha : a < size) :
    (m.write a v).wf size :=
  ⟨Memory.write_rising a v h.1, fun _ hc => (Memory.mem_write hc).elim (fun e => e ▸ ha) (h.2 _)⟩

theorem Memory.wf_nil (size : Nat) : Memory.wf size ([] : Memory w) := by simp [Memory.wf]

theorem Memory.wf_writeFrom {size : Nat} (vs : List (BitVec w)) :
    ∀ {m : Memory w} {a : Nat}, m.wf size → a + vs.length ≤ size → (m.writeFrom a vs).wf size := by
  induction vs with
  | nil => intro m a h _; exact h
  | cons v vs ih =>
    intro m a h hs
    simp only [List.length_cons] at hs
    exact ih (Memory.wf_write v h (by omega)) (by omega)

/-- A cell below or beyond the written run reads as before; the k-th cell of the run reads the k-th value. -/
theorem Memory.read_writeFrom (vs : List (BitVec w)) :
    ∀ (m : Memory w) (a b : Nat), (m.writeFrom a vs).read b =
      if a ≤ b ∧ b < a + vs.length then vs[b - a]? else m.read b := by
  induction vs with
  | nil =>
    intro m a b
    rw [if_neg (by simp)]
    rfl
  | cons v vs ih =>
    intro m a b
    show ((m.write a v).writeFrom (a + 1) vs).read b = _
    rw [ih, Memory.read_write]
    simp only [List.length_cons]
    by_cases h : a = b
    · subst h; simp
    · by_cases h2 : a + 1 ≤ b ∧ b < a + 1 + vs.length
      · have h3 : a ≤ b ∧ b < a + (vs.length + 1) := by omega
        rw [if_pos h2, if_pos h3, show b - a = (b - (a + 1)) + 1 by omega, List.getElem?_cons_succ]
      · have h3 : ¬ (a ≤ b ∧ b < a + (vs.length + 1)) := by omega
        rw [if_neg h2, if_neg h3, if_neg h]

theorem storeBits_wf {size : Nat} {m : Memory 32} (p : BitString) (h : m.wf size) (hp : wordsFor p.length ≤ size) :
    (storeBits p m).wf size :=
  Memory.wf_writeFrom _ h (by simpa using hp)

/-- BITBUF after ENCODE's store: the packed words of the bit-string, every later word as before. -/
theorem storeBits_read (p : BitString) (m : Memory 32) (q : Nat) :
    (storeBits p m).read q = if q < wordsFor p.length then some (packWord p q) else m.read q := by
  unfold storeBits
  rw [Memory.read_writeFrom]
  by_cases h : q < wordsFor p.length <;> simp [h]

end Sys2Proof.Machine
end

