-- ==== Sys2Proof/Laws/State.lean ====
section
/-! SUPPORT. What each update of State leaves in each field, one lemma a field, true by rfl, so that no proof unfolds
a record update. -/

namespace Sys2Proof.Machine

@[simp] theorem endCommand_symLen (s : State) : (endCommand s).symLen = s.symLen := rfl
@[simp] theorem endCommand_bitLen (s : State) : (endCommand s).bitLen = s.bitLen := rfl
@[simp] theorem endCommand_symcap (s : State) : (endCommand s).symcap = s.symcap := rfl
@[simp] theorem endCommand_bitcap (s : State) : (endCommand s).bitcap = s.bitcap := rfl
@[simp] theorem endCommand_running (s : State) : (endCommand s).running = none := rfl
@[simp] theorem endCommand_fault (s : State) : (endCommand s).fault = s.fault := rfl
@[simp] theorem endCommand_ovr (s : State) : (endCommand s).ovr = s.ovr := rfl
@[simp] theorem endCommand_err (s : State) : (endCommand s).err = s.err := rfl
@[simp] theorem endCommand_errinfo (s : State) : (endCommand s).errinfo = s.errinfo := rfl
@[simp] theorem endCommand_freq (s : State) : (endCommand s).freq = s.freq := rfl
@[simp] theorem endCommand_node (s : State) : (endCommand s).node = s.node := rfl
@[simp] theorem endCommand_codelen (s : State) : (endCommand s).codelen = s.codelen := rfl
@[simp] theorem endCommand_codebits (s : State) : (endCommand s).codebits = s.codebits := rfl
@[simp] theorem endCommand_symbuf (s : State) : (endCommand s).symbuf = s.symbuf := rfl
@[simp] theorem endCommand_bitbuf (s : State) : (endCommand s).bitbuf = s.bitbuf := rfl
@[simp] theorem endCommand_inputs (s : State) : (endCommand s).inputs = s.inputs := rfl
@[simp] theorem endCommand_sched (s : State) : (endCommand s).sched = s.sched := rfl
@[simp] theorem endCommand_log (s : State) : (endCommand s).log = s.log := rfl
@[simp] theorem endCommand_draw (s : State) : (endCommand s).draw = s.draw := rfl

@[simp] theorem State.recordError_symLen (s : State) (e : Err) (x : Word) : (s.recordError e x).symLen = s.symLen := rfl
@[simp] theorem State.recordError_bitLen (s : State) (e : Err) (x : Word) : (s.recordError e x).bitLen = s.bitLen := rfl
@[simp] theorem State.recordError_symcap (s : State) (e : Err) (x : Word) : (s.recordError e x).symcap = s.symcap := rfl
@[simp] theorem State.recordError_bitcap (s : State) (e : Err) (x : Word) : (s.recordError e x).bitcap = s.bitcap := rfl
@[simp] theorem State.recordError_running (s : State) (e : Err) (x : Word) : (s.recordError e x).running = s.running := rfl
@[simp] theorem State.recordError_fault (s : State) (e : Err) (x : Word) : (s.recordError e x).fault = true := rfl
@[simp] theorem State.recordError_ovr (s : State) (e : Err) (x : Word) : (s.recordError e x).ovr = s.ovr := rfl
@[simp] theorem State.recordError_err (s : State) (e : Err) (x : Word) : (s.recordError e x).err = e.code := rfl
@[simp] theorem State.recordError_errinfo (s : State) (e : Err) (x : Word) : (s.recordError e x).errinfo = x := rfl
@[simp] theorem State.recordError_freq (s : State) (e : Err) (x : Word) : (s.recordError e x).freq = s.freq := rfl
@[simp] theorem State.recordError_node (s : State) (e : Err) (x : Word) : (s.recordError e x).node = s.node := rfl
@[simp] theorem State.recordError_codelen (s : State) (e : Err) (x : Word) : (s.recordError e x).codelen = s.codelen := rfl
@[simp] theorem State.recordError_codebits (s : State) (e : Err) (x : Word) : (s.recordError e x).codebits = s.codebits := rfl
@[simp] theorem State.recordError_symbuf (s : State) (e : Err) (x : Word) : (s.recordError e x).symbuf = s.symbuf := rfl
@[simp] theorem State.recordError_bitbuf (s : State) (e : Err) (x : Word) : (s.recordError e x).bitbuf = s.bitbuf := rfl
@[simp] theorem State.recordError_inputs (s : State) (e : Err) (x : Word) : (s.recordError e x).inputs = s.inputs := rfl
@[simp] theorem State.recordError_sched (s : State) (e : Err) (x : Word) : (s.recordError e x).sched = s.sched := rfl
@[simp] theorem State.recordError_log (s : State) (e : Err) (x : Word) : (s.recordError e x).log = s.log := rfl
@[simp] theorem State.recordError_draw (s : State) (e : Err) (x : Word) : (s.recordError e x).draw = s.draw := rfl

@[simp] theorem State.clearFlags_symLen (s : State) : (s.clearFlags).symLen = s.symLen := rfl
@[simp] theorem State.clearFlags_bitLen (s : State) : (s.clearFlags).bitLen = s.bitLen := rfl
@[simp] theorem State.clearFlags_symcap (s : State) : (s.clearFlags).symcap = s.symcap := rfl
@[simp] theorem State.clearFlags_bitcap (s : State) : (s.clearFlags).bitcap = s.bitcap := rfl
@[simp] theorem State.clearFlags_running (s : State) : (s.clearFlags).running = s.running := rfl
@[simp] theorem State.clearFlags_fault (s : State) : (s.clearFlags).fault = false := rfl
@[simp] theorem State.clearFlags_ovr (s : State) : (s.clearFlags).ovr = false := rfl
@[simp] theorem State.clearFlags_err (s : State) : (s.clearFlags).err = 0 := rfl
@[simp] theorem State.clearFlags_errinfo (s : State) : (s.clearFlags).errinfo = 0 := rfl
@[simp] theorem State.clearFlags_freq (s : State) : (s.clearFlags).freq = s.freq := rfl
@[simp] theorem State.clearFlags_node (s : State) : (s.clearFlags).node = s.node := rfl
@[simp] theorem State.clearFlags_codelen (s : State) : (s.clearFlags).codelen = s.codelen := rfl
@[simp] theorem State.clearFlags_codebits (s : State) : (s.clearFlags).codebits = s.codebits := rfl
@[simp] theorem State.clearFlags_symbuf (s : State) : (s.clearFlags).symbuf = s.symbuf := rfl
@[simp] theorem State.clearFlags_bitbuf (s : State) : (s.clearFlags).bitbuf = s.bitbuf := rfl
@[simp] theorem State.clearFlags_inputs (s : State) : (s.clearFlags).inputs = s.inputs := rfl
@[simp] theorem State.clearFlags_sched (s : State) : (s.clearFlags).sched = s.sched := rfl
@[simp] theorem State.clearFlags_log (s : State) : (s.clearFlags).log = s.log := rfl
@[simp] theorem State.clearFlags_draw (s : State) : (s.clearFlags).draw = s.draw := rfl

@[simp] theorem acknowledge_symLen (s : State) : (acknowledge s).symLen = s.symLen := rfl
@[simp] theorem acknowledge_bitLen (s : State) : (acknowledge s).bitLen = s.bitLen := rfl
@[simp] theorem acknowledge_symcap (s : State) : (acknowledge s).symcap = s.symcap := rfl
@[simp] theorem acknowledge_bitcap (s : State) : (acknowledge s).bitcap = s.bitcap := rfl
@[simp] theorem acknowledge_running (s : State) : (acknowledge s).running = s.running := rfl
@[simp] theorem acknowledge_fault (s : State) : (acknowledge s).fault = false := rfl
@[simp] theorem acknowledge_ovr (s : State) : (acknowledge s).ovr = false := rfl
@[simp] theorem acknowledge_err (s : State) : (acknowledge s).err = 0 := rfl
@[simp] theorem acknowledge_errinfo (s : State) : (acknowledge s).errinfo = 0 := rfl
@[simp] theorem acknowledge_freq (s : State) : (acknowledge s).freq = s.freq := rfl
@[simp] theorem acknowledge_node (s : State) : (acknowledge s).node = s.node := rfl
@[simp] theorem acknowledge_codelen (s : State) : (acknowledge s).codelen = s.codelen := rfl
@[simp] theorem acknowledge_codebits (s : State) : (acknowledge s).codebits = s.codebits := rfl
@[simp] theorem acknowledge_symbuf (s : State) : (acknowledge s).symbuf = s.symbuf := rfl
@[simp] theorem acknowledge_bitbuf (s : State) : (acknowledge s).bitbuf = s.bitbuf := rfl
@[simp] theorem acknowledge_inputs (s : State) : (acknowledge s).inputs = s.inputs := rfl
@[simp] theorem acknowledge_sched (s : State) : (acknowledge s).sched = s.sched := rfl
@[simp] theorem acknowledge_log (s : State) : (acknowledge s).log = s.log := rfl
@[simp] theorem acknowledge_draw (s : State) : (acknowledge s).draw = s.draw := rfl

@[simp] theorem takeTurn_symLen (s : State) : (takeTurn s).symLen = s.symLen := rfl
@[simp] theorem takeTurn_bitLen (s : State) : (takeTurn s).bitLen = s.bitLen := rfl
@[simp] theorem takeTurn_symcap (s : State) : (takeTurn s).symcap = s.symcap := rfl
@[simp] theorem takeTurn_bitcap (s : State) : (takeTurn s).bitcap = s.bitcap := rfl
@[simp] theorem takeTurn_running (s : State) : (takeTurn s).running = s.running := rfl
@[simp] theorem takeTurn_fault (s : State) : (takeTurn s).fault = s.fault := rfl
@[simp] theorem takeTurn_ovr (s : State) : (takeTurn s).ovr = s.ovr := rfl
@[simp] theorem takeTurn_err (s : State) : (takeTurn s).err = s.err := rfl
@[simp] theorem takeTurn_errinfo (s : State) : (takeTurn s).errinfo = s.errinfo := rfl
@[simp] theorem takeTurn_freq (s : State) : (takeTurn s).freq = s.freq := rfl
@[simp] theorem takeTurn_node (s : State) : (takeTurn s).node = s.node := rfl
@[simp] theorem takeTurn_codelen (s : State) : (takeTurn s).codelen = s.codelen := rfl
@[simp] theorem takeTurn_codebits (s : State) : (takeTurn s).codebits = s.codebits := rfl
@[simp] theorem takeTurn_symbuf (s : State) : (takeTurn s).symbuf = s.symbuf := rfl
@[simp] theorem takeTurn_bitbuf (s : State) : (takeTurn s).bitbuf = s.bitbuf := rfl
@[simp] theorem takeTurn_inputs (s : State) : (takeTurn s).inputs = s.inputs := rfl
@[simp] theorem takeTurn_sched (s : State) : (takeTurn s).sched = if s.busy then s.sched.tail else s.sched := rfl
@[simp] theorem takeTurn_log (s : State) : (takeTurn s).log = s.log := rfl
@[simp] theorem takeTurn_draw (s : State) : (takeTurn s).draw = s.draw + 1 := rfl

@[simp] theorem countBody_symLen (s : State) : (countBody s).symLen = s.symLen := rfl
@[simp] theorem countBody_bitLen (s : State) : (countBody s).bitLen = s.bitLen := rfl
@[simp] theorem countBody_symcap (s : State) : (countBody s).symcap = s.symcap := rfl
@[simp] theorem countBody_bitcap (s : State) : (countBody s).bitcap = s.bitcap := rfl
@[simp] theorem countBody_running (s : State) : (countBody s).running = s.running := rfl
@[simp] theorem countBody_fault (s : State) : (countBody s).fault = s.fault := rfl
@[simp] theorem countBody_ovr (s : State) : (countBody s).ovr = s.ovr := rfl
@[simp] theorem countBody_err (s : State) : (countBody s).err = s.err := rfl
@[simp] theorem countBody_errinfo (s : State) : (countBody s).errinfo = s.errinfo := rfl
@[simp] theorem countBody_freq (s : State) : (countBody s).freq = s.symbols.foldl tally (Vector.replicate 256 0) := rfl
@[simp] theorem countBody_node (s : State) : (countBody s).node = s.node := rfl
@[simp] theorem countBody_codelen (s : State) : (countBody s).codelen = s.codelen := rfl
@[simp] theorem countBody_codebits (s : State) : (countBody s).codebits = s.codebits := rfl
@[simp] theorem countBody_symbuf (s : State) : (countBody s).symbuf = s.symbuf := rfl
@[simp] theorem countBody_bitbuf (s : State) : (countBody s).bitbuf = s.bitbuf := rfl
@[simp] theorem countBody_inputs (s : State) : (countBody s).inputs = s.inputs := rfl
@[simp] theorem countBody_sched (s : State) : (countBody s).sched = s.sched := rfl
@[simp] theorem countBody_log (s : State) : (countBody s).log = s.log := rfl
@[simp] theorem countBody_draw (s : State) : (countBody s).draw = s.draw := rfl

@[simp] theorem buildBody_symLen (s : State) : (buildBody s).symLen = s.symLen := rfl
@[simp] theorem buildBody_bitLen (s : State) : (buildBody s).bitLen = s.bitLen := rfl
@[simp] theorem buildBody_symcap (s : State) : (buildBody s).symcap = s.symcap := rfl
@[simp] theorem buildBody_bitcap (s : State) : (buildBody s).bitcap = s.bitcap := rfl
@[simp] theorem buildBody_running (s : State) : (buildBody s).running = s.running := rfl
@[simp] theorem buildBody_fault (s : State) : (buildBody s).fault = s.fault := rfl
@[simp] theorem buildBody_ovr (s : State) : (buildBody s).ovr = s.ovr := rfl
@[simp] theorem buildBody_err (s : State) : (buildBody s).err = s.err := rfl
@[simp] theorem buildBody_errinfo (s : State) : (buildBody s).errinfo = s.errinfo := rfl
@[simp] theorem buildBody_freq (s : State) : (buildBody s).freq = s.freq := rfl
@[simp] theorem buildBody_node (s : State) : (buildBody s).node = buildTree s.freq := rfl
@[simp] theorem buildBody_codelen (s : State) : (buildBody s).codelen = s.codelen := rfl
@[simp] theorem buildBody_codebits (s : State) : (buildBody s).codebits = s.codebits := rfl
@[simp] theorem buildBody_symbuf (s : State) : (buildBody s).symbuf = s.symbuf := rfl
@[simp] theorem buildBody_bitbuf (s : State) : (buildBody s).bitbuf = s.bitbuf := rfl
@[simp] theorem buildBody_inputs (s : State) : (buildBody s).inputs = s.inputs := rfl
@[simp] theorem buildBody_sched (s : State) : (buildBody s).sched = s.sched := rfl
@[simp] theorem buildBody_log (s : State) : (buildBody s).log = s.log := rfl
@[simp] theorem buildBody_draw (s : State) : (buildBody s).draw = s.draw := rfl

@[simp] theorem deriveBody_symLen (s : State) : (deriveBody s).symLen = s.symLen := rfl
@[simp] theorem deriveBody_bitLen (s : State) : (deriveBody s).bitLen = s.bitLen := rfl
@[simp] theorem deriveBody_symcap (s : State) : (deriveBody s).symcap = s.symcap := rfl
@[simp] theorem deriveBody_bitcap (s : State) : (deriveBody s).bitcap = s.bitcap := rfl
@[simp] theorem deriveBody_running (s : State) : (deriveBody s).running = s.running := rfl
@[simp] theorem deriveBody_fault (s : State) : (deriveBody s).fault = s.fault := rfl
@[simp] theorem deriveBody_ovr (s : State) : (deriveBody s).ovr = s.ovr := rfl
@[simp] theorem deriveBody_err (s : State) : (deriveBody s).err = s.err := rfl
@[simp] theorem deriveBody_errinfo (s : State) : (deriveBody s).errinfo = s.errinfo := rfl
@[simp] theorem deriveBody_freq (s : State) : (deriveBody s).freq = s.freq := rfl
@[simp] theorem deriveBody_node (s : State) : (deriveBody s).node = s.node := rfl
@[simp] theorem deriveBody_codelen (s : State) : (deriveBody s).codelen = bySymbol fun c => BitVec.ofNat 8 (codeIn (treeCodes s.node) c).length := rfl
@[simp] theorem deriveBody_codebits (s : State) : (deriveBody s).codebits = codeCells (codeIn (treeCodes s.node)) := rfl
@[simp] theorem deriveBody_symbuf (s : State) : (deriveBody s).symbuf = s.symbuf := rfl
@[simp] theorem deriveBody_bitbuf (s : State) : (deriveBody s).bitbuf = s.bitbuf := rfl
@[simp] theorem deriveBody_inputs (s : State) : (deriveBody s).inputs = s.inputs := rfl
@[simp] theorem deriveBody_sched (s : State) : (deriveBody s).sched = s.sched := rfl
@[simp] theorem deriveBody_log (s : State) : (deriveBody s).log = s.log := rfl
@[simp] theorem deriveBody_draw (s : State) : (deriveBody s).draw = s.draw := rfl

@[simp] theorem resetEvent_symLen (s : State) : (resetEvent s).symLen = 0 := rfl
@[simp] theorem resetEvent_bitLen (s : State) : (resetEvent s).bitLen = 0 := rfl
@[simp] theorem resetEvent_symcap (s : State) : (resetEvent s).symcap = s.symcap := rfl
@[simp] theorem resetEvent_bitcap (s : State) : (resetEvent s).bitcap = s.bitcap := rfl
@[simp] theorem resetEvent_running (s : State) : (resetEvent s).running = none := rfl
@[simp] theorem resetEvent_fault (s : State) : (resetEvent s).fault = false := rfl
@[simp] theorem resetEvent_ovr (s : State) : (resetEvent s).ovr = false := rfl
@[simp] theorem resetEvent_err (s : State) : (resetEvent s).err = 0 := rfl
@[simp] theorem resetEvent_errinfo (s : State) : (resetEvent s).errinfo = 0 := rfl
@[simp] theorem resetEvent_freq (s : State) : (resetEvent s).freq = Vector.replicate 256 0 := rfl
@[simp] theorem resetEvent_node (s : State) : (resetEvent s).node = [] := rfl
@[simp] theorem resetEvent_codelen (s : State) : (resetEvent s).codelen = Vector.replicate 256 0 := rfl
@[simp] theorem resetEvent_codebits (s : State) : (resetEvent s).codebits = [] := rfl
@[simp] theorem resetEvent_symbuf (s : State) : (resetEvent s).symbuf = [] := rfl
@[simp] theorem resetEvent_bitbuf (s : State) : (resetEvent s).bitbuf = [] := rfl
@[simp] theorem resetEvent_inputs (s : State) : (resetEvent s).inputs = s.inputs := rfl
@[simp] theorem resetEvent_sched (s : State) : (resetEvent s).sched = s.sched := rfl
@[simp] theorem resetEvent_log (s : State) : (resetEvent s).log = s.log := rfl
@[simp] theorem resetEvent_draw (s : State) : (resetEvent s).draw = s.draw := rfl

@[simp] theorem State.withFetchWord_symLen (s : State) (n w : Nat) : (s.withFetchWord n w).symLen = s.symLen := rfl
@[simp] theorem State.withFetchWord_bitLen (s : State) (n w : Nat) : (s.withFetchWord n w).bitLen = s.bitLen := rfl
@[simp] theorem State.withFetchWord_symcap (s : State) (n w : Nat) : (s.withFetchWord n w).symcap = s.symcap := rfl
@[simp] theorem State.withFetchWord_bitcap (s : State) (n w : Nat) : (s.withFetchWord n w).bitcap = s.bitcap := rfl
@[simp] theorem State.withFetchWord_running (s : State) (n w : Nat) : (s.withFetchWord n w).running = some (tableWord n w) := rfl
@[simp] theorem State.withFetchWord_fault (s : State) (n w : Nat) : (s.withFetchWord n w).fault = s.fault := rfl
@[simp] theorem State.withFetchWord_ovr (s : State) (n w : Nat) : (s.withFetchWord n w).ovr = s.ovr := rfl
@[simp] theorem State.withFetchWord_err (s : State) (n w : Nat) : (s.withFetchWord n w).err = s.err := rfl
@[simp] theorem State.withFetchWord_errinfo (s : State) (n w : Nat) : (s.withFetchWord n w).errinfo = s.errinfo := rfl
@[simp] theorem State.withFetchWord_freq (s : State) (n w : Nat) : (s.withFetchWord n w).freq = s.freq := rfl
@[simp] theorem State.withFetchWord_node (s : State) (n w : Nat) : (s.withFetchWord n w).node = s.node := rfl
@[simp] theorem State.withFetchWord_codelen (s : State) (n w : Nat) : (s.withFetchWord n w).codelen = s.codelen := rfl
@[simp] theorem State.withFetchWord_codebits (s : State) (n w : Nat) : (s.withFetchWord n w).codebits = s.codebits := rfl
@[simp] theorem State.withFetchWord_symbuf (s : State) (n w : Nat) : (s.withFetchWord n w).symbuf = s.symbuf := rfl
@[simp] theorem State.withFetchWord_bitbuf (s : State) (n w : Nat) : (s.withFetchWord n w).bitbuf = s.bitbuf := rfl
@[simp] theorem State.withFetchWord_inputs (s : State) (n w : Nat) : (s.withFetchWord n w).inputs = s.inputs := rfl
@[simp] theorem State.withFetchWord_sched (s : State) (n w : Nat) : (s.withFetchWord n w).sched = .engine :: s.sched := rfl
@[simp] theorem State.withFetchWord_log (s : State) (n w : Nat) : (s.withFetchWord n w).log = s.log := rfl
@[simp] theorem State.withFetchWord_draw (s : State) (n w : Nat) : (s.withFetchWord n w).draw = s.draw := rfl

@[simp] theorem emptyOutput_symLen (o : Output) (s : State) :
    (emptyOutput o s).symLen = if o = .symbols then 0 else s.symLen := by
  cases o <;> rfl
@[simp] theorem emptyOutput_bitLen (o : Output) (s : State) :
    (emptyOutput o s).bitLen = if o = .bitstream then 0 else s.bitLen := by
  cases o <;> rfl
@[simp] theorem emptyOutput_symcap (o : Output) (s : State) : (emptyOutput o s).symcap = s.symcap := by cases o <;> rfl
@[simp] theorem emptyOutput_bitcap (o : Output) (s : State) : (emptyOutput o s).bitcap = s.bitcap := by cases o <;> rfl
@[simp] theorem emptyOutput_running (o : Output) (s : State) : (emptyOutput o s).running = s.running := by cases o <;> rfl
@[simp] theorem emptyOutput_fault (o : Output) (s : State) : (emptyOutput o s).fault = s.fault := by cases o <;> rfl
@[simp] theorem emptyOutput_ovr (o : Output) (s : State) : (emptyOutput o s).ovr = s.ovr := by cases o <;> rfl
@[simp] theorem emptyOutput_err (o : Output) (s : State) : (emptyOutput o s).err = s.err := by cases o <;> rfl
@[simp] theorem emptyOutput_errinfo (o : Output) (s : State) : (emptyOutput o s).errinfo = s.errinfo := by cases o <;> rfl
@[simp] theorem emptyOutput_freq (o : Output) (s : State) :
    (emptyOutput o s).freq = if o = .frequencies ∨ o = .allTables then Vector.replicate 256 0 else s.freq := by
  cases o <;> rfl
@[simp] theorem emptyOutput_node (o : Output) (s : State) :
    (emptyOutput o s).node = if o = .tree ∨ o = .allTables then [] else s.node := by
  cases o <;> rfl
@[simp] theorem emptyOutput_codelen (o : Output) (s : State) :
    (emptyOutput o s).codelen = if o = .codeTable ∨ o = .allTables then Vector.replicate 256 0 else s.codelen := by
  cases o <;> rfl
@[simp] theorem emptyOutput_codebits (o : Output) (s : State) :
    (emptyOutput o s).codebits = if o = .codeTable ∨ o = .allTables then [] else s.codebits := by
  cases o <;> rfl
@[simp] theorem emptyOutput_symbuf (o : Output) (s : State) :
    (emptyOutput o s).symbuf = if o = .symbols then [] else s.symbuf := by
  cases o <;> rfl
@[simp] theorem emptyOutput_bitbuf (o : Output) (s : State) :
    (emptyOutput o s).bitbuf = if o = .bitstream then [] else s.bitbuf := by
  cases o <;> rfl
@[simp] theorem emptyOutput_inputs (o : Output) (s : State) : (emptyOutput o s).inputs = s.inputs := by cases o <;> rfl
@[simp] theorem emptyOutput_sched (o : Output) (s : State) : (emptyOutput o s).sched = s.sched := by cases o <;> rfl
@[simp] theorem emptyOutput_log (o : Output) (s : State) : (emptyOutput o s).log = s.log := by cases o <;> rfl
@[simp] theorem emptyOutput_draw (o : Output) (s : State) : (emptyOutput o s).draw = s.draw := by cases o <;> rfl

@[simp] theorem raiseError_symLen (o : Output) (e : Err) (x : Word) (s : State) :
    (raiseError o e x s).symLen = if o = .symbols then 0 else s.symLen := by
  cases o <;> rfl
@[simp] theorem raiseError_bitLen (o : Output) (e : Err) (x : Word) (s : State) :
    (raiseError o e x s).bitLen = if o = .bitstream then 0 else s.bitLen := by
  cases o <;> rfl
@[simp] theorem raiseError_symcap (o : Output) (e : Err) (x : Word) (s : State) : (raiseError o e x s).symcap = s.symcap := by cases o <;> rfl
@[simp] theorem raiseError_bitcap (o : Output) (e : Err) (x : Word) (s : State) : (raiseError o e x s).bitcap = s.bitcap := by cases o <;> rfl
@[simp] theorem raiseError_running (o : Output) (e : Err) (x : Word) (s : State) : (raiseError o e x s).running = none := rfl
@[simp] theorem raiseError_fault (o : Output) (e : Err) (x : Word) (s : State) : (raiseError o e x s).fault = true := rfl
@[simp] theorem raiseError_ovr (o : Output) (e : Err) (x : Word) (s : State) : (raiseError o e x s).ovr = s.ovr := by cases o <;> rfl
@[simp] theorem raiseError_err (o : Output) (e : Err) (x : Word) (s : State) : (raiseError o e x s).err = e.code := rfl
@[simp] theorem raiseError_errinfo (o : Output) (e : Err) (x : Word) (s : State) : (raiseError o e x s).errinfo = x := rfl
@[simp] theorem raiseError_freq (o : Output) (e : Err) (x : Word) (s : State) :
    (raiseError o e x s).freq = if o = .frequencies ∨ o = .allTables then Vector.replicate 256 0 else s.freq := by
  cases o <;> rfl
@[simp] theorem raiseError_node (o : Output) (e : Err) (x : Word) (s : State) :
    (raiseError o e x s).node = if o = .tree ∨ o = .allTables then [] else s.node := by
  cases o <;> rfl
@[simp] theorem raiseError_codelen (o : Output) (e : Err) (x : Word) (s : State) :
    (raiseError o e x s).codelen = if o = .codeTable ∨ o = .allTables then Vector.replicate 256 0 else s.codelen := by
  cases o <;> rfl
@[simp] theorem raiseError_codebits (o : Output) (e : Err) (x : Word) (s : State) :
    (raiseError o e x s).codebits = if o = .codeTable ∨ o = .allTables then [] else s.codebits := by
  cases o <;> rfl
@[simp] theorem raiseError_symbuf (o : Output) (e : Err) (x : Word) (s : State) :
    (raiseError o e x s).symbuf = if o = .symbols then [] else s.symbuf := by
  cases o <;> rfl
@[simp] theorem raiseError_bitbuf (o : Output) (e : Err) (x : Word) (s : State) :
    (raiseError o e x s).bitbuf = if o = .bitstream then [] else s.bitbuf := by
  cases o <;> rfl
@[simp] theorem raiseError_inputs (o : Output) (e : Err) (x : Word) (s : State) : (raiseError o e x s).inputs = s.inputs := by cases o <;> rfl
@[simp] theorem raiseError_sched (o : Output) (e : Err) (x : Word) (s : State) : (raiseError o e x s).sched = s.sched := by cases o <;> rfl
@[simp] theorem raiseError_log (o : Output) (e : Err) (x : Word) (s : State) : (raiseError o e x s).log = s.log := by cases o <;> rfl
@[simp] theorem raiseError_draw (o : Output) (e : Err) (x : Word) (s : State) : (raiseError o e x s).draw = s.draw := by cases o <;> rfl

@[simp] theorem issue_symLen (w : Word) (s : State) : (issue w s).symLen = s.symLen := by
  unfold issue
  split <;> rfl
@[simp] theorem issue_bitLen (w : Word) (s : State) : (issue w s).bitLen = s.bitLen := by
  unfold issue
  split <;> rfl
@[simp] theorem issue_symcap (w : Word) (s : State) : (issue w s).symcap = s.symcap := by
  unfold issue
  split <;> rfl
@[simp] theorem issue_bitcap (w : Word) (s : State) : (issue w s).bitcap = s.bitcap := by
  unfold issue
  split <;> rfl
@[simp] theorem issue_fault (w : Word) (s : State) : (issue w s).fault = s.fault := by
  unfold issue
  split <;> rfl
@[simp] theorem issue_ovr (w : Word) (s : State) : (issue w s).ovr = s.ovr := by
  unfold issue
  split <;> rfl
@[simp] theorem issue_err (w : Word) (s : State) : (issue w s).err = s.err := by
  unfold issue
  split <;> rfl
@[simp] theorem issue_errinfo (w : Word) (s : State) : (issue w s).errinfo = s.errinfo := by
  unfold issue
  split <;> rfl
@[simp] theorem issue_freq (w : Word) (s : State) : (issue w s).freq = s.freq := by
  unfold issue
  split <;> rfl
@[simp] theorem issue_node (w : Word) (s : State) : (issue w s).node = s.node := by
  unfold issue
  split <;> rfl
@[simp] theorem issue_codelen (w : Word) (s : State) : (issue w s).codelen = s.codelen := by
  unfold issue
  split <;> rfl
@[simp] theorem issue_codebits (w : Word) (s : State) : (issue w s).codebits = s.codebits := by
  unfold issue
  split <;> rfl
@[simp] theorem issue_symbuf (w : Word) (s : State) : (issue w s).symbuf = s.symbuf := by
  unfold issue
  split <;> rfl
@[simp] theorem issue_bitbuf (w : Word) (s : State) : (issue w s).bitbuf = s.bitbuf := by
  unfold issue
  split <;> rfl
@[simp] theorem issue_inputs (w : Word) (s : State) : (issue w s).inputs = s.inputs := by
  unfold issue
  split <;> rfl
@[simp] theorem issue_sched (w : Word) (s : State) : (issue w s).sched = s.sched := by
  unfold issue
  split <;> rfl
@[simp] theorem issue_log (w : Word) (s : State) : (issue w s).log = s.log := by
  unfold issue
  split <;> rfl
@[simp] theorem issue_draw (w : Word) (s : State) : (issue w s).draw = s.draw := by
  unfold issue
  split <;> rfl

@[simp] theorem buildUnlessEmpty_symLen (s : State) : (buildUnlessEmpty s).symLen = s.symLen := by
  unfold buildUnlessEmpty
  split <;> rfl
@[simp] theorem buildUnlessEmpty_bitLen (s : State) : (buildUnlessEmpty s).bitLen = s.bitLen := by
  unfold buildUnlessEmpty
  split <;> rfl
@[simp] theorem buildUnlessEmpty_symcap (s : State) : (buildUnlessEmpty s).symcap = s.symcap := by
  unfold buildUnlessEmpty
  split <;> rfl
@[simp] theorem buildUnlessEmpty_bitcap (s : State) : (buildUnlessEmpty s).bitcap = s.bitcap := by
  unfold buildUnlessEmpty
  split <;> rfl
@[simp] theorem buildUnlessEmpty_running (s : State) : (buildUnlessEmpty s).running = s.running := by
  unfold buildUnlessEmpty
  split <;> rfl
@[simp] theorem buildUnlessEmpty_fault (s : State) : (buildUnlessEmpty s).fault = s.fault := by
  unfold buildUnlessEmpty
  split <;> rfl
@[simp] theorem buildUnlessEmpty_ovr (s : State) : (buildUnlessEmpty s).ovr = s.ovr := by
  unfold buildUnlessEmpty
  split <;> rfl
@[simp] theorem buildUnlessEmpty_err (s : State) : (buildUnlessEmpty s).err = s.err := by
  unfold buildUnlessEmpty
  split <;> rfl
@[simp] theorem buildUnlessEmpty_errinfo (s : State) : (buildUnlessEmpty s).errinfo = s.errinfo := by
  unfold buildUnlessEmpty
  split <;> rfl
@[simp] theorem buildUnlessEmpty_freq (s : State) : (buildUnlessEmpty s).freq = s.freq := by
  unfold buildUnlessEmpty
  split <;> rfl
@[simp] theorem buildUnlessEmpty_codelen (s : State) : (buildUnlessEmpty s).codelen = s.codelen := by
  unfold buildUnlessEmpty
  split <;> rfl
@[simp] theorem buildUnlessEmpty_codebits (s : State) : (buildUnlessEmpty s).codebits = s.codebits := by
  unfold buildUnlessEmpty
  split <;> rfl
@[simp] theorem buildUnlessEmpty_symbuf (s : State) : (buildUnlessEmpty s).symbuf = s.symbuf := by
  unfold buildUnlessEmpty
  split <;> rfl
@[simp] theorem buildUnlessEmpty_bitbuf (s : State) : (buildUnlessEmpty s).bitbuf = s.bitbuf := by
  unfold buildUnlessEmpty
  split <;> rfl
@[simp] theorem buildUnlessEmpty_inputs (s : State) : (buildUnlessEmpty s).inputs = s.inputs := by
  unfold buildUnlessEmpty
  split <;> rfl
@[simp] theorem buildUnlessEmpty_sched (s : State) : (buildUnlessEmpty s).sched = s.sched := by
  unfold buildUnlessEmpty
  split <;> rfl
@[simp] theorem buildUnlessEmpty_log (s : State) : (buildUnlessEmpty s).log = s.log := by
  unfold buildUnlessEmpty
  split <;> rfl
@[simp] theorem buildUnlessEmpty_draw (s : State) : (buildUnlessEmpty s).draw = s.draw := by
  unfold buildUnlessEmpty
  split <;> rfl

theorem resetOf_symcap (p : Params) : (State.resetOf p).symcap = BitVec.ofNat 32 p.symCap := rfl
theorem resetOf_bitcap (p : Params) : (State.resetOf p).bitcap = BitVec.ofNat 32 p.bitCap := rfl

end Sys2Proof.Machine
end

