-- ==== Sys2Proof/Laws/Exec.lean ====
section
/-! SUPPORT. One inversion lemma for each shared operation: how the decoder and encoder loops can end, and every way
each command can go from a state to the next. Later proofs cite these and do not unfold the commands. -/

namespace Sys2Proof.Machine

/-- Every way one turn of the decoder loop can go. -/
theorem decodeLoop_cons {σ : Type} (move : Nat → σ → Bool → Move σ) (root : σ) (cap : Nat) (b : Bool)
    (bs : BitString) (p : Nat) (x : σ) (start : Nat) (out : List Sym) :
    (move p x b = .noPath ∧
      decodeLoop move root cap (b :: bs) p x start out = .failed .invalidCode (position p)) ∨
    (∃ y, move p x b = .inside y ∧
      decodeLoop move root cap (b :: bs) p x start out = decodeLoop move root cap bs (p + 1) y start out) ∨
    (∃ c, move p x b = .emit c ∧ out.length = cap ∧
      decodeLoop move root cap (b :: bs) p x start out = .failed .capacity (position p)) ∨
    (∃ c, move p x b = .emit c ∧ out.length ≠ cap ∧
      decodeLoop move root cap (b :: bs) p x start out =
        decodeLoop move root cap bs (p + 1) root (p + 1) (out ++ [c])) := by
  cases h : move p x b with
  | noPath => exact .inl ⟨rfl, by simp [decodeLoop, h]⟩
  | inside y => exact .inr (.inl ⟨y, rfl, by simp [decodeLoop, h]⟩)
  | emit c =>
    by_cases hc : out.length = cap
    · exact .inr (.inr (.inl ⟨c, rfl, hc, by simp [decodeLoop, h, hc]⟩))
    · exact .inr (.inr (.inr ⟨c, rfl, hc, by simp [decodeLoop, h, hc]⟩))

/-- A decoder loop that ends well has emitted at most the capacity. -/
theorem decodeLoop_length {σ : Type} {move : Nat → σ → Bool → Move σ} {root : σ} {cap : Nat} :
    ∀ (bs : BitString) {p : Nat} {x : σ} {start : Nat} {out r : List Sym}, out.length ≤ cap →
      decodeLoop move root cap bs p x start out = .done r → r.length ≤ cap := by
  intro bs
  induction bs with
  | nil =>
    intro p x start out r ho h
    unfold decodeLoop at h
    split at h
    · cases h
    · cases h; exact ho
  | cons b bs ih =>
    intro p x start out r ho h
    rcases decodeLoop_cons move root cap b bs p x start out with ⟨-, e⟩ | ⟨y, -, e⟩ | ⟨c, -, -, e⟩ | ⟨c, -, hc, e⟩ <;>
      rw [e] at h
    · cases h
    · exact ih ho h
    · cases h
    · exact ih (by simp; omega) h

/-- The errors a decoder loop can end with (60_exceptions.md R211). -/
theorem decodeLoop_errors {σ : Type} {move : Nat → σ → Bool → Move σ} {root : σ} {cap : Nat} :
    ∀ (bs : BitString) {p : Nat} {x : σ} {start : Nat} {out : List Sym} {e : Err} {info : Word},
      decodeLoop move root cap bs p x start out = .failed e info →
      e = .capacity ∨ e = .invalidCode ∨ e = .truncatedStream := by
  intro bs
  induction bs with
  | nil =>
    intro p x start out e info h
    unfold decodeLoop at h
    split at h <;> cases h
    exact .inr (.inr rfl)
  | cons b bs ih =>
    intro p x start out e info h
    rcases decodeLoop_cons move root cap b bs p x start out with ⟨-, k⟩ | ⟨y, -, k⟩ | ⟨c, -, -, k⟩ | ⟨c, -, -, k⟩ <;>
      rw [k] at h
    · cases h; exact .inr (.inl rfl)
    · exact ih h
    · cases h; exact .inl rfl
    · exact ih h

/-- Every way one turn of the encoder loop can go. -/
theorem encodeLoop_cons (s : State) (i : Nat) (is : List Nat) (acc : BitString) :
    (s.codelenAt (s.symAt i) = 0 ∧ encodeLoop s (i :: is) acc = .failed .unknownSymbol (position i)) ∨
    (s.codelenAt (s.symAt i) ≠ 0 ∧ acc.length + (s.codelenAt (s.symAt i)).toNat > s.bitcap.toNat ∧
      encodeLoop s (i :: is) acc = .failed .capacity (position i)) ∨
    (s.codelenAt (s.symAt i) ≠ 0 ∧ acc.length + (s.codelenAt (s.symAt i)).toNat ≤ s.bitcap.toNat ∧
      encodeLoop s (i :: is) acc = encodeLoop s is (acc ++ s.codeOf i (s.symAt i))) := by
  by_cases h : s.codelenAt (s.symAt i) = 0
  · exact .inl ⟨h, if_pos h⟩
  · by_cases h2 : acc.length + (s.codelenAt (s.symAt i)).toNat > s.bitcap.toNat
    · exact .inr (.inl ⟨h, h2, (if_neg h).trans (if_pos h2)⟩)
    · exact .inr (.inr ⟨h, by omega, (if_neg h).trans (if_neg h2)⟩)

@[simp] theorem codeOf_length (s : State) (t : Nat) (c : Sym) : (s.codeOf t c).length = (s.codelenAt c).toNat := by
  simp [State.codeOf]

/-- An encoder loop that ends well has written at most BIT_CAP bits. -/
theorem encodeLoop_length (s : State) : ∀ (is : List Nat) {acc r : BitString}, acc.length ≤ s.bitcap.toNat →
    encodeLoop s is acc = .done r → r.length ≤ s.bitcap.toNat := by
  intro is
  induction is with
  | nil => intro acc r ha h; cases h; exact ha
  | cons i is ih =>
    intro acc r ha h
    rcases encodeLoop_cons s i is acc with ⟨-, e⟩ | ⟨-, -, e⟩ | ⟨-, hl, e⟩ <;> rw [e] at h
    · cases h
    · cases h
    · exact ih (by simpa using hl) h

/-- The errors an encoder loop can end with (60_exceptions.md R211). -/
theorem encodeLoop_errors (s : State) : ∀ (is : List Nat) {acc : BitString} {e : Err} {info : Word},
    encodeLoop s is acc = .failed e info → e = .capacity ∨ e = .unknownSymbol := by
  intro is
  induction is with
  | nil => intro acc e info h; cases h
  | cons i is ih =>
    intro acc e info h
    rcases encodeLoop_cons s i is acc with ⟨-, k⟩ | ⟨-, -, k⟩ | ⟨-, -, k⟩ <;> rw [k] at h
    · cases h; exact .inr rfl
    · cases h; exact .inl rfl
    · exact ih h

theorem execCount_cases {s t : State} (h : execCount s = .next t) :
    (s.symLen.toNat > s.symcap.toNat ∧ t = raiseError .frequencies .capacity overCapacity s) ∨
    (s.symLen.toNat ≤ s.symcap.toNat ∧ t = endCommand (countBody s)) := by
  unfold execCount at h
  split at h <;> cases h
  · exact .inl ⟨‹_›, rfl⟩
  · exact .inr ⟨by omega, rfl⟩

theorem execBuild_cases {s t : State} (h : execBuild s = .next t) :
    (tableEmpty s.freq = true ∧ t = raiseError .tree .invalidInput 0 s) ∨
    (tableEmpty s.freq = false ∧ t = endCommand (buildBody s)) := by
  unfold execBuild at h
  cases he : tableEmpty s.freq <;> rw [he] at h <;> cases h
  · exact .inr ⟨rfl, rfl⟩
  · exact .inl ⟨rfl, rfl⟩

theorem execMktable_cases {s t : State} (h : execMktable s = .next t) :
    (s.symLen.toNat > s.symcap.toNat ∧ t = raiseError .allTables .capacity overCapacity s) ∨
    (s.symLen.toNat ≤ s.symcap.toNat ∧ t = endCommand (deriveBody (buildUnlessEmpty (countBody s)))) := by
  unfold execMktable at h
  split at h <;> cases h
  · exact .inl ⟨‹_›, rfl⟩
  · exact .inr ⟨by omega, rfl⟩

theorem execEncode_cases {s t : State} (h : execEncode s = .next t) :
    (s.symLen.toNat > s.symcap.toNat ∧ t = raiseError .bitstream .capacity overCapacity s) ∨
    (∃ p, s.symLen.toNat ≤ s.symcap.toNat ∧ encodeLoop s (List.range s.symLen.toNat) [] = .done p ∧
      t = endCommand { s with bitbuf := storeBits p s.bitbuf, bitLen := BitVec.ofNat 32 p.length }) ∨
    (∃ e info, s.symLen.toNat ≤ s.symcap.toNat ∧ encodeLoop s (List.range s.symLen.toNat) [] = .failed e info ∧
      t = raiseError .bitstream e info s) := by
  unfold execEncode at h
  split at h
  · cases h; exact .inl ⟨‹_›, rfl⟩
  · split at h <;> cases h
    · exact .inr (.inl ⟨_, by omega, ‹_›, rfl⟩)
    · exact .inr (.inr ⟨_, _, by omega, ‹_›, rfl⟩)

/-- How the end of a decoder goes. -/
theorem storeSymbols_cases (r : Ending (List Sym)) (s : State) :
    (∃ out, r = .done out ∧ storeSymbols r s =
      endCommand { s with symbuf := s.symbuf.writeFrom 0 out, symLen := BitVec.ofNat 32 out.length }) ∨
    (∃ e info, r = .failed e info ∧ storeSymbols r s = raiseError .symbols e info s) := by
  cases r with
  | done out => exact .inl ⟨out, rfl, rfl⟩
  | failed e info => exact .inr ⟨e, info, rfl, rfl⟩

/-- The ending of DECODE's loop in a state. -/
abbrev decodeEnding (s : State) : Ending (List Sym) :=
  decodeLoop (fun _ cur b => treeMove s.node cur b) (s.node.length - 1) s.symcap.toNat s.bits 0 (s.node.length - 1) 0 []

/-- The ending of DECODEC's loop in a state. -/
abbrev decodecEnding (s : State) : Ending (List Sym) :=
  decodeLoop (tableMove s) [] s.symcap.toNat s.bits 0 [] 0 []

theorem execDecode_cases {s t : State} (h : execDecode s = .next t) :
    (s.bitLen.toNat > s.bitcap.toNat ∧ t = raiseError .symbols .capacity overCapacity s) ∨
    (s.bitLen.toNat ≤ s.bitcap.toNat ∧ t = storeSymbols (decodeEnding s) s) := by
  unfold execDecode at h
  split at h <;> cases h
  · exact .inl ⟨‹_›, rfl⟩
  · exact .inr ⟨by omega, rfl⟩

theorem execDecodec_cases {s t : State} (h : execDecodec s = .next t) :
    (s.bitLen.toNat > s.bitcap.toNat ∧ t = raiseError .symbols .capacity overCapacity s) ∨
    (s.bitLen.toNat ≤ s.bitcap.toNat ∧ t = storeSymbols (decodecEnding s) s) := by
  unfold execDecodec at h
  split at h <;> cases h
  · exact .inl ⟨‹_›, rfl⟩
  · exact .inr ⟨by omega, rfl⟩

end Sys2Proof.Machine
end

