-- ==== Sys2Proof/Laws/PerInstr.lean ====
section
/-! SUPPORT. What holds of every command as syntax, one lemma a constructor. -/

namespace Sys2Proof.Laws

/-- Format C (30_encoding.md R91, R93): the word of a well-formed command has ZERO = 0, and its OPCODE is the
command's, 0 to 9. -/
def FormatC.Statement (i : Instr) : Prop :=
  i.wellFormed = true ∧ zeroField (encode i) = 0 ∧ opcodeField (encode i) = opcodeOf i ∧ (opcodeOf i).toNat ≤ 9

theorem FormatC.nop : FormatC.Statement .nop := by unfold FormatC.Statement; decide
theorem FormatC.count : FormatC.Statement .count := by unfold FormatC.Statement; decide
theorem FormatC.build : FormatC.Statement .build := by unfold FormatC.Statement; decide
theorem FormatC.derive : FormatC.Statement .derive := by unfold FormatC.Statement; decide
theorem FormatC.encode : FormatC.Statement .encode := by unfold FormatC.Statement; decide
theorem FormatC.decode : FormatC.Statement .decode := by unfold FormatC.Statement; decide
theorem FormatC.decodec : FormatC.Statement .decodec := by unfold FormatC.Statement; decide
theorem FormatC.mktable : FormatC.Statement .mktable := by unfold FormatC.Statement; decide
theorem FormatC.clrf : FormatC.Statement .clrf := by unfold FormatC.Statement; decide
theorem FormatC.srst : FormatC.Statement .srst := by unfold FormatC.Statement; decide

end Sys2Proof.Laws
end

