-- ==== Sys2Proof/Laws/Step.lean ====
section
/-! SUPPORT. Every way a step can go to a next state, and every way a host operation can. -/

namespace Sys2Proof.Machine

/-- Whose turn it is, by cases. -/
theorem turn_cases (s : State) :
    (s.running = none ∧ s.inputs = [] ∧ turn s = .idle) ∨
    (∃ i rest, s.running = none ∧ s.inputs = i :: rest ∧ turn s = .input i rest) ∨
    (∃ w i rest sch, s.running = some w ∧ s.inputs = i :: rest ∧ s.sched = .host :: sch ∧ turn s = .input i rest) ∨
    (∃ w, s.running = some w ∧ (s.inputs = [] ∨ s.sched.head? ≠ some .host) ∧ turn s = .engine w) := by
  rcases hr : s.running with _ | w <;> rcases hi : s.inputs with _ | ⟨i, rest⟩ <;>
    rcases hs : s.sched with _ | ⟨a, sch⟩ <;> try cases a
  all_goals simp [turn, hr, hi, hs]

/-- A step to a next state is one of three. -/
theorem step_cases {s t : State} (h : step s = .next t) :
    (∃ w, turn s = .engine w ∧ engineStep w (takeTurn s) = .next t) ∨
    (∃ i rest, turn s = .input i rest ∧ inputStep i rest (takeTurn s) = .next t) ∨
    (turn s = .idle ∧ t = s) := by
  unfold step at h
  split at h
  · exact .inl ⟨_, ‹_›, h⟩
  · exact .inr (.inl ⟨_, _, ‹_›, h⟩)
  · cases h; exact .inr (.inr ⟨‹_›, rfl⟩)

/-- The engine's turn is a command's meaning or the error of an illegal word. -/
theorem engineStep_cases {w : Word} {s t : State} (h : engineStep w s = .next t) :
    (∃ i, decode w = .command i ∧ exec i s = .next t) ∨
    (∃ why, decode w = .illegal why ∧ t = illegalCommand w s) := by
  unfold engineStep at h
  split at h
  · exact .inl ⟨_, ‹_›, h⟩
  · cases h; exact .inr ⟨_, ‹_›, rfl⟩

/-- What an input does: a write at the port, a read on record, a poll that waits on, the end of a wait, or a reset. -/
theorem inputStep_cases {i : Input} {rest : List Input} {s t : State} (h : inputStep i rest s = .next t) :
    (∃ a v, t = portWrite { s with inputs := rest } a v) ∨
    (∃ a c, t = recordRead { s with inputs := rest } a c) ∨
    (i = .op .wait ∧ (t = s ∨ t = { s with inputs := rest })) ∨
    (i = .reset ∧ t = resetEvent { s with inputs := rest }) := by
  cases i with
  | reset => cases h; exact .inr (.inr (.inr ⟨rfl, rfl⟩))
  | op o =>
    cases o with
    | wr a v => cases h; exact .inl ⟨_, _, rfl⟩
    | cmd k => cases h; exact .inl ⟨_, _, rfl⟩
    | rd a => cases h; exact .inr (.inl ⟨_, _, rfl⟩)
    | expect a v => cases h; exact .inr (.inl ⟨_, _, rfl⟩)
    | wait =>
      simp only [inputStep, hostStep] at h
      split at h <;> cases h
      · exact .inr (.inr (.inl ⟨rfl, .inl rfl⟩))
      · exact .inr (.inr (.inl ⟨rfl, .inr rfl⟩))
    | busRd b n =>
      simp only [inputStep, hostStep] at h
      split at h <;> cases h
      exact .inr (.inl ⟨_, _, rfl⟩)
    | busWr b n v =>
      simp only [inputStep, hostStep] at h
      split at h <;> cases h
      exact .inl ⟨_, _, rfl⟩

/-- What a write at the port can do: set OVR while BUSY is 1; else issue a command, or store in one location. -/
theorem portWrite_cases (s : State) (a : Addr) (v : Word) :
    (s.busy = true ∧ portWrite s a v = { s with ovr := true }) ∨
    (s.busy = false ∧ s.locOf a = .cmd ∧ portWrite s a v = issue v s) ∨
    (s.busy = false ∧ s.locOf a ≠ .cmd ∧ portWrite s a v = writeLoc s v (s.locOf a)) := by
  unfold portWrite
  cases hb : s.busy with
  | true => simp
  | false =>
    by_cases hl : s.locOf a = .cmd
    · simp [hl, writeLoc]
    · simp [hl]

/-- A register's location is no memory's. -/
theorem registerLoc_ne (n : Nat) :
    (∀ x, registerLoc n ≠ .codebits x) ∧ (∀ i, registerLoc n ≠ .symbuf i) ∧ (∀ q, registerLoc n ≠ .bitbuf q) := by
  unfold registerLoc
  split <;> simp

/-- What a location of a memory says of the address: its window and the capacity (20_memory.md R66). -/
theorem locate_memory {sc bc : Nat} {a : Addr} :
    (∀ x, locate sc bc a = .codebits x → a.toNat = 0x00800 + x ∧ x < 2048) ∧
    (∀ i, locate sc bc a = .symbuf i → a.toNat = 0x10000 + i ∧ i < sc) ∧
    (∀ q, locate sc bc a = .bitbuf q → a.toNat = 0x20000 + q ∧ q < bc / 32) := by
  obtain ⟨r1, r2, r3⟩ := registerLoc_ne a.toNat
  unfold locate
  dsimp only
  generalize a.toNat = n at *
  generalize registerLoc n = r at *
  refine ⟨fun x => ?_, fun i => ?_, fun q => ?_⟩ <;> intro h <;>
    (by_cases h1 : n < 0x00100
     · rw [if_pos h1] at h; first | exact absurd h (r1 _) | exact absurd h (r2 _) | exact absurd h (r3 _)
     rw [if_neg h1] at h
     by_cases h2 : n < 0x00200
     · rw [if_pos h2] at h; cases h
     rw [if_neg h2] at h
     by_cases h3 : n < 0x00300
     · rw [if_pos h3] at h; cases h
     rw [if_neg h3] at h
     by_cases h4 : n < 0x00800
     · rw [if_pos h4] at h; cases h
     rw [if_neg h4] at h
     by_cases h5 : n < 0x01000
     · rw [if_pos h5] at h; first | (injection h with h; omega) | cases h
     rw [if_neg h5] at h
     by_cases h6 : n < 0x01800
     · rw [if_pos h6] at h; cases h
     rw [if_neg h6] at h
     by_cases h7 : n < 0x10000
     · rw [if_pos h7] at h; cases h
     rw [if_neg h7] at h
     by_cases h8 : n < 0x20000
     · rw [if_pos h8] at h
       by_cases h9 : n - 0x10000 < sc
       · rw [if_pos h9] at h; first | (injection h with h; omega) | cases h
       · rw [if_neg h9] at h; cases h
     rw [if_neg h8] at h
     by_cases h10 : n < 0x30000
     · rw [if_pos h10] at h
       by_cases h11 : n - 0x20000 < bc / 32
       · rw [if_pos h11] at h; first | (injection h with h; omega) | cases h
       · rw [if_neg h11] at h; cases h
     rw [if_neg h10] at h
     cases h)

/-! What the host does to the idle block, and the accesses of a wrapper. -/

/-- With a host operation first among the inputs of the idle block, the step is that operation. -/
theorem step_of_idle_op {s : State} {o : HostOp} {rest : List Input} (hr : s.running = none)
    (hi : s.inputs = .op o :: rest) : step s = hostStep o rest { s with draw := s.draw + 1 } := by
  have ht : turn s = .input (.op o) rest := by unfold turn; rw [hr, hi]
  have hs : takeTurn s = { s with draw := s.draw + 1 } := by simp [takeTurn, State.busy, hr]
  unfold step
  rw [ht, ← hs]
  rfl

/-- The wrapper's access to a word of the port is accepted. -/
@[simp] theorem wrapperAccepts_word (a : Addr) : wrapperAccepts (4 * a.toNat) 4 = true := by
  have := a.isLt
  simp [wrapperAccepts]
  omega

@[simp] theorem wrapperAddr_word (a : Addr) : wrapperAddr (4 * a.toNat) = a := by simp [wrapperAddr]

theorem wrapperAccepts_eq_false {b n : Nat} (h : noWordAccess b n) : wrapperAccepts b n = false := by
  unfold noWordAccess at h
  simp [wrapperAccepts]
  omega

/-- A host read of the idle block records what the port reads, in each of its forms. -/
theorem step_of_idle_read {s : State} {o : HostOp} {a : Addr} {claim : Option Word} {rest : List Input}
    (hr : s.running = none) (ho : o.isReadOf a claim) (hi : s.inputs = .op o :: rest) :
    step s = .next (recordRead { s with inputs := rest, draw := s.draw + 1 } a claim) := by
  rw [step_of_idle_op hr hi]
  rcases ho with ⟨rfl, rfl⟩ | ⟨v, rfl, rfl⟩ | ⟨rfl, rfl⟩
  · rfl
  · rfl
  · simp only [hostStep, wrapperAccepts_word, wrapperAddr_word]; rfl

/-- A host write of the idle block is the port's write, in each of its forms. -/
theorem step_of_idle_write {s : State} {o : HostOp} {a : Addr} {v : Word} {rest : List Input}
    (hr : s.running = none) (ho : o.isWriteOf a v) (hi : s.inputs = .op o :: rest) :
    step s = .next (portWrite { s with inputs := rest, draw := s.draw + 1 } a v) := by
  rw [step_of_idle_op hr hi]
  rcases ho with rfl | ⟨i, rfl, rfl, rfl⟩ | rfl
  · rfl
  · rfl
  · simp only [hostStep, wrapperAccepts_word, wrapperAddr_word]; rfl

/-- In a prefix-free table DECODEC takes the code of every entry. -/
theorem taken_of_prefixFree {s : State} (h : s.prefixFree) {c : Sym} (hc : s.codelenAt c ≠ 0) : s.taken c := by
  refine ⟨hc, fun d hd he => ?_, fun d hd hp => ?_⟩
  · have hl : (s.codelenAt d).toNat = (s.codelenAt c).toNat := by
      rw [← codeOf_length s 0 d, he, codeOf_length]
    have hd0 : s.codelenAt d ≠ 0 := by rw [BitVec.eq_of_toNat_eq hl]; exact hc
    exact h d c (fun e => absurd hd (by rw [e]; exact Nat.lt_irrefl _)) hd0 hc (he ▸ List.prefix_rfl)
  · by_contra hn
    exact h d c (fun e => hn (by rw [e])) hd hc hp

end Sys2Proof.Machine
end

