-- ==== Sys2Proof/Machine/Script.lean ====
section
/-! DEFINITION. The pseudo-operations of host scripts (30_encoding.md R100) and the document's three
operations as host programs (R101), each as the list of host operations it stands for. -/

namespace Sys2Proof.Machine

/-- `RUN mnemonic`. -/
def runOp (i : Instr) : List HostOp := [.cmd i, .wait]

/-- The writes of `LOADSYM`, from SYMBUF[i] on. -/
def symbolWrites : Nat → List Sym → List HostOp
  | _, [] => []
  | i, c :: cs => .wr (addrSymbuf i) (c.setWidth 32) :: symbolWrites (i + 1) cs

/-- `LOADSYM b0 b1 ...`. DESIGN CHOICE (log entry 16): more than 65536 symbols go on past the SYMBUF window. -/
def loadSym (cs : List Sym) : List HostOp :=
  symbolWrites 0 cs ++ [.wr addrSymLen (BitVec.ofNat 32 cs.length)]

/-- `LOADBITS "bits"`: the words with their padding positions 0, then BIT_LEN. DESIGN CHOICE (log entry 16): more than
65536 words go on past the BITBUF window. -/
def loadBits (p : BitString) : List HostOp :=
  (List.range (wordsFor p.length)).map (fun q => HostOp.wr (addrBitbuf q) (packWord p q)) ++
    [.wr addrBitLen (BitVec.ofNat 32 p.length)]

/-- `SETFREQ s, c`. -/
def setFreq (c : Sym) (n : Word) : List HostOp := [.wr (addrFreq c) n]

/-- `SETCODE s, "bits"`, 1 ≤ L ≤ 255 (codeWellFormed): all eight words, then CODELEN. DESIGN CHOICE (log entry 16)
for any other length. -/
def setCode (c : Sym) (p : BitString) : List HostOp :=
  (List.range 8).map (fun w => HostOp.wr (addrCodebits c w) (packWord p w)) ++
    [.wr (addrCodelen c) (BitVec.ofNat 32 p.length)]

/-- `CLRCODE s`. -/
def clrCode (c : Sym) : List HostOp := [.wr (addrCodelen c) 0]

/-- How an operation of the document ended: success, or its typed failure (30_encoding.md R101). -/
inductive OpResult where
  | success
  | failure (e : Err)
  deriving DecidableEq, Repr

/-- What a STATUS word read after a RUN says: FAULT = 0 is success, FAULT = 1 with ERR the typed failure
(30_encoding.md R101). None for a word no read returns: FAULT = 1 with an ERR that names no error. -/
def opResult (status : Word) : Option OpResult :=
  if status.getLsbD 1 then (Err.ofCode (status.extractLsb' 4 4)).map .failure else some .success

/-- The result of the last operation performed, as the host collects it: from its newest read of STATUS
(30_encoding.md R101). -/
def lastResult (s : State) : Option OpResult := (s.log.find? fun r => r.addr == addrStatus).bind fun r => opResult r.value

/-- "After each `RUN` the host reads STATUS" (30_encoding.md R101). -/
def runAndRead (i : Instr) : List HostOp := runOp i ++ [.rd addrStatus]

/-- `build_code_table(input)` (30_encoding.md R101). -/
def buildCodeTable (cs : List Sym) : List HostOp := loadSym cs ++ runAndRead .mktable

/-- `encode(input, table)` (30_encoding.md R101): `outside` lists the entries of a table that comes from outside, each
written by SETCODE; it is empty when the table is the one in CODELEN and CODEBITS. -/
def encodeProgram (outside : List (Sym × BitString)) (cs : List Sym) : List HostOp :=
  loadSym cs ++ outside.flatMap (fun x => setCode x.1 x.2) ++ runAndRead .encode

/-- `decode(bits, tree)` with the tree in NODE (30_encoding.md R101). -/
def decodeTreeProgram (p : BitString) : List HostOp := loadBits p ++ runAndRead .decode

/-- `decode(bits, table)` with the table in CODELEN and CODEBITS (30_encoding.md R101). -/
def decodeTableProgram (p : BitString) : List HostOp := loadBits p ++ runAndRead .decodec

end Sys2Proof.Machine
end

