-- ==== Sys2Proof/Tests/Slice0.lean ====
section
/-! SUPPORT. Tests, each with its expected result taken from the spec (the vectors of 95_test_vectors.md are named
by number), and for each obligation with hypotheses a witness that meets them together. -/

set_option Elab.async false

namespace Sys2Proof.Tests

open Sys2Proof Sys2Proof.Machine

/-! ## Ill-formed terms, one for each check -/

theorem smoke_symCap_zero : Params.wellFormed ⟨0, 2097152⟩ = false := by decide
theorem smoke_symCap_over : Params.wellFormed ⟨65537, 2097152⟩ = false := by decide
theorem smoke_bitCap_under : Params.wellFormed ⟨4, 224⟩ = false := by decide
theorem smoke_bitCap_over : Params.wellFormed ⟨4, 2097184⟩ = false := by decide
theorem smoke_bitCap_not_words : Params.wellFormed ⟨4, 257⟩ = false := by decide
theorem smoke_defaults_pass : Params.wellFormed Config.defaults = true := by decide
theorem smoke_code_empty : codeWellFormed [] = false := by decide
theorem smoke_code_too_long : codeWellFormed (List.replicate 256 true) = false := by decide +kernel
theorem smoke_program_no_wait : programWellFormed [.cmd .nop] = false := by decide
theorem smoke_program_write_before_wait : programWellFormed [.cmd .nop, .wr addrSymLen 0, .wait] = false := by decide
theorem smoke_program_read_before_wait : programWellFormed [.cmd .nop, .rd addrErrinfo, .wait] = false := by decide
theorem smoke_program_polls_pass :
    programWellFormed [.cmd .count, .rd addrStatus, .wait, .rd addrErrinfo] = true := by decide
theorem smoke_no_ill_formed_command : Instr.all.all Instr.wellFormed = true := by decide

/-! ## Decoding: each command's word, bit by bit from 30_encoding.md R91 and R93 -/

theorem decode_nop : decode 0b00000000000000000000000000000000#32 = .command .nop := by decide
theorem decode_count : decode 0b00000000000000000000000000000001#32 = .command .count := by decide
theorem decode_build : decode 0b00000000000000000000000000000010#32 = .command .build := by decide
theorem decode_derive : decode 0b00000000000000000000000000000011#32 = .command .derive := by decide
theorem decode_encode : decode 0b00000000000000000000000000000100#32 = .command .encode := by decide
theorem decode_decode : decode 0b00000000000000000000000000000101#32 = .command .decode := by decide
theorem decode_decodec : decode 0b00000000000000000000000000000110#32 = .command .decodec := by decide
theorem decode_mktable : decode 0b00000000000000000000000000000111#32 = .command .mktable := by decide
theorem decode_clrf : decode 0b00000000000000000000000000001000#32 = .command .clrf := by decide
theorem decode_srst : decode 0b00000000000000000000000000001001#32 = .command .srst := by decide
theorem decode_reserved : decode 0b00000000000000000000000000001010#32 = .illegal .reservedOpcode := by decide
theorem decode_last_reserved : decode 0b00000000000000000000000011111111#32 = .illegal .reservedOpcode := by decide
theorem decode_zero_field : decode 0b00000000000000000000000100000001#32 = .illegal .zeroField := by decide
theorem decode_top_bit : decode 0b10000000000000000000000000000111#32 = .illegal .zeroField := by decide

theorem decodeTableWord_rows :
    (List.range 11).map (decodeTableWord 32) = (Instr.all.map some) ++ [none] := by decide
theorem decodeTableWord_short : decodeTableWord 8 0x107 = some .mktable := by decide

/-- Every row of the opcode table runs as the first command after reset. -/
theorem withFetchWord_runs : (List.range 10).all (fun w =>
    match step (State.reset.withFetchWord 32 w) with
    | .next t => !t.busy
    | .fault _ => false
    | .refused _ => false) = true := by decide +kernel

/-! ## Small states -/

/-- The state a command goes to. -/
def after (i : Instr) (s : State) : State :=
  match exec i s with
  | .next t => t
  | .fault _ => s
  | .refused _ => s

/-- The reset state after LOADSYM. -/
def loaded (cs : List Sym) : State :=
  { State.reset with symLen := BitVec.ofNat 32 cs.length, symbuf := (List.range cs.length).zip cs }

/-- `s` after LOADBITS of at most 32 bits, given as the word that holds them and their number. -/
def withBits (w : Word) (n : Nat) (s : State) : State :=
  { s with bitbuf := [(0, w)], bitLen := BitVec.ofNat 32 n }

/-- `s` after SETCODE of a code of at most 32 bits, given as its word 0 and its length. -/
def withCode (c : Sym) (w : Word) (n : Nat) (s : State) : State :=
  { s with codelen := s.codelen.set c.toNat (BitVec.ofNat 8 n) c.isLt,
           codebits := s.codebits.write (8 * c.toNat) w }

def fooText : List Sym := [0x66, 0x6F, 0x6F]

/-- 95_test_vectors.md 1.3: the tree of "foo". -/
def fooNodes : List Node := [.leaf 0x66 1, .leaf 0x6F 2, .internal 0 1 3]

def fooTree : State := { loaded fooText with node := fooNodes }

/-- 95_test_vectors.md 1.3: f is `0`, o is `1`; the bits are `011`. -/
def fooFull : State := withBits 0x60000000 3 (withCode 0x66 0 1 (withCode 0x6F 0x80000000 1 fooTree))

/-- 95_test_vectors.md 2.2.11: the tree of "aaaa". -/
def oneLeaf : State := { State.reset with node := [.leaf 0x61 4] }

/-- Small buffers: SYM_CAP = 4, BIT_CAP = 256. -/
def small : State := State.resetOf ⟨4, 256⟩

/-! ## The commands -/

theorem test_nop_keeps_state : exec .nop fooFull = .next fooFull := rfl

/-- 95_test_vectors.md 2.1.4. -/
theorem test_count_tallies :
    ((after .count (loaded [0x00, 0xFF, 0x00])).freqAt 0x00, (after .count (loaded [0x00, 0xFF, 0x00])).freqAt 0xFF) =
      (2#32, 1#32) := by decide +kernel

/-- 95_test_vectors.md 2.1.6: 65537 symbols are one too many. -/
theorem test_count_capacity :
    (after .count { State.reset with symLen := 0x00010001 }).statusWord = 0x00000052#32 ∧
      (after .count { State.reset with symLen := 0x00010001 }).errinfo = 0xFFFFFFFF#32 := by decide +kernel

/-- 95_test_vectors.md 2.2.4 ("aabbc"): ties, child order and numbering. -/
theorem test_build_aabbc :
    (after .build { State.reset with
      freq := (((Vector.replicate 256 0).set 0x61 2).set 0x62 2).set 0x63 1 }).node =
      [.leaf 0x61 2, .leaf 0x62 2, .leaf 0x63 1, .internal 2 0 3, .internal 1 3 5] := by decide +kernel

/-- 95_test_vectors.md 1.2. -/
theorem test_build_empty : (after .build State.reset).statusWord = 0x00000012#32 := by decide +kernel

/-- 95_test_vectors.md 2.3.4: b `0`, c `10`, a `11`. -/
theorem test_derive_aabbc :
    [0x61, 0x62, 0x63, 0x64].map (fun c => (after .derive { State.reset with
      node := [.leaf 0x61 2, .leaf 0x62 2, .leaf 0x63 1, .internal 2 0 3, .internal 1 3 5] }).codeOf 0 c) =
      [[true, true], [false], [true, false], []] := by decide +kernel

/-- 95_test_vectors.md 2.3.14: DERIVE clears an entry the host wrote. -/
theorem test_derive_clears :
    (after .derive (withCode 0x7A 0x50000000 4 fooTree)).codelenAt 0x7A = 0#8 ∧
      (after .derive (withCode 0x7A 0x50000000 4 fooTree)).codebits.read (8 * 0x7A) = some 0#32 := by decide +kernel

/-- 95_test_vectors.md 1.3 and 2.4.21: the bits, the zero fill, and the next word left alone. -/
theorem test_encode_foo :
    ((after .encode { fooFull with bitbuf := [(0, 0xFFFFFFFF), (1, 0xFFFFFFFF)] }).bitLen,
      (after .encode { fooFull with bitbuf := [(0, 0xFFFFFFFF), (1, 0xFFFFFFFF)] }).bitbuf) =
      (3#32, [(0, 0x60000000#32), (1, 0xFFFFFFFF#32)]) := by decide +kernel

/-- 60_exceptions.md R230 ("fox"). -/
theorem test_encode_unknown :
    (after .encode { fooFull with symbuf := [(0, 0x66), (1, 0x6F), (2, 0x78)] }).statusWord = 0x00000022#32 ∧
      (after .encode { fooFull with symbuf := [(0, 0x66), (1, 0x6F), (2, 0x78)] }).errinfo = 2#32 := by decide +kernel

/-- 44_decode.md R166: `011` is "foo". -/
theorem test_decode_foo : (after .decode fooFull).symbols = fooText := by decide +kernel

/-- 95_test_vectors.md 2.5.6: a bit 1 with one leaf. -/
theorem test_decode_one_leaf :
    (after .decode (withBits 0x20000000 4 oneLeaf)).statusWord = 0x00000042#32 ∧
      (after .decode (withBits 0x20000000 4 oneLeaf)).errinfo = 2#32 := by decide +kernel

/-- 95_test_vectors.md 2.5.18: of two equal codes the lowest symbol. -/
theorem test_decodec_duplicate :
    (after .decodec (withBits 0x40000000 2
      (withCode 0x61 0 1 (withCode 0x62 0 1 (withCode 0x63 0x80000000 1 State.reset))))).symbols =
      [0x61#8, 0x63#8] := by decide +kernel

/-- 95_test_vectors.md 2.5.21: `00` a, then `01` unfinished. -/
theorem test_decodec_truncated :
    (after .decodec (withBits 0x10000000 4 (withCode 0x61 0 2 (withCode 0x62 0x60000000 3 State.reset)))).statusWord =
      0x00000032#32 ∧
    (after .decodec (withBits 0x10000000 4 (withCode 0x61 0 2 (withCode 0x62 0x60000000 3 State.reset)))).errinfo =
      2#32 := by decide +kernel

/-- 42_derive.md R148, the example ("foo"). -/
theorem test_mktable_foo :
    (after .mktable (loaded fooText)).node = fooNodes ∧
      [0x66, 0x6F, 0x61].map ((after .mktable (loaded fooText)).codeOf 0) = [[false], [true], []] := by decide +kernel

/-- 42_derive.md R148: the empty input removes the old tree. -/
theorem test_mktable_empty :
    (after .mktable { fooFull with symLen := 0 }).nnodes = 0#9 ∧
      (after .mktable { fooFull with symLen := 0 }).statusWord = 0#32 := by decide +kernel

/-- 45_system.md R187, the example; OVR with it (95_test_vectors.md 2.6.10). -/
theorem test_clrf : (after .clrf { fooFull with fault := true, err := 1, ovr := true, errinfo := 7 }).statusWord = 0#32 ∧
    (after .clrf { fooFull with fault := true, err := 1, ovr := true, errinfo := 7 }).errinfo = 0#32 := by decide +kernel

/-- 45_system.md R188, the example: SYMBUF stays. -/
theorem test_srst :
    (after .srst fooFull).nnodes = 0#9 ∧ (after .srst fooFull).symLen = 0#32 ∧
      (after .srst fooFull).symbuf = [(0, 0x66#8), (1, 0x6F#8), (2, 0x6F#8)] := by decide +kernel

/-! ## The host port -/

/-- 20_memory.md R68, the example. -/
theorem test_node_window :
    (List.range 4).map (fun j => portRead fooTree (addrNode 2 j)) = [0x80000200#32, 3#32, 0#32, 0#32] ∧
      portRead fooTree (addrNode 3 0) = 0#32 := by decide +kernel

/-- 95_test_vectors.md 2.1.5: a SYMBUF write keeps bits 7:0. -/
theorem test_symbuf_write : portRead (portWrite State.reset (addrSymbuf 0) 0x00000161) (addrSymbuf 0) = 0x61#32 := by
  decide +kernel

/-- 95_test_vectors.md 2.6.13: read-only and unmapped writes are ignored. -/
theorem test_ignored_writes :
    portWrite State.reset 0x00001 0xFFFFFFFF = State.reset ∧ portWrite State.reset 0x00005 7 = State.reset ∧
      portWrite State.reset 0x01000 1 = State.reset ∧ portWrite State.reset 0x3FFFF 1 = State.reset :=
  ⟨rfl, rfl, rfl, rfl⟩

/-- 95_test_vectors.md 2.6.5, 2.6.6: the gate drops COUNT and an illegal word. -/
theorem test_gate :
    portWrite { State.reset with fault := true, err := 2, errinfo := 2 } addrCmd 1 =
        { State.reset with fault := true, err := 2, errinfo := 2 } ∧
      portWrite { State.reset with fault := true, err := 2, errinfo := 2 } addrCmd 10 =
        { State.reset with fault := true, err := 2, errinfo := 2 } := ⟨rfl, rfl⟩

/-- 95_test_vectors.md 2.6.3: 0x101 is not COUNT. -/
theorem test_illegal : (match step (State.reset.withFetchWord 32 0x101) with
    | .next t => (t.statusWord, t.errinfo)
    | .fault _ => (0, 0)
    | .refused _ => (0, 0)) = (0x00000062#32, 0x00000101#32) := by decide +kernel

/-- 20_memory.md R65: a misaligned wrapper access is refused, and an aligned one reads the word at a quarter of its
byte address. -/
theorem test_wrapper :
    (match step { State.reset with inputs := [.op (.busRd 2 4)] } with
      | .refused r => r == .wrapperAccess
      | .next _ => false
      | .fault _ => false) = true ∧
    (match step { State.reset with inputs := [.op (.busRd 24 4)] } with
      | .next t => t.log == [⟨0x00006#18, 65536#32, none⟩]
      | .fault _ => false
      | .refused _ => false) = true := by decide +kernel

/-- 30_encoding.md R101: encode("a", table {a: "1"} from outside) is LOADSYM, SETCODE, RUN, and a read of STATUS. -/
theorem test_encodeProgram_outside :
    encodeProgram [(0x61, [true])] [0x61] =
      [.wr 0x10000#18 0x61#32, .wr 0x00003#18 1#32, .wr 0x00B08#18 0x80000000#32, .wr 0x00B09#18 0#32,
        .wr 0x00B0A#18 0#32, .wr 0x00B0B#18 0#32, .wr 0x00B0C#18 0#32, .wr 0x00B0D#18 0#32, .wr 0x00B0E#18 0#32,
        .wr 0x00B0F#18 0#32, .wr 0x00261#18 1#32, .cmd .encode, .wait, .rd 0x00001#18] := by decide +kernel

/-- 60_exceptions.md R210, 30_encoding.md R101: the STATUS words of success, UnknownSymbol and IllegalCommand. -/
theorem test_opResult : [0x00000000#32, 0x00000022#32, 0x00000062#32].map opResult =
    [some .success, some (.failure .unknownSymbol), some (.failure .illegalCommand)] := by decide

/-- 30_encoding.md R100: LOADSYM "foo" is four writes. -/
theorem test_loadsym : loadSym fooText =
    [.wr 0x10000#18 0x66#32, .wr 0x10001#18 0x6F#32, .wr 0x10002#18 0x6F#32, .wr 0x00003#18 3#32] := by decide

/-! ## Witnesses: for each obligation with hypotheses, a state and operands that meet them together -/

/-- A command in execution, and one input waiting that the schedule lets in first. -/
def busyWith (i : Input) : State :=
  { fooFull with running := some (encode .encode), inputs := [i], sched := [.host] }

/-- The idle block with one input waiting. -/
def idleWith (i : Input) : State := { fooFull with inputs := [i] }

theorem witness_DecodeAndEncodeAgree : Instr.count.wellFormed = true ∧ decode 1#32 = .command .count := by decide

theorem witness_StepRunsTheDecodedCommand :
    turn (State.reset.withFetchWord 32 1) = .engine 1#32 ∧ decode 1#32 = .command .count ∧
      Instr.count.wellFormed = true := by decide

theorem witness_IllegalWordEndsWithIllegalCommand :
    (turn (State.reset.withFetchWord 32 10) = .engine 10#32 ∧ 9 < (10#32).toNat) ∧
      (turn (State.reset.withFetchWord 32 0xFFFFFFFF) = .engine 0xFFFFFFFF#32 ∧ 9 < (0xFFFFFFFF#32).toNat) := by decide

theorem witness_CmdWriteIssuesOrIsGated :
    ((idleWith (.op (.wr addrCmd 9))).running = none ∧
      (idleWith (.op (.wr addrCmd 9))).inputs = .op (.wr addrCmd 9) :: []) ∧
    ((idleWith (.op (.cmd .nop))).running = none ∧ (idleWith (.op (.cmd .nop))).inputs = .op (.cmd .nop) :: []) :=
  ⟨⟨rfl, rfl⟩, rfl, rfl⟩

theorem witness_BusyWriteIsDroppedAndSetsOvr :
    [HostOp.wr 0x3FFFF 5, .cmd .srst, .busWr 0 4 9].all (fun o =>
      (busyWith (.op o)).busy && decide (turn (busyWith (.op o)) = .input (.op o) []) && (Input.op o).accepted) =
      true := by decide

/-- Each form of a read, of STATUS and of the last word; and WAIT. -/
theorem witness_BusyReadsChangeNothing :
    (∀ o, (busyWith (.op o)).busy = true ∧ turn (busyWith (.op o)) = .input (.op o) []) ∧
    (HostOp.rd 0x00001).isReadOf 0x00001 none ∧ (HostOp.expect 0x00001 1).isReadOf 0x00001 (some 1) ∧
    (HostOp.busRd 4 4).isReadOf 0x00001 none ∧ (HostOp.rd 0x3FFFF).isReadOf 0x3FFFF none ∧
    (HostOp.expect 0x3FFFF 0).isReadOf 0x3FFFF (some 0) ∧ (HostOp.busRd 0xFFFFC 4).isReadOf 0x3FFFF none :=
  ⟨fun _ => ⟨rfl, rfl⟩, .inl ⟨rfl, rfl⟩, .inr (.inl ⟨1, rfl, rfl⟩), .inr (.inr ⟨rfl, rfl⟩), .inl ⟨rfl, rfl⟩,
    .inr (.inl ⟨0, rfl, rfl⟩), .inr (.inr ⟨rfl, rfl⟩)⟩

theorem witness_WaitEnds : ∀ i ∈ (busyWith (.op .wait)).inputs, i.accepted = true := by decide

theorem witness_paramsOk : State.reset.paramsOk ∧ small.paramsOk := by decide +kernel

/-- The ends of the windows of AddressMapIsTheTable with SYM_CAP = 4 and BIT_CAP = 256. -/
theorem witness_AddressMapIsTheTable :
    [0x00008, 0x000FF, 0x00300, 0x007FF, 0x01800, 0x0FFFF, 0x10004, 0x1FFFF, 0x20008, 0x2FFFF, 0x30000, 0x3FFFF].all
        (fun a => decide (small.locOf (BitVec.ofNat 18 a) = .unmapped)) = true ∧
      [0x00100, 0x001FF, 0x00200, 0x002FF, 0x00800, 0x00FFF, 0x01000, 0x017FF, 0x10003, 0x20007].map
          (fun a => small.locOf (BitVec.ofNat 18 a)) =
        [.freq 0, .freq 255, .codelen 0, .codelen 255, .codebits 0, .codebits 2047, .node 0 0, .node 511 3,
          .symbuf 3, .bitbuf 7] := by decide +kernel

/-- The three forms of a read of the idle block, the three ways a wrapper access is none of the port's, idle or busy, and
the fields' boundaries. -/
theorem witness_HostReadChangesNoState :
    (∀ o, (idleWith (.op o)).running = none ∧ (idleWith (.op o)).inputs = .op o :: []) ∧
    (HostOp.rd 0x20000).isReadOf 0x20000 none ∧ (HostOp.expect 0x20000 3).isReadOf 0x20000 (some 3) ∧
    (HostOp.busRd 0x80000 4).isReadOf 0x20000 none ∧
    (noWordAccess 0 2 ∧ noWordAccess 2 4 ∧ noWordAccess 0x100000 4) ∧
    (turn (idleWith (.op (.busRd 2 4))) = .input (.op (.busRd 2 4)) [] ∧
      turn (busyWith (.op (.busRd 2 4))) = .input (.op (.busRd 2 4)) []) ∧
    fooFull.busy = false ∧
    (fooFull.codebits.read (8 * 0x6F + 0) = some 0x80000000 ∧ fooFull.symbuf.read 2 = some 0x6F ∧
      fooFull.bitbuf.read 0 = some 0x60000000) ∧
    small.locOf 0x10004 = .unmapped :=
  ⟨fun _ => ⟨rfl, rfl⟩, .inl ⟨rfl, rfl⟩, .inr (.inl ⟨3, rfl, rfl⟩), .inr (.inr ⟨rfl, rfl⟩), by decide, ⟨rfl, rfl⟩, rfl,
    by decide +kernel, by decide +kernel⟩

/-- The three forms of a write of the idle block, the three ways a wrapper access is none of the port's, and the last
entry of each window. -/
theorem witness_WrittenLocationReadsBack :
    (∀ o, (idleWith (.op o)).running = none ∧ (idleWith (.op o)).inputs = .op o :: []) ∧
    (HostOp.wr 0x00003 5).isWriteOf 0x00003 5 ∧ (HostOp.cmd .srst).isWriteOf 0x00000 9 ∧
    (HostOp.busWr 12 4 5).isWriteOf 0x00003 5 ∧
    (noWordAccess 0 2 ∧ noWordAccess 2 4 ∧ noWordAccess 0x100000 4) ∧
    (turn (idleWith (.op (.busWr 2 4 5))) = .input (.op (.busWr 2 4 5)) [] ∧
      turn (busyWith (.op (.busWr 2 4 5))) = .input (.op (.busWr 2 4 5)) []) ∧
    fooFull.busy = false ∧ addrSymLen ≠ addrCmd ∧ 0xFFFF < fooFull.symcap.toNat ∧ 0xFFFF < fooFull.bitcap.toNat / 32 :=
  ⟨fun _ => ⟨rfl, rfl⟩, .inl rfl, .inr (.inl ⟨.srst, rfl, rfl, rfl⟩), .inr (.inr rfl), by decide, ⟨rfl, rfl⟩, rfl,
    by decide, by decide, by decide⟩

theorem witness_WriteLeavesEveryOtherAddress :
    fooFull.busy = false ∧ addrSymLen ≠ addrCmd ∧ addrSymLen ≠ addrBitLen := by decide

/-- One for each kind of location. -/
theorem witness_ReadOnlyAndUnmappedWritesAreIgnored :
    [0x00001, 0x00002, 0x00005, 0x00006, 0x00007, 0x017FF, 0x3FFFF].map
        (fun a => (idleWith (.op (.wr (BitVec.ofNat 18 a) 1))).locOf (BitVec.ofNat 18 a)) =
      [.status, .errinfo, .nnodes, .symcap, .bitcap, .node 511 3, .unmapped] ∧
    ∀ a v, (idleWith (.op (.wr a v))).running = none ∧ (idleWith (.op (.wr a v))).inputs = .op (.wr a v) :: [] :=
  ⟨by decide +kernel, fun _ _ => ⟨rfl, rfl⟩⟩

theorem witness_NodeWindowReadsTheNode :
    fooTree.busy = false ∧ 2 < 512 ∧ 2 < fooTree.node.length ∧ fooTree.node.length ≤ 3 ∧ 511 < 512 := by decide

theorem witness_BitbufIsPackedFirstBitHighest :
    small.busy = false ∧ small.paramsOk ∧ 255 < small.bitcap.toNat := by decide +kernel

theorem witness_CodebitsIsPackedFirstBitHighest :
    (after .derive fooTree).busy = false ∧ 255 < 256 ∧
      ((after .derive fooTree).codebits.read (8 * (0x6F#8).toNat + 255 / 32)).isSome = true := by decide +kernel

theorem witness_lengths_fit :
    fooFull.symLen.toNat ≤ fooFull.symcap.toNat ∧ 1 ≤ fooFull.symLen.toNat ∧
      fooFull.bitLen.toNat ≤ fooFull.bitcap.toNat := by decide +kernel

/-- COUNT and MKTABLE at exactly SYM_CAP. -/
theorem witness_CountTalliesTheSymbols :
    ({ small with symLen := 4 } : State).symLen.toNat ≤ ({ small with symLen := 4 } : State).symcap.toNat := by decide

theorem witness_LengthOverCapacityEndsWithCapacity :
    ({ small with symLen := 5 } : State).symLen.toNat > ({ small with symLen := 5 } : State).symcap.toNat ∧
    ({ small with bitLen := 257 } : State).bitLen.toNat > ({ small with bitLen := 257 } : State).bitcap.toNat := by
  decide

/-- FREQ of "foo". -/
def fooCounted : State := { loaded fooText with freq := ((Vector.replicate 256 0).set 0x66 1).set 0x6F 2 }

theorem witness_BuildMakesTheTree : ∃ c, fooCounted.freqAt c ≠ 0 := ⟨0x66, by decide +kernel⟩

theorem witness_BuildMergesTheTwoSmallest :
    ∃ t, (∃ c, fooCounted.freqAt c ≠ 0) ∧ exec .build fooCounted = .next t ∧
      2 < t.node.length ∧ distinctCount fooCounted ≤ 2 :=
  ⟨_, witness_BuildMakesTheTree, rfl, by decide +kernel, by decide +kernel⟩

theorem witness_BuildOfOneSymbolIsOneLeaf :
    ({ State.reset with freq := (Vector.replicate 256 0).set 0x61 4 } : State).freqAt 0x61 ≠ 0 ∧
      ∀ d, d ≠ 0x61 → ({ State.reset with freq := (Vector.replicate 256 0).set 0x61 4 } : State).freqAt d = 0 := by
  refine ⟨by decide +kernel, fun d hd => ?_⟩
  have : 0x61 ≠ d.toNat := fun h => hd (BitVec.eq_of_toNat_eq h.symm)
  simp [State.freqAt, this]

theorem witness_BuildOnEmptyTableFails : ∀ c, State.reset.freqAt c = 0 := by
  simp [State.freqAt, State.reset, State.resetOf]

theorem fooNodes_isTree : IsTree 2 fooNodes :=
  ⟨by decide, by decide, by decide, by decide, by decide, by decide, by decide, by decide, by decide, by decide⟩

theorem witness_DeriveRecordsThePaths : IsTree 2 fooTree.node ∧ 2 ≤ 2 := ⟨fooNodes_isTree, by decide⟩

theorem witness_DeriveOfOneLeafAndOfNoTree : oneLeaf.node = [.leaf 0x61 4] ∧ State.reset.node = [] := ⟨rfl, rfl⟩

theorem witness_DerivedCodesArePrefixFree :
    (∃ t, TreeInvariant fooTree.node ∧ exec .derive fooTree = .next t) ∧
    (∃ t, (loaded fooText).symLen.toNat ≤ (loaded fooText).symcap.toNat ∧ exec .mktable (loaded fooText) = .next t) :=
  ⟨⟨_, .inr ⟨2, fooNodes_isTree⟩, rfl⟩, ⟨after .mktable (loaded fooText), by decide +kernel, by rfl⟩⟩

theorem witness_DerivedCodeIsComplete :
    ∃ t, IsTree 2 fooTree.node ∧ 2 ≤ 2 ∧ exec .derive fooTree = .next t ∧
      (List.replicate 255 true).length = Config.maxLen :=
  ⟨_, fooNodes_isTree, by decide, rfl, List.length_replicate⟩

theorem witness_MktableIsCountBuildDerive :
    (let s : State := { small with symLen := 4 }
     1 ≤ s.symLen.toNat ∧ s.symLen.toNat ≤ s.symcap.toNat) ∧ State.reset.symLen = 0 := by decide

theorem witness_MktableMakesAllThreeTables : small.symLen.toNat ≤ small.symcap.toNat ∧
    ({ small with symLen := 4 } : State).symLen.toNat ≤ ({ small with symLen := 4 } : State).symcap.toNat := by decide

theorem witness_EncodeConcatenatesTheCodes :
    fooFull.symLen.toNat ≤ fooFull.symcap.toNat ∧
    (∀ i < fooFull.symLen.toNat, fooFull.codelenAt (fooFull.symAt i) ≠ 0) ∧
    [false, true, true] = (List.range fooFull.symLen.toNat).flatMap (fun i => fooFull.codeOf i (fooFull.symAt i)) ∧
    [false, true, true].length ≤ fooFull.bitcap.toNat := by decide +kernel

/-- "fox": position 2. -/
theorem witness_EncodeStopsAtTheFirstUnknownSymbol :
    let s : State := { fooFull with symbuf := [(0, 0x66), (1, 0x6F), (2, 0x78)] }
    s.symLen.toNat ≤ s.symcap.toNat ∧ 2 < s.symLen.toNat ∧ s.codelenAt (s.symAt 2) = 0 ∧
      (∀ j < 2, s.codelenAt (s.symAt j) ≠ 0) ∧
      ((List.range 2).map fun j => (s.codelenAt (s.symAt j)).toNat).sum ≤ s.bitcap.toNat := by decide +kernel

/-- Two codes of 255 bits where 256 fit: position 1. -/
theorem witness_EncodeStopsAtTheFirstCodeThatDoesNotFit :
    let s : State := withCode 0x61 0 255 { small with symLen := 2, symbuf := [(0, 0x61), (1, 0x61)] }
    s.symLen.toNat ≤ s.symcap.toNat ∧ 1 < s.symLen.toNat ∧ (∀ j ≤ 1, s.codelenAt (s.symAt j) ≠ 0) ∧
      ((List.range 1).map fun j => (s.codelenAt (s.symAt j)).toNat).sum ≤ s.bitcap.toNat ∧
      s.bitcap.toNat < ((List.range (1 + 1)).map fun j => (s.codelenAt (s.symAt j)).toNat).sum := by decide +kernel

/-- The leaves that "foo" reaches, with their paths. -/
def fooSteps : List (Nat × BitString) := [(0, [false]), (1, [true]), (1, [true])]

theorem witness_DecodeWalksTheTree :
    IsTree 2 fooFull.node ∧ 2 ≤ 2 ∧ fooFull.bitLen.toNat ≤ fooFull.bitcap.toNat ∧
    fooFull.bits = fooSteps.flatMap Prod.snd ∧
    (∀ x ∈ fooSteps, (nodeAt fooFull.node x.1).kind = false ∧ follow fooFull.node (rootOf fooFull.node) x.2 = some x.1) ∧
    fooSteps.length ≤ fooFull.symcap.toNat :=
  ⟨fooNodes_isTree, by decide, by decide +kernel, by decide +kernel, by decide +kernel, by decide +kernel⟩

/-- The tree of "abc" (95_test_vectors.md 2.2.3): c `0`, a `10`, b `11`. -/
def abcNodes : List Node := [.leaf 0x61 1, .leaf 0x62 1, .leaf 0x63 1, .internal 0 1 2, .internal 2 3 3]

theorem abcNodes_isTree : IsTree 3 abcNodes :=
  ⟨by decide, by decide, by decide, by decide, by decide, by decide, by decide, by decide, by decide, by decide⟩

/-- `01`: "c", then the first bit of `10` or `11`. -/
theorem witness_DecodeReportsATruncatedStream :
    let s : State := withBits 0x40000000 2 { State.reset with node := abcNodes }
    IsTree 3 s.node ∧ 2 ≤ 3 ∧ s.bitLen.toNat ≤ s.bitcap.toNat ∧
    s.bits = [(2, [false])].flatMap Prod.snd ++ [true] ∧
    (∀ x ∈ [(2, [false])], (nodeAt s.node x.1).kind = false ∧ follow s.node (rootOf s.node) x.2 = some x.1) ∧
    [true] ≠ [] ∧ follow s.node (rootOf s.node) [true] = some 3 ∧ (nodeAt s.node 3).kind = true ∧
    [(2, [false])].length ≤ s.symcap.toNat :=
  ⟨abcNodes_isTree, by decide, by decide +kernel, by decide +kernel, by decide +kernel, by decide, by decide +kernel,
    by decide +kernel, by decide +kernel⟩

/-- Five symbols where four fit. -/
theorem witness_DecodeReportsTheSymbolThatDoesNotFit :
    let s : State := withBits 0 6 { small with node := fooNodes }
    IsTree 2 s.node ∧ 2 ≤ 2 ∧ s.bitLen.toNat ≤ s.bitcap.toNat ∧
    s.bits = (List.replicate 5 (0, [false])).flatMap Prod.snd ++ [false] ∧
    (∀ x ∈ List.replicate 5 (0, [false]),
      (nodeAt s.node x.1).kind = false ∧ follow s.node (rootOf s.node) x.2 = some x.1) ∧
    (List.replicate 5 ((0, [false]) : Nat × BitString)).length = s.symcap.toNat + 1 :=
  ⟨fooNodes_isTree, by decide, by decide +kernel, by decide +kernel, by decide +kernel, by decide +kernel⟩

/-- `0000`, `0010` and, with four symbols at most, `00000`. -/
theorem witness_DecodeOfOneLeaf :
    let s : State := { small with node := [.leaf 0x61 4] }
    s.node = [.leaf 0x61 4] ∧ 4 ≤ s.symcap.toNat ∧
    ((withBits 0 4 s).bitLen.toNat ≤ s.bitcap.toNat ∧ (withBits 0 4 s).bits = List.replicate 4 false) ∧
    (withBits 0x20000000 4 s).bits = List.replicate 2 false ++ true :: [false] ∧
    (4 = s.symcap.toNat ∧ (withBits 0 5 s).bits = List.replicate 4 false ++ false :: []) := by decide +kernel

theorem witness_DecodeRaisesInvalidCodeOnlySo :
    (let s : State := withBits 0x80000000 1 State.reset
     s.node = [] ∧ s.bitLen ≠ 0 ∧ s.bitLen.toNat ≤ s.bitcap.toNat) ∧
    (State.reset.node = [] ∧ State.reset.bitLen = 0) ∧
    ∃ t, IsTree 2 fooFull.node ∧ 2 ≤ 2 ∧ fooFull.err ≠ 4 ∧ exec .decode fooFull = .next t :=
  ⟨by decide +kernel, ⟨rfl, rfl⟩, after .decode fooFull, fooNodes_isTree, by decide, by decide +kernel, by rfl⟩

theorem witness_EmptyBitstreamDecodesToNothing : fooTree.bitLen = 0 := by decide

theorem withCode_codelenAt (c d : Sym) (w : Word) (n : Nat) (s : State) :
    (withCode c w n s).codelenAt d = if c = d then BitVec.ofNat 8 n else s.codelenAt d := by
  simp [withCode, State.codelenAt, Vector.getElem_set, ← BitVec.toNat_inj]

theorem reset_codelenAt (p : Params) (c : Sym) : (State.resetOf p).codelenAt c = 0 := by
  simp [State.codelenAt, State.resetOf]

theorem fooFull_codelenAt (c : Sym) :
    fooFull.codelenAt c = if 0x66 = c then 1 else if 0x6F = c then 1 else 0 := by
  have h : fooTree.codelenAt c = 0 := reset_codelenAt Config.defaults c
  change (withCode 0x66 0 1 (withCode 0x6F 0x80000000 1 fooTree)).codelenAt c = _
  rw [withCode_codelenAt, withCode_codelenAt, h]
  rfl

theorem fooFull_entries (c : Sym) (h : fooFull.codelenAt c ≠ 0) : c = 0x66 ∨ c = 0x6F := by
  rw [fooFull_codelenAt] at h
  by_contra hc
  rw [not_or] at hc
  rw [if_neg (Ne.symm hc.1), if_neg (Ne.symm hc.2)] at h
  exact h rfl

theorem fooFull_codes : fooFull.codeOf 0 0x66 = [false] ∧ fooFull.codeOf 0 0x6F = [true] := by decide +kernel

theorem fooFull_codesWritten : fooFull.codesWritten := by
  intro c j hj
  have hc : c = 0x66 ∨ c = 0x6F := fooFull_entries c (by intro h; rw [h] at hj; exact Nat.not_lt_zero _ hj)
  have hj0 : j = 0 := by
    have : (fooFull.codelenAt c).toNat = 1 := by obtain rfl | rfl := hc <;> decide +kernel
    omega
  subst hj0
  obtain rfl | rfl := hc <;> decide +kernel

theorem fooFull_prefixFree : fooFull.prefixFree := by
  intro c d hcd hc hd
  obtain rfl | rfl := fooFull_entries c hc <;> obtain rfl | rfl := fooFull_entries d hd
  · exact absurd rfl hcd
  · rw [fooFull_codes.1, fooFull_codes.2]; decide
  · rw [fooFull_codes.1, fooFull_codes.2]; decide
  · exact absurd rfl hcd

theorem fooFull_taken (c : Sym) (h : c ∈ fooText) : fooFull.taken c := by
  have hc : c = 0x66 ∨ c = 0x6F := by simpa [fooText] using h
  exact taken_of_prefixFree fooFull_prefixFree (by obtain rfl | rfl := hc <;> decide +kernel)

/-- "foo", on its prefix-free table. -/
theorem witness_DecodecEmitsTheCodesInTurn :
    fooFull.codesWritten ∧ (∀ c ∈ fooText, fooFull.taken c) ∧
    fooFull.bits = fooText.flatMap (fooFull.codeOf 0) ∧ fooFull.bitLen.toNat ≤ fooFull.bitcap.toNat ∧
    fooText.length ≤ fooFull.symcap.toNat :=
  ⟨fooFull_codesWritten, fooFull_taken, by decide +kernel, by decide +kernel, by decide +kernel⟩

/-- 95_test_vectors.md 2.5.17: a `0`, b `01`, c `11` is not prefix-free, and `011` is "ac". -/
def overlapping : State :=
  withBits 0x60000000 3 (withCode 0x61 0 1 (withCode 0x62 0x40000000 2 (withCode 0x63 0xC0000000 2 small)))

theorem overlapping_codelenAt (c : Sym) :
    overlapping.codelenAt c = if 0x61 = c then 1 else if 0x62 = c then 2 else if 0x63 = c then 2 else 0 := by
  change (withCode 0x61 0 1 (withCode 0x62 0x40000000 2 (withCode 0x63 0xC0000000 2 small))).codelenAt c = _
  rw [withCode_codelenAt, withCode_codelenAt, withCode_codelenAt, small, reset_codelenAt]
  rfl

theorem overlapping_entries (c : Sym) (h : overlapping.codelenAt c ≠ 0) : c = 0x61 ∨ c = 0x62 ∨ c = 0x63 := by
  rw [overlapping_codelenAt] at h
  by_contra hc
  simp only [not_or] at hc
  rw [if_neg (Ne.symm hc.1), if_neg (Ne.symm hc.2.1), if_neg (Ne.symm hc.2.2)] at h
  exact h rfl

theorem overlapping_codes : overlapping.codeOf 0 0x61 = [false] ∧ overlapping.codeOf 0 0x62 = [false, true] ∧
    overlapping.codeOf 0 0x63 = [true, true] := by decide +kernel

theorem overlapping_codesWritten : overlapping.codesWritten := by
  intro c j hj
  have hc := overlapping_entries c (by intro h; rw [h] at hj; exact Nat.not_lt_zero _ hj)
  have hj2 : j < 2 := by
    refine Nat.lt_of_lt_of_le hj ?_
    obtain rfl | rfl | rfl := hc <;> decide +kernel
  have hj0 : j / 32 = 0 := by omega
  rw [hj0]
  obtain rfl | rfl | rfl := hc <;> rfl

theorem overlapping_taken (c : Sym) (h : c = 0x61 ∨ c = 0x63) : overlapping.taken c := by
  have hc : overlapping.codelenAt c ≠ 0 := by obtain rfl | rfl := h <;> decide +kernel
  have entry : ∀ d, overlapping.codeOf 0 d ≠ [] → overlapping.codelenAt d ≠ 0 := by
    intro d hd h0
    exact hd (List.length_eq_zero_iff.1 (by rw [codeOf_length, h0]; rfl))
  refine ⟨hc, fun d hd he => ?_, fun d hd hp => ?_⟩
  · have hne : overlapping.codeOf 0 d ≠ [] := by
      rw [he]
      obtain rfl | rfl := h
      · rw [overlapping_codes.1]; decide
      · rw [overlapping_codes.2.2]; decide
    obtain rfl | rfl | rfl := overlapping_entries d (entry d hne) <;> obtain rfl | rfl := h <;>
      exact absurd (And.intro hd he) (by decide +kernel)
  · obtain rfl | rfl | rfl := overlapping_entries d hd <;> obtain rfl | rfl := h <;>
      (revert hp; decide +kernel)

/-- "ac", on a table that is not prefix-free: DECODEC does not take b. -/
theorem witness_DecodecEmitsTheCodesInTurn_not_prefixFree :
    ¬ overlapping.prefixFree ∧ overlapping.codesWritten ∧ (∀ c ∈ [0x61#8, 0x63#8], overlapping.taken c) ∧
    overlapping.bits = [0x61#8, 0x63#8].flatMap (overlapping.codeOf 0) ∧
    overlapping.bitLen.toNat ≤ overlapping.bitcap.toNat ∧ [0x61#8, 0x63#8].length ≤ overlapping.symcap.toNat :=
  ⟨fun h => h 0x61 0x62 (by decide) (by decide +kernel) (by decide +kernel)
      (by rw [overlapping_codes.1, overlapping_codes.2.1]; decide),
    overlapping_codesWritten, fun c h => overlapping_taken c (by simpa using h), by decide +kernel, by decide +kernel,
    by decide +kernel⟩

/-- The one entry a `01`, in small buffers, with the given bits. -/
def oneEntry (w : Word) (n : Nat) : State := withBits w n (withCode 0x61 0x40000000 2 small)

theorem oneEntry_entries (w : Word) (n : Nat) (c : Sym) (h : (oneEntry w n).codelenAt c ≠ 0) : c = 0x61 := by
  have e : (oneEntry w n).codelenAt c = if 0x61 = c then 2 else 0 := by
    change (withCode 0x61 0x40000000 2 small).codelenAt c = _
    rw [withCode_codelenAt, small, reset_codelenAt]
    rfl
  by_contra hc
  rw [e, if_neg (Ne.symm hc)] at h
  exact h rfl

theorem oneEntry_prefixFree (w : Word) (n : Nat) : (oneEntry w n).prefixFree := by
  intro c d hcd hc hd
  exact absurd ((oneEntry_entries w n c hc).trans (oneEntry_entries w n d hd).symm) hcd

theorem oneEntry_codesWritten (w : Word) (n : Nat) : (oneEntry w n).codesWritten := by
  intro c j hj
  have hc : c = 0x61 := oneEntry_entries w n c (by intro h; rw [h] at hj; exact Nat.not_lt_zero _ hj)
  subst hc
  have hj2 : j < 2 := hj
  have hj0 : j / 32 = 0 := by omega
  rw [hj0]
  rfl

theorem oneEntry_code (w : Word) (n : Nat) : (oneEntry w n).codeOf 0 0x61 = [false, true] := by
  have h : (oneEntry 0 0).codeOf 0 0x61 = [false, true] := by decide +kernel
  exact h

theorem oneEntry_taken (w : Word) (n : Nat) : (oneEntry w n).taken 0x61 :=
  taken_of_prefixFree (oneEntry_prefixFree w n) (by change (oneEntry 0 0).codelenAt 0x61 ≠ 0; decide +kernel)

theorem oneEntry_inside (w : Word) (n : Nat) : (oneEntry w n).insideCode [false] := by
  refine ⟨⟨0x61, ?_⟩, fun d hd => ?_⟩
  · rw [oneEntry_code]; decide
  · rw [oneEntry_entries w n d hd, oneEntry_code]; decide

theorem oneEntry_no_path (w : Word) (n : Nat) (c : Sym) : ¬ ([false] ++ [false] <+: (oneEntry w n).codeOf 0 c) := by
  intro h
  have hc : (oneEntry w n).codelenAt c ≠ 0 := by
    intro h0
    have := h.length_le
    rw [codeOf_length, h0] at this
    exact absurd this (by decide)
  rw [oneEntry_entries w n c hc, oneEntry_code] at h
  exact absurd h (by decide)

/-- `010`: a, then inside a code; `0100`: a, then a bit no entry continues with after `0`; five times a. -/
theorem witness_DecodecReportsWhereItFails :
    (let s := oneEntry 0x40000000 3
     s.codesWritten ∧ (∀ c ∈ [0x61#8], s.taken c) ∧ s.bits = [0x61#8].flatMap (s.codeOf 0) ++ [false] ∧
       s.bitLen.toNat ≤ s.bitcap.toNat ∧ [0x61#8].length ≤ s.symcap.toNat ∧ [false] ≠ [] ∧ s.insideCode [false]) ∧
    (let s := oneEntry 0x40000000 4
     s.codesWritten ∧ (∀ c ∈ [0x61#8], s.taken c) ∧
       s.bits = [0x61#8].flatMap (s.codeOf 0) ++ ([false] ++ false :: []) ∧ s.bitLen.toNat ≤ s.bitcap.toNat ∧
       [0x61#8].length ≤ s.symcap.toNat ∧ s.insideCode [false] ∧ ∀ c, ¬ ([false] ++ [false] <+: s.codeOf 0 c)) ∧
    (let s := oneEntry 0x55400000 10
     s.codesWritten ∧ (∀ c ∈ List.replicate 5 0x61#8, s.taken c) ∧
       s.bits = (List.replicate 5 0x61#8).flatMap (s.codeOf 0) ++ [] ∧ s.bitLen.toNat ≤ s.bitcap.toNat ∧
       (List.replicate 5 0x61#8).length = s.symcap.toNat + 1) :=
  ⟨⟨oneEntry_codesWritten _ _, fun c h => List.mem_singleton.1 h ▸ oneEntry_taken _ _, by decide +kernel,
      by decide +kernel, by decide +kernel, by decide, oneEntry_inside _ _⟩,
    ⟨oneEntry_codesWritten _ _, fun c h => List.mem_singleton.1 h ▸ oneEntry_taken _ _, by decide +kernel,
      by decide +kernel, by decide +kernel, oneEntry_inside _ _, oneEntry_no_path _ _⟩,
    ⟨oneEntry_codesWritten _ _, fun c h => (List.eq_of_mem_replicate h) ▸ oneEntry_taken _ _, by decide +kernel,
      by decide +kernel, by decide +kernel⟩⟩

theorem witness_TheTwoDecodersAgree :
    TreeInvariant (after .derive fooTree).node ∧ (after .derive fooTree).tableOfTree :=
  ⟨.inr ⟨2, fooNodes_isTree⟩, rfl, rfl⟩

theorem fooText_written : (loaded fooText).symbolsWritten := by unfold State.symbolsWritten; decide +kernel

theorem witness_EncodeThenDecodeGivesTheInputBack :
    ∃ a, (loaded fooText).symLen.toNat ≤ (loaded fooText).symcap.toNat ∧ (loaded fooText).symbolsWritten ∧
      exec .mktable (loaded fooText) = .next a ∧
      ((loaded fooText).symbols.map fun c => (a.codelenAt c).toNat).sum ≤ (loaded fooText).bitcap.toNat :=
  ⟨after .mktable (loaded fooText), by decide +kernel, fooText_written, by rfl, by decide +kernel⟩

/-- "aaaa". -/
theorem witness_OneDistinctSymbolTakesOneBitEach :
    let s := loaded (List.replicate 4 0x61)
    1 ≤ s.symLen.toNat ∧ s.symLen.toNat ≤ s.symcap.toNat ∧ s.symLen.toNat ≤ s.bitcap.toNat ∧ s.symbolsWritten ∧
      ∀ i < s.symLen.toNat, s.symAt i = 0x61 := by
  unfold State.symbolsWritten; decide +kernel

theorem witness_EmptyInputGivesEmptyOutputs : State.reset.symLen = 0 := rfl

theorem witness_WrittenInputsLeaveNothingFree :
    ∀ i : Instr, ∃ t, fooFull.inputsWritten i ∧ exec i fooFull = .next t := by
  have hs : fooFull.symbolsWritten := by unfold State.symbolsWritten; decide +kernel
  have hb : fooFull.bitsWritten := by unfold State.bitsWritten; decide +kernel
  intro i
  refine ⟨after i fooFull, ?_, ?_⟩
  · cases i
    case count => exact hs
    case mktable => exact hs
    case encode => exact ⟨hs, fooFull_codesWritten⟩
    case decode => exact hb
    case decodec => exact ⟨hb, fooFull_codesWritten⟩
    all_goals exact trivial
  · cases i
    all_goals
      unfold after
      split
      · assumption
      · rename_i r _; cases r
      · rename_i r h; simp only [exec, execNop, execCount, execBuild, execDerive, execEncode, execDecode, execDecodec,
          execMktable, execClrf, execSrst] at h
        revert h
        repeat' split
        all_goals simp

/-- `fooFull` with the bits at and above the three lengths changed: SYMBUF[3], the last 29 bits of BITBUF word 0 and
word 1, and the last 255 positions of CODEBITS[0x66] in word 0. -/
def fooBeyond : State :=
  { fooFull with symbuf := fooFull.symbuf ++ [(3, 0x41)], bitbuf := [(0, 0x7FFFFFFF), (1, 5)],
                 codebits := fooFull.codebits.write (8 * 0x66) 0x7FFFFFFF }

theorem witness_NothingBeyondTheLengthsIsRead :
    fooBeyond = { fooFull with symbuf := fooBeyond.symbuf, bitbuf := fooBeyond.bitbuf, codebits := fooBeyond.codebits } ∧
    (∀ k < fooFull.symLen.toNat, fooBeyond.symAt k = fooFull.symAt k) ∧
    (∀ k < fooFull.bitLen.toNat, fooBeyond.bitAt k = fooFull.bitAt k) ∧
    (∀ time c, ∀ j < (fooFull.codelenAt c).toNat, fooBeyond.codeBit time c j = fooFull.codeBit time c j) ∧
    ∀ i, ∃ t, exec i fooFull = .next t := by
  refine ⟨rfl, by decide +kernel, by decide +kernel, fun time c j hj => ?_,
    fun i => (witness_WrittenInputsLeaveNothingFree i).imp fun _ h => h.2⟩
  have hc : c = 0x66 ∨ c = 0x6F := fooFull_entries c (by intro h; rw [h] at hj; exact Nat.not_lt_zero _ hj)
  have hj0 : j = 0 := by
    have : (fooFull.codelenAt c).toNat = 1 := by obtain rfl | rfl := hc <;> decide +kernel
    omega
  subst hj0
  obtain rfl | rfl := hc
  · change wordBit 0x7FFFFFFF#32 0 = wordBit 0#32 0
    decide
  · rfl

/-- Capacity and InvalidInput. -/
theorem witness_AnErrorEmptiesTheOutputAndNothingElse :
    (∃ t, State.reset.fault = false ∧ exec .build State.reset = .next t ∧ t.fault = true) ∧
    (let s : State := { small with bitLen := 257 }
     ∃ t, s.fault = false ∧ exec .decode s = .next t ∧ t.fault = true) :=
  ⟨⟨raiseError .tree .invalidInput 0 State.reset, rfl,
      by unfold exec execBuild; rw [if_pos ((tableEmpty_iff _).2 witness_BuildOnEmptyTableFails)], rfl⟩,
    ⟨raiseError .symbols .capacity overCapacity { small with bitLen := 257 }, rfl,
      by unfold exec execDecode; rw [if_pos (by decide +kernel)], rfl⟩⟩

theorem witness_EachCommandKeepsWhatItDoesNotWrite : ∃ t, exec .srst fooFull = .next t := ⟨_, rfl⟩

/-- Set by a write while BUSY is 1; cleared by CLRF, by SRST and by reset. -/
theorem witness_OvrRecordsABrokenProtocol :
    (∃ t, step (busyWith (.op (.wr addrSymLen 5))) = .next t ∧ (busyWith (.op (.wr addrSymLen 5))).ovr = false ∧
      t.ovr = true) ∧
    (∃ t, step ({ fooFull with ovr := true }.withFetchWord 32 8) = .next t ∧ t.ovr = false) ∧
    (∃ t, step ({ fooFull with ovr := true }.withFetchWord 32 9) = .next t ∧ t.ovr = false) ∧
    (∃ t, step { busyWith .reset with ovr := true } = .next t ∧ t.ovr = false) :=
  ⟨⟨_, rfl, rfl, rfl⟩, ⟨_, rfl, rfl⟩, ⟨_, rfl, rfl⟩, ⟨_, rfl, rfl⟩⟩

/-- SRST changes the tree, the counts and the lengths; a host write changes each table but the tree. -/
theorem witness_NothingIsRebuiltAutomatically :
    (∃ t, step ({ fooFull with freq := fooCounted.freq }.withFetchWord 32 9) = .next t ∧ t.node ≠ fooFull.node ∧
      t.freq ≠ fooCounted.freq ∧ t.codelen ≠ fooFull.codelen) ∧
    (∃ t, step (idleWith (.op (.wr 0x00800 1))) = .next t ∧ t.codebits ≠ fooFull.codebits) :=
  ⟨⟨_, rfl, by decide, fun h => absurd (congrArg (fun f => f[0x66]) h) (by decide +kernel),
      fun h => absurd (congrArg (fun f => f[0x66]) h) (by decide +kernel)⟩, ⟨_, rfl, by decide⟩⟩

theorem witness_ResetGivesTheResetState :
    turn (busyWith .reset) = .input .reset [] ∧ turn (idleWith .reset) = .input .reset [] := by decide

theorem witness_ResetStateMeetsTheInvariant : Params.wellFormed ⟨4, 256⟩ = true := by decide

/-- A state with every part of the invariant, and its step: COUNT from a loaded input with a tree and a table. -/
theorem witness_steps_keep_invariants :
    let s := fooFull.withFetchWord 32 1
    s.paramsOk ∧ s.memoriesOk ∧ s.statusOk ∧ s.gateOk ∧ TreeInvariant s.node ∧ ∃ t, step s = .next t :=
  ⟨by decide +kernel, by decide +kernel, by decide +kernel, by decide +kernel, .inr ⟨2, fooNodes_isTree⟩,
    (match step (fooFull.withFetchWord 32 1) with | .next t => t | .fault _ => fooFull | .refused _ => fooFull), by rfl⟩

/-- A recorded error, gated: the host's next write of CMD is dropped. -/
theorem witness_gate_with_fault :
    let s : State := { idleWith (.op (.cmd .count)) with fault := true, err := 2, errinfo := 2 }
    s.statusOk ∧ s.gateOk ∧ ∃ t, step s = .next t :=
  ⟨by decide +kernel, by decide +kernel, _, rfl⟩

end Sys2Proof.Tests
end

section
/-! SUPPORT. The decoder and the encoder agree (30_encoding.md R91 to R96): what the two fields of a word are as
numbers, what the opcode map answers, and the partition of the words that `decode` makes of them. -/

namespace Sys2Proof

/-! ## The fields of a word -/

theorem opcodeField_toNat (w : Word) : (opcodeField w).toNat = w.toNat % 256 := by
  simp [opcodeField]

theorem zeroField_toNat (w : Word) : (zeroField w).toNat = w.toNat / 256 := by
  have hw := w.isLt
  simp only [zeroField, BitVec.extractLsb'_toNat, Nat.shiftRight_eq_div_pow]
  omega

theorem zeroField_eq_zero_iff (w : Word) : zeroField w = 0 ↔ w.toNat < 256 := by
  rw [← BitVec.toNat_inj, zeroField_toNat, show (0 : BitVec 24).toNat = 0 from rfl]
  omega

/-! ## The word of a command -/

theorem encode_toNat (i : Instr) : (encode i).toNat = (opcodeOf i).toNat :=
  (BitVec.toNat_append 0#24 (opcodeOf i)).trans (by simp)

theorem formatC (i : Instr) : Laws.FormatC.Statement i := by
  cases i with
  | nop => exact Laws.FormatC.nop
  | count => exact Laws.FormatC.count
  | build => exact Laws.FormatC.build
  | derive => exact Laws.FormatC.derive
  | encode => exact Laws.FormatC.encode
  | decode => exact Laws.FormatC.decode
  | decodec => exact Laws.FormatC.decodec
  | mktable => exact Laws.FormatC.mktable
  | clrf => exact Laws.FormatC.clrf
  | srst => exact Laws.FormatC.srst

/-! ## The opcode map -/

theorem opcodeMap_opcodeOf (i : Instr) : opcodeMap (opcodeOf i) = .command i := by
  cases i <;> rfl

/-- An opcode above 9 is reserved (30_encoding.md R94). -/
theorem opcodeMap_of_nine_lt {op : BitVec 8} (h : 9 < op.toNat) : opcodeMap op = .illegal .reservedOpcode := by
  unfold opcodeMap
  split
  case h_11 => rfl
  all_goals omega

/-- Every opcode up to 9 is a command's: position `op` of the list of the ten (30_encoding.md R93). -/
theorem exists_opcodeOf_eq {op : BitVec 8} (h : op.toNat ≤ 9) : ∃ i, op = opcodeOf i := by
  have hall : ∀ n ≤ 9, ∃ i ∈ Instr.all, n = (opcodeOf i).toNat := by decide
  obtain ⟨i, -, hi⟩ := hall op.toNat h
  exact ⟨i, BitVec.eq_of_toNat_eq hi⟩

/-! ## The decoder -/

theorem decode_of_lt {w : Word} (h : w.toNat < 256) : decode w = opcodeMap (opcodeField w) :=
  if_neg (not_not_intro ((zeroField_eq_zero_iff w).2 h))

theorem decode_of_ge {w : Word} (h : 256 ≤ w.toNat) : decode w = .illegal .zeroField :=
  if_pos fun h0 => absurd ((zeroField_eq_zero_iff w).1 h0) (by omega)

theorem decode_encode (i : Instr) : decode (encode i) = .command i := by
  obtain ⟨-, hzero, hop, -⟩ := formatC i
  rw [decode, if_neg (not_not_intro hzero), hop, opcodeMap_opcodeOf]

theorem encode_toNat_le (i : Instr) : (encode i).toNat ≤ 9 := by
  obtain ⟨-, -, -, hle⟩ := formatC i
  rwa [encode_toNat]

/-- A word up to 9 is a command's word. -/
theorem exists_encode_eq {w : Word} (h : w.toNat ≤ 9) : ∃ i, w = encode i := by
  have hop : (opcodeField w).toNat = w.toNat := by rw [opcodeField_toNat]; omega
  obtain ⟨i, hi⟩ := exists_opcodeOf_eq (hop.trans_le h)
  exact ⟨i, BitVec.eq_of_toNat_eq (by rw [encode_toNat, ← hi, hop])⟩

theorem decode_of_reserved {w : Word} (h : 9 < w.toNat) (h' : w.toNat < 256) :
    decode w = .illegal .reservedOpcode := by
  rw [decode_of_lt h']
  exact opcodeMap_of_nine_lt (by rw [opcodeField_toNat]; omega)

/-- The partition of the words (30_encoding.md R96): the word of a command, a reserved opcode, or a ZERO field that is
not 0. -/
theorem decode_cases (w : Word) :
    (∃ i, w = encode i ∧ w.toNat ≤ 9 ∧ decode w = .command i) ∨
    (9 < w.toNat ∧ w.toNat < 256 ∧ decode w = .illegal .reservedOpcode) ∨
    (256 ≤ w.toNat ∧ decode w = .illegal .zeroField) := by
  obtain h | h := Nat.lt_or_ge w.toNat 256
  · obtain h9 | h9 := Nat.lt_or_ge 9 w.toNat
    · exact .inr (.inl ⟨h9, h, decode_of_reserved h9 h⟩)
    · obtain ⟨i, rfl⟩ := exists_encode_eq h9
      exact .inl ⟨i, rfl, h9, decode_encode i⟩
  · exact .inr (.inr ⟨h, decode_of_ge h⟩)

theorem decode_eq_command_iff (w : Word) (i : Instr) : decode w = .command i ↔ w = encode i := by
  refine ⟨fun hd => ?_, fun hw => hw ▸ decode_encode i⟩
  obtain ⟨j, hw, -, hj⟩ | ⟨-, -, hr⟩ | ⟨-, hz⟩ := decode_cases w
  · have hij : j = i := by simpa [hd] using hj.symm
    exact hij ▸ hw
  · simp [hd] at hr
  · simp [hd] at hz

theorem exists_decode_eq_command_iff (w : Word) : (∃ i, decode w = .command i) ↔ w.toNat ≤ 9 := by
  simp only [decode_eq_command_iff]
  exact ⟨fun ⟨i, hw⟩ => hw ▸ encode_toNat_le i, exists_encode_eq⟩

theorem decode_eq_reservedOpcode_iff (w : Word) :
    decode w = .illegal .reservedOpcode ↔ 9 < w.toNat ∧ w.toNat < 256 := by
  obtain ⟨_, -, hle, hd⟩ | ⟨hlo, hhi, hd⟩ | ⟨hge, hd⟩ := decode_cases w
  · exact iff_of_false (by simp [hd]) (by omega)
  · exact iff_of_true hd ⟨hlo, hhi⟩
  · exact iff_of_false (by simp [hd]) (by omega)

theorem decode_eq_zeroField_iff (w : Word) : decode w = .illegal .zeroField ↔ 256 ≤ w.toNat := by
  obtain ⟨_, -, hle, hd⟩ | ⟨-, hhi, hd⟩ | ⟨hge, hd⟩ := decode_cases w
  · exact iff_of_false (by simp [hd]) (by omega)
  · exact iff_of_false (by simp [hd]) (by omega)
  · exact iff_of_true hd hge

/-- Settles O2, by the partition of the words `decode_cases` and the round trip `decode_encode`. -/
theorem decodeAndEncodeAgree : Obligations.DecodeAndEncodeAgree :=
  ⟨fun i _ => decode_encode i, fun w i => (decode_eq_command_iff w i).1, exists_decode_eq_command_iff,
    decode_eq_reservedOpcode_iff, decode_eq_zeroField_iff⟩

end Sys2Proof
end

section
/-! SUPPORT. COUNT (40_count.md R111, R114): what a run of tallies leaves in the table, symbol by symbol, and the sum of
the counts over all symbols. -/

namespace Sys2Proof.Machine

/-! ## The tally -/

/-- One tally adds 1 to the symbol's own entry and leaves the others. -/
theorem tally_getElem (freq : Vector Word 256) (d c : Sym) :
    (tally freq d)[c.toNat]'(c.isLt) = freq[c.toNat]'(c.isLt) + if d = c then 1 else 0 := by
  by_cases h : d = c
  · subst h; simp [tally]
  · have hne : d.toNat ≠ c.toNat := fun hn => h (BitVec.eq_of_toNat_eq hn)
    simp [tally, Vector.getElem_set_ne, hne, h]

/-- A run of tallies adds to each entry the number of times its symbol occurs, modulo 2^32. -/
theorem foldl_tally_getElem (c : Sym) : ∀ (cs : List Sym) (freq : Vector Word 256),
    (cs.foldl tally freq)[c.toNat]'(c.isLt) = freq[c.toNat]'(c.isLt) + BitVec.ofNat 32 (cs.count c) := by
  intro cs
  induction cs with
  | nil => simp
  | cons d cs ih =>
    intro freq
    rw [List.foldl_cons, ih, tally_getElem, List.count_cons]
    by_cases h : d = c
    · simp [h, BitVec.ofNat_add, BitVec.add_assoc, BitVec.add_comm (1#32)]
    · simp [h]

/-! ## The counts of the input -/

@[simp] theorem State.symbols_length (s : State) : s.symbols.length = s.symLen.toNat := by simp [State.symbols]

/-- No entry can overflow: SYM_LEN is itself a word. -/
theorem State.count_symbols_lt (s : State) (c : Sym) : s.symbols.count c < 2 ^ 32 :=
  (s.symbols_length ▸ List.count_le_length).trans_lt s.symLen.isLt

/-- FREQ[c] after COUNT's loop is the number of positions that hold c (40_count.md R114). -/
theorem countBody_freqAt_toNat (s : State) (c : Sym) : ((countBody s).freqAt c).toNat = s.symbols.count c := by
  have h : (countBody s).freqAt c = BitVec.ofNat 32 (s.symbols.count c) := by
    simp [State.freqAt, foldl_tally_getElem]
  rw [h, BitVec.toNat_ofNat, Nat.mod_eq_of_lt (s.count_symbols_lt c)]

/-- FREQ[c] after COUNT's loop is non-zero exactly for the symbols that occur (40_count.md R114). -/
theorem countBody_freqAt_ne_zero_iff (s : State) (c : Sym) : (countBody s).freqAt c ≠ 0 ↔ c ∈ s.symbols := by
  rw [← List.count_pos_iff, ← countBody_freqAt_toNat, Nat.pos_iff_ne_zero]
  exact BitVec.toNat_ne

/-! ## The sum over all symbols -/

theorem allSymbols_nodup : allSymbols.Nodup := by
  refine List.nodup_range.map_on fun m hm n hn h => ?_
  have hmod : m % 256 = n % 256 := by simpa using congrArg BitVec.toNat h
  rw [List.mem_range] at hm hn
  omega

/-- The counts of a list sum to its length over any list that has each of its members once. -/
theorem sum_map_count_eq_length {α : Type} [DecidableEq α] {l cs : List α} (hl : l.Nodup)
    (hcs : ∀ c ∈ cs, c ∈ l) : (l.map fun c => cs.count c).sum = cs.length := by
  rw [← List.sum_toFinset _ hl, ← Multiset.coe_card,
    ← Multiset.sum_count_eq_card (s := l.toFinset) (by simpa using hcs)]
  simp only [Multiset.coe_count]

/-- The entries COUNT leaves sum to SYM_LEN (40_count.md R114). -/
theorem sum_countBody_freqAt (s : State) :
    (allSymbols.map fun c => ((countBody s).freqAt c).toNat).sum = s.symLen.toNat := by
  simp only [countBody_freqAt_toNat]
  rw [sum_map_count_eq_length allSymbols_nodup fun c _ => mem_allSymbols c, State.symbols_length]

/-! ## COUNT -/

/-- COUNT of an input within SYM_CAP ends with success. -/
theorem exec_count_of_le {s : State} (h : s.symLen.toNat ≤ s.symcap.toNat) :
    exec .count s = .next (endCommand (countBody s)) :=
  if_neg (Nat.not_lt.2 h)

end Sys2Proof.Machine

namespace Sys2Proof
open Machine

/-- Settles O18: the table is the one `countBody` leaves, whose entries are the counts of the symbols. -/
theorem countTalliesTheSymbols : Obligations.CountTalliesTheSymbols := fun s h =>
  ⟨(countBody s).freq, exec_count_of_le h, countBody_freqAt_toNat s, countBody_freqAt_ne_zero_iff s,
    sum_countBody_freqAt s⟩

end Sys2Proof
end

section
/-! SUPPORT. BUILD (41_build.md): the order of extraction, PQ, the leaves, and an invariant of the merge loop from which
the tree invariant (10_state.md R42) and the choice of each merge's two nodes (41_build.md R124) are read off. -/

namespace Sys2Proof.Machine

/-! ## The order of extraction -/

theorem Key.before_iff (x y : Key) : x.before y = true ↔
    x.weight.toNat < y.weight.toNat ∨ (x.weight.toNat = y.weight.toNat ∧ x.index < y.index) := by
  simp [Key.before, BitVec.toNat_inj]

theorem Key.before_trans {x y z : Key} (hxy : x.before y = true) (hyz : y.before z = true) : x.before z = true := by
  rw [Key.before_iff] at hxy hyz ⊢
  omega

/-- Keys of different nodes are comparable. -/
theorem Key.before_of_not_before {x y : Key} (hne : x.index ≠ y.index) (h : ¬ y.before x = true) :
    x.before y = true := by
  rw [Key.before_iff] at h ⊢
  omega

theorem Key.weight_le_of_before {x y : Key} (h : x.before y = true) : x.weight.toNat ≤ y.weight.toNat := by
  rw [Key.before_iff] at h
  omega

/-! ## PQ -/

/-- PQ is in the order of extraction. -/
def InOrder (pq : List Key) : Prop := pq.Pairwise fun x y => x.before y = true

theorem insertKey_perm (k : Key) (pq : List Key) : (insertKey k pq).Perm (k :: pq) := by
  induction pq with
  | nil => exact .refl _
  | cons x xs ih =>
    unfold insertKey
    split
    · exact .refl _
    · exact (ih.cons x).trans (.swap k x xs)

theorem insertKey_inOrder {k : Key} {pq : List Key} (hpq : InOrder pq) (hk : ∀ x ∈ pq, k.index ≠ x.index) :
    InOrder (insertKey k pq) := by
  induction pq with
  | nil => exact List.pairwise_singleton _ k
  | cons x xs ih =>
    obtain ⟨hx, hxs⟩ := List.pairwise_cons.1 hpq
    unfold insertKey
    split
    next hkx =>
      refine List.pairwise_cons.2 ⟨fun y hy => ?_, hpq⟩
      obtain rfl | hy := List.mem_cons.1 hy
      · exact hkx
      · exact Key.before_trans hkx (hx y hy)
    next hkx =>
      refine List.pairwise_cons.2 ⟨fun y hy => ?_, ih hxs fun y hy => hk y (List.mem_cons_of_mem x hy)⟩
      obtain rfl | hy := List.mem_cons.1 ((insertKey_perm k xs).mem_iff.1 hy)
      · exact Key.before_of_not_before (hk x List.mem_cons_self).symm hkx
      · exact hx y hy

/-- The key of a node that stands at an index. -/
def keyOf (p : Node × Nat) : Key := ⟨p.1.weight, p.2⟩

theorem leafQueue_perm (ns : List Node) (i : Nat) : (leafQueue i ns).Perm ((ns.zipIdx i).map keyOf) := by
  induction ns generalizing i with
  | nil => exact .refl _
  | cons m ns ih => exact (insertKey_perm _ _).trans ((ih (i + 1)).cons (keyOf (m, i)))

theorem leafQueue_inOrder (ns : List Node) (i : Nat) : InOrder (leafQueue i ns) := by
  induction ns generalizing i with
  | nil => exact List.Pairwise.nil
  | cons m ns ih =>
    refine insertKey_inOrder (ih (i + 1)) fun x hx => ?_
    obtain ⟨p, hp, rfl⟩ := List.mem_map.1 ((leafQueue_perm ns (i + 1)).mem_iff.1 hx)
    exact Nat.ne_of_lt (List.le_snd_of_mem_zipIdx hp)

theorem leafQueue_length (ns : List Node) (i : Nat) : (leafQueue i ns).length = ns.length := by
  simp [(leafQueue_perm ns i).length_eq]

/-! ## Nodes and their children -/

theorem nodeAt_of_lt {ns : List Node} {k : Nat} (h : k < ns.length) : nodeAt ns k = ns[k] :=
  List.getD_eq_getElem _ _ h

theorem nodeAt_mem {ns : List Node} {k : Nat} (h : k < ns.length) : nodeAt ns k ∈ ns :=
  nodeAt_of_lt h ▸ List.getElem_mem h

theorem nodeAt_append_left {ns : List Node} (ms : List Node) {k : Nat} (h : k < ns.length) :
    nodeAt (ns ++ ms) k = nodeAt ns k :=
  List.getD_append _ _ _ _ h

@[simp] theorem nodeAt_concat_length (ns : List Node) (m : Node) : nodeAt (ns ++ [m]) ns.length = m := by
  simp [nodeAt]

theorem nodeAt_take (ns : List Node) {j k : Nat} (h : j < k) : nodeAt (ns.take k) j = nodeAt ns j := by
  simp [nodeAt, h]

theorem Node.children_of_leaf {m : Node} (h : m.kind = false) : m.children = [] := by
  cases m with
  | leaf => rfl
  | internal => cases h

theorem mergeNode_left (a b : Key) (h : a.index < 512) : (mergeNode a b).left.toNat = a.index :=
  (BitVec.toNat_ofNat _ _).trans (Nat.mod_eq_of_lt h)

theorem mergeNode_right (a b : Key) (h : b.index < 512) : (mergeNode a b).right.toNat = b.index :=
  (BitVec.toNat_ofNat _ _).trans (Nat.mod_eq_of_lt h)

theorem mergeNode_children {a b : Key} (ha : a.index < 512) (hb : b.index < 512) :
    (mergeNode a b).children = [a.index, b.index] :=
  congrArg₂ (fun l r => [l, r]) (mergeNode_left a b ha) (mergeNode_right a b hb)

theorem mergeNode_weight {a b : Key} (h : a.weight.toNat + b.weight.toNat < 2 ^ 40) :
    (mergeNode a b).weight.toNat = a.weight.toNat + b.weight.toNat :=
  BitVec.toNat_add_of_lt h

theorem mem_candidates_iff (ns : List Node) (k j : Nat) :
    j ∈ candidates ns k ↔ j < k ∧ j ∉ (ns.take k).flatMap Node.children := by
  simp [candidates]

theorem lt_of_mem_candidates {ns : List Node} {k j : Nat} (h : j ∈ candidates ns k) : j < k :=
  ((mem_candidates_iff ns k j).1 h).1

theorem candidates_take (ns : List Node) (k : Nat) : candidates (ns.take k) k = candidates ns k := by
  rw [candidates, List.take_take, Nat.min_self, candidates]

theorem extractedBefore_take (ns : List Node) {i j k : Nat} (hi : i < k) (hj : j < k) :
    extractedBefore (ns.take k) i j ↔ extractedBefore ns i j := by
  simp only [extractedBefore, nodeAt_take ns hi, nodeAt_take ns hj]

/-! ## The merge loop -/

/-- The leaves a merge loop starts from, as 10_state.md R42 asks for them. -/
structure LeafList (leaves : List Node) : Prop where
  length_le : leaves.length ≤ 256
  kind : ∀ m ∈ leaves, m.kind = false
  ascending : leaves.Pairwise fun x y => x.sym.toNat < y.sym.toNat
  weight : ∀ m ∈ leaves, 1 ≤ m.weight.toNat ∧ m.weight.toNat < 2 ^ 32

/-- The sum of the leaves' weights. -/
def totalWeight (leaves : List Node) : Nat := (leaves.map fun m => m.weight.toNat).sum

/-- `m` is the node that a merge makes when the nodes `ns` exist, the first `n` of them the leaves: its children are the
two first in the order of extraction of the nodes without a parent, and no earlier merge was heavier. -/
structure Merged (n : Nat) (ns : List Node) (m : Node) : Prop where
  kind : m.kind = true
  sum : m.weight.toNat = (nodeAt ns m.left.toNat).weight.toNat + (nodeAt ns m.right.toNat).weight.toNat
  rising : ∀ j < ns.length, n ≤ j → (nodeAt ns j).weight.toNat ≤ m.weight.toNat
  left_mem : m.left.toNat ∈ candidates ns ns.length
  right_mem : m.right.toNat ∈ candidates ns ns.length
  left_ne_right : m.left ≠ m.right
  left_first : ∀ j ∈ candidates ns ns.length, j ≠ m.left.toNat → extractedBefore ns m.left.toNat j
  right_next : ∀ j ∈ candidates ns ns.length, j ≠ m.left.toNat → j ≠ m.right.toNat →
    extractedBefore ns m.right.toNat j

/-- The invariant of the merge loop (41_build.md R123) that started from `leaves`: the nodes `ns` are made and PQ is
`pq`. -/
structure MergeState (leaves ns : List Node) (pq : List Key) : Prop where
  leavesFirst : leaves <+: ns
  /-- Each merge takes two members out of PQ, puts one in and makes one node (41_build.md R127). -/
  size : ns.length + pq.length = 2 * leaves.length
  inOrder : InOrder pq
  keys : ∀ x ∈ pq, (nodeAt ns x.index).weight = x.weight
  /-- Each node is a member of PQ or the child of one node, not both. -/
  partition : (pq.map Key.index ++ ns.flatMap Node.children).Perm (List.range ns.length)
  newest : ∃ x ∈ pq, x.index + 1 = ns.length
  total : (pq.map fun x => x.weight.toNat).sum = totalWeight leaves
  /-- No merge so far is heavier than any merge still to come. -/
  merges_le : ∀ k < ns.length, leaves.length ≤ k →
    pq.Pairwise fun x y => (nodeAt ns k).weight.toNat ≤ x.weight.toNat + y.weight.toNat
  merged : ∀ k < ns.length, leaves.length ≤ k → Merged leaves.length (ns.take k) (nodeAt ns k)

/-- What holds before the loop and every merge keeps holds when the loop ends, with one member left in PQ: the fuel
suffices. -/
theorem mergeLoop_ends {P : List Node → List Key → Prop}
    (hstep : ∀ ns a b pq, P ns (a :: b :: pq) →
      P (ns ++ [mergeNode a b]) (insertKey ⟨a.weight + b.weight, ns.length⟩ pq))
    (fuel : Nat) {ns : List Node} {pq : List Key} (h : P ns pq) (hne : pq ≠ []) (hfuel : pq.length ≤ fuel + 1) :
    ∃ r, P (mergeLoop fuel ns pq) [r] := by
  induction fuel generalizing ns pq with
  | zero =>
    obtain ⟨r, rfl⟩ := List.length_eq_one_iff.1 (hfuel.antisymm (List.length_pos_iff.2 hne))
    exact ⟨r, h⟩
  | succ fuel ih =>
    match pq with
    | [r] => exact ⟨r, h⟩
    | a :: b :: pq =>
      have hlen := (insertKey_perm ⟨a.weight + b.weight, ns.length⟩ pq).length_eq
      simp only [List.length_cons] at hlen hfuel
      exact ih (hstep ns a b pq h) (List.ne_nil_of_length_eq_add_one hlen) (by omega)

section
variable {leaves ns : List Node} {a b : Key} {pq : List Key}

theorem LeafList.totalWeight_lt (hl : LeafList leaves) : totalWeight leaves < 2 ^ 40 := by
  have hsum := List.sum_le_card_nsmul (leaves.map fun m => m.weight.toNat) (2 ^ 32 - 1) <| by
    intro w hw
    obtain ⟨m, hm, rfl⟩ := List.mem_map.1 hw
    have := (hl.weight m hm).2
    omega
  have hlen := hl.length_le
  simp only [List.length_map, smul_eq_mul] at hsum
  unfold totalWeight
  omega

/-- The merge loop starts with the leaves, all of them in PQ (41_build.md R122). -/
theorem LeafList.mergeState_leafQueue (hl : LeafList leaves) (hne : leaves ≠ []) :
    MergeState leaves leaves (leafQueue 0 leaves) := by
  have hperm := leafQueue_perm leaves 0
  have hchildren : leaves.flatMap Node.children = [] :=
    List.flatMap_eq_nil_iff.2 fun m hm => Node.children_of_leaf (hl.kind m hm)
  have hindex : ((leafQueue 0 leaves).map Key.index).Perm (List.range leaves.length) := by
    refine (hperm.map Key.index).trans (.of_eq ?_)
    rw [List.map_map, List.range_eq_range', ← List.zipIdx_map_snd 0 leaves]
    rfl
  exact {
    leavesFirst := List.prefix_refl _
    size := by rw [leafQueue_length]; omega
    inOrder := leafQueue_inOrder leaves 0
    keys := fun x hx => by
      obtain ⟨⟨m, i⟩, hp, rfl⟩ := List.mem_map.1 (hperm.mem_iff.1 hx)
      have hi : leaves[i]? = some m := List.mk_mem_zipIdx_iff_getElem?.1 hp
      simp [nodeAt, keyOf, hi]
    partition := by rwa [hchildren, List.append_nil]
    newest := by
      have hpos := List.length_pos_iff.2 hne
      have hlast : leaves.length - 1 ∈ (leafQueue 0 leaves).map Key.index :=
        hindex.mem_iff.2 (List.mem_range.2 (by omega))
      obtain ⟨x, hx, hlast⟩ := List.mem_map.1 hlast
      exact ⟨x, hx, by omega⟩
    total := by
      rw [(hperm.map fun x : Key => x.weight.toNat).sum_eq, List.map_map, totalWeight]
      conv_rhs => rw [← List.zipIdx_map_fst 0 leaves, List.map_map]
      rfl
    merges_le := fun k hk hk' => absurd hk (Nat.not_lt.2 hk')
    merged := fun k hk hk' => absurd hk (Nat.not_lt.2 hk') }

/-- The members of PQ are the nodes that are no child yet. -/
theorem MergeState.mem_candidates_iff (h : MergeState leaves ns pq) (j : Nat) :
    j ∈ candidates ns ns.length ↔ ∃ x ∈ pq, x.index = j := by
  have hnodup := h.partition.nodup_iff.2 List.nodup_range
  have hmem := h.partition.mem_iff (a := j)
  simp only [List.mem_append, List.mem_map, List.mem_range] at hmem
  rw [Machine.mem_candidates_iff, List.take_length, ← hmem]
  have hdisj := List.disjoint_of_nodup_append hnodup
  exact ⟨fun ⟨hor, hn⟩ => hor.resolve_right hn,
    fun hx => ⟨.inl hx, fun hc => hdisj (List.mem_map.2 hx) hc⟩⟩

theorem MergeState.index_lt (h : MergeState leaves ns pq) {x : Key} (hx : x ∈ pq) : x.index < ns.length :=
  lt_of_mem_candidates ((h.mem_candidates_iff _).2 ⟨x, hx, rfl⟩)

/-- Two members of PQ stand in the order of extraction as their nodes do. -/
theorem MergeState.extractedBefore (h : MergeState leaves ns pq) {x y : Key} (hx : x ∈ pq) (hy : y ∈ pq)
    (hxy : x.before y = true) : extractedBefore ns x.index y.index := by
  rw [Machine.extractedBefore, h.keys x hx, h.keys y hy, ← BitVec.toNat_inj]
  exact (Key.before_iff x y).1 hxy

/-- While PQ has two members, the nodes are few enough that an index fits in 9 bits. -/
theorem MergeState.index_lt_512 (h : MergeState leaves ns (a :: b :: pq)) (hl : LeafList leaves) {x : Key}
    (hx : x ∈ a :: b :: pq) : x.index < 512 := by
  have hindex := h.index_lt hx
  have hsize := h.size
  have hlen := hl.length_le
  simp only [List.length_cons] at hsize
  omega

/-- A merge's weight fits in 40 bits (41_build.md R128). -/
theorem MergeState.weight_add_lt (h : MergeState leaves ns (a :: b :: pq)) (hl : LeafList leaves) :
    a.weight.toNat + b.weight.toNat < 2 ^ 40 := by
  have htotal := h.total
  have hlt := hl.totalWeight_lt
  simp only [List.map_cons, List.sum_cons] at htotal
  omega

/-- The node that the loop makes next is the merge of the two first in the order of extraction. -/
theorem MergeState.merged_mergeNode (h : MergeState leaves ns (a :: b :: pq)) (hl : LeafList leaves) :
    Merged leaves.length ns (mergeNode a b) := by
  obtain ⟨ha, hb, -⟩ := List.pairwise_cons.1 h.inOrder |>.imp_right List.pairwise_cons.1
  have hma : a ∈ a :: b :: pq := List.mem_cons_self
  have hmb : b ∈ a :: b :: pq := List.mem_cons_of_mem a List.mem_cons_self
  have hleft := mergeNode_left a b (h.index_lt_512 hl hma)
  have hright := mergeNode_right a b (h.index_lt_512 hl hmb)
  have hweight := mergeNode_weight (h.weight_add_lt hl)
  exact {
    kind := rfl
    sum := by rw [hleft, hright, hweight, h.keys a hma, h.keys b hmb]
    rising := fun j hj hj' => by
      rw [hweight]
      exact (List.pairwise_cons.1 (h.merges_le j hj hj')).1 b List.mem_cons_self
    left_mem := by rw [hleft]; exact (h.mem_candidates_iff _).2 ⟨a, hma, rfl⟩
    right_mem := by rw [hright]; exact (h.mem_candidates_iff _).2 ⟨b, hmb, rfl⟩
    left_ne_right := by
      have hnodup := (h.partition.nodup_iff.2 List.nodup_range).of_append_left
      rw [← BitVec.toNat_ne_iff_ne, hleft, hright]
      exact fun hab => (List.nodup_cons.1 hnodup).1 (hab ▸ List.mem_cons_self)
    left_first := fun j hj hne => by
      obtain ⟨x, hx, rfl⟩ := (h.mem_candidates_iff j).1 hj
      rw [hleft] at hne ⊢
      obtain rfl | hxb := List.mem_cons.1 hx
      · exact absurd rfl hne
      · exact h.extractedBefore hma hx (ha x hxb)
    right_next := fun j hj hne hne' => by
      obtain ⟨x, hx, rfl⟩ := (h.mem_candidates_iff j).1 hj
      rw [hleft] at hne
      rw [hright] at hne' ⊢
      obtain rfl | rfl | hxpq : x = a ∨ x = b ∨ x ∈ pq := by simpa using hx
      · exact absurd rfl hne
      · exact absurd rfl hne'
      · exact h.extractedBefore hmb hx (hb x hxpq) }

/-- A bound on the weights of the pairs of PQ's members, after a merge. -/
theorem insertKey_pairwise_le {W : Nat} {k : Key} (hk : ∀ x ∈ pq, W ≤ k.weight.toNat + x.weight.toNat)
    (hpq : pq.Pairwise fun x y => W ≤ x.weight.toNat + y.weight.toNat) :
    (insertKey k pq).Pairwise fun x y => W ≤ x.weight.toNat + y.weight.toNat :=
  ((insertKey_perm k pq).pairwise_iff fun h => Nat.add_comm _ _ ▸ h).2 (List.pairwise_cons.2 ⟨hk, hpq⟩)

/-- The parent is a member of PQ in its children's place. -/
theorem MergeState.partition_merge (h : MergeState leaves ns (a :: b :: pq)) (hl : LeafList leaves) :
    ((insertKey ⟨a.weight + b.weight, ns.length⟩ pq).map Key.index ++
        (ns ++ [mergeNode a b]).flatMap Node.children).Perm (List.range (ns ++ [mergeNode a b]).length) := by
  have hchildren := mergeNode_children (h.index_lt_512 hl List.mem_cons_self)
    (h.index_lt_512 hl (List.mem_cons_of_mem a List.mem_cons_self))
  rw [List.flatMap_append, List.flatMap_singleton, hchildren, List.length_append, List.length_singleton,
    List.range_succ]
  refine (((insertKey_perm _ pq).map Key.index).append_right _).trans
    (.trans ?_ (h.partition.append_right [ns.length]))
  rw [← Multiset.coe_eq_coe]
  simp only [List.map_cons, ← Multiset.coe_add, ← Multiset.cons_coe, ← Multiset.singleton_add, Multiset.coe_nil,
    add_zero]
  abel

/-- The merge itself is not heavier than any merge still to come, since it took the two smallest. -/
theorem MergeState.merge_le (h : MergeState leaves ns (a :: b :: pq)) :
    pq.Pairwise fun x y => a.weight.toNat + b.weight.toNat ≤ x.weight.toNat + y.weight.toNat := by
  obtain ⟨ha, hb, -⟩ := List.pairwise_cons.1 h.inOrder |>.imp_right List.pairwise_cons.1
  refine List.pairwise_of_forall_mem_list fun x hx y hy => ?_
  have hab := Key.weight_le_of_before (ha b List.mem_cons_self)
  have hbx := Key.weight_le_of_before (hb x hx)
  have hby := Key.weight_le_of_before (hb y hy)
  omega

theorem lt_or_eq_of_lt_length_concat {m : Node} {k : Nat} (h : k < (ns ++ [m]).length) :
    k < ns.length ∨ k = ns.length := by
  rw [List.length_append, List.length_singleton] at h
  omega

/-- Every merge keeps the invariant. -/
theorem MergeState.merge (h : MergeState leaves ns (a :: b :: pq)) (hl : LeafList leaves) :
    MergeState leaves (ns ++ [mergeNode a b]) (insertKey ⟨a.weight + b.weight, ns.length⟩ pq) := by
  have hperm := insertKey_perm ⟨a.weight + b.weight, ns.length⟩ pq
  have hindex : ∀ x ∈ pq, x.index < ns.length := fun x hx =>
    h.index_lt (List.mem_cons_of_mem a (List.mem_cons_of_mem b hx))
  have hweight : (a.weight + b.weight).toNat = _ := mergeNode_weight (h.weight_add_lt hl)
  refine {
    leavesFirst := h.leavesFirst.trans (List.prefix_append _ _)
    size := ?size
    inOrder := insertKey_inOrder h.inOrder.tail.tail fun x hx => (hindex x hx).ne'
    keys := fun x hx => ?keys
    partition := h.partition_merge hl
    newest := ⟨_, hperm.mem_iff.2 List.mem_cons_self, by simp⟩
    total := ?total
    merges_le := fun k hk hk' => ?merges_le
    merged := fun k hk hk' => ?merged }
  case size =>
    have hsize := h.size
    rw [hperm.length_eq]
    simp only [List.length_append, List.length_cons, List.length_nil] at hsize ⊢
    omega
  case keys =>
    obtain rfl | hx := List.mem_cons.1 (hperm.mem_iff.1 hx)
    · exact congrArg Node.weight (nodeAt_concat_length ns _)
    · rw [nodeAt_append_left _ (hindex x hx), h.keys x (List.mem_cons_of_mem a (List.mem_cons_of_mem b hx))]
  case total =>
    have htotal := h.total
    rw [(hperm.map fun x : Key => x.weight.toNat).sum_eq]
    simp only [List.map_cons, List.sum_cons, hweight] at htotal ⊢
    omega
  case merges_le =>
    obtain hk | rfl := lt_or_eq_of_lt_length_concat hk
    · obtain ⟨hak, -, hpqk⟩ := List.pairwise_cons.1 (h.merges_le k hk hk') |>.imp_right List.pairwise_cons.1
      rw [nodeAt_append_left _ hk]
      refine insertKey_pairwise_le (fun x _ => ?_) hpqk
      exact (hak b List.mem_cons_self).trans (hweight ▸ Nat.le_add_right _ _)
    · rw [nodeAt_concat_length]
      exact insertKey_pairwise_le (fun x _ => Nat.le_add_right _ _) (h.merge_le.imp hweight.trans_le)
  case merged =>
    obtain hk | rfl := lt_or_eq_of_lt_length_concat hk
    · rw [nodeAt_append_left _ hk, List.take_append_of_le_length hk.le]
      exact h.merged k hk hk'
    · rw [nodeAt_concat_length, List.take_left]
      exact h.merged_mergeNode hl

/-! ## The tree -/

variable {r : Key}

theorem MergeState.nodeAt_leaf (h : MergeState leaves ns pq) {k : Nat} (hk : k < leaves.length) :
    nodeAt ns k = nodeAt leaves k := by
  obtain ⟨ms, rfl⟩ := h.leavesFirst
  exact nodeAt_append_left ms hk

/-- When PQ has one member left, it is the last node made. -/
theorem MergeState.root_index (h : MergeState leaves ns [r]) : r.index + 1 = ns.length := by
  obtain ⟨x, hx, hlast⟩ := h.newest
  rwa [List.mem_singleton.1 hx] at hlast

theorem MergeState.root_weight (h : MergeState leaves ns [r]) :
    (nodeAt ns (rootOf ns)).weight.toNat = totalWeight leaves := by
  have hroot : rootOf ns = r.index := by rw [rootOf, ← h.root_index, Nat.add_sub_cancel]
  rw [hroot, h.keys r List.mem_cons_self, ← h.total]
  simp

/-- 10_state.md R42 (d): the root is no child, and every other node is the child of one. -/
theorem MergeState.count_children (h : MergeState leaves ns [r]) {k : Nat} (hk : k < ns.length) :
    (ns.flatMap Node.children).count k = if k = ns.length - 1 then 0 else 1 := by
  have hcount := h.partition.count_eq k
  have hroot := h.root_index
  rw [List.count_append, List.count_eq_one_of_mem List.nodup_range (List.mem_range.2 hk), List.map_singleton,
    List.count_singleton] at hcount
  by_cases hkr : r.index = k
  · rw [if_pos (by omega)]
    simp only [hkr, beq_self_eq_true, if_true] at hcount
    omega
  · rw [if_neg (by omega)]
    simpa [hkr] using hcount

/-- What the loop leaves when PQ has one member meets the tree invariant (10_state.md R42). -/
theorem MergeState.isTree (h : MergeState leaves ns [r]) (hl : LeafList leaves) : IsTree leaves.length ns := by
  have hsize := h.size
  have hroot := h.root_index
  have hlen := hl.length_le
  rw [List.length_singleton] at hsize
  have hbelow : ∀ k < ns.length, leaves.length ≤ k →
      (nodeAt ns k).left.toNat < k ∧ (nodeAt ns k).right.toNat < k := fun k hk hk' => by
    have hm := h.merged k hk hk'
    have htake : (ns.take k).length = k := List.length_take_of_le hk.le
    exact ⟨(lt_of_mem_candidates hm.left_mem).trans_eq htake, (lt_of_mem_candidates hm.right_mem).trans_eq htake⟩
  exact {
    leaves := ⟨by omega, hlen⟩
    size := by omega
    leavesFirst := fun k hk => by rw [h.nodeAt_leaf hk]; exact hl.kind _ (nodeAt_mem hk)
    ascending := fun k hk j hj => by
      rw [h.nodeAt_leaf hk, h.nodeAt_leaf (hj.trans hk), nodeAt_of_lt hk, nodeAt_of_lt (hj.trans hk)]
      exact List.pairwise_iff_getElem.1 hl.ascending j k (hj.trans hk) hk hj
    internals := fun k hk hk' => (h.merged k hk hk').kind
    childrenBelow := fun k hk hk' =>
      ⟨(hbelow k hk hk').1, (hbelow k hk hk').2, (h.merged k hk hk').left_ne_right⟩
    oneParent := fun k hk => h.count_children hk
    sums := fun k hk hk' => by
      obtain ⟨hleft, hright⟩ := hbelow k hk hk'
      rw [(h.merged k hk hk').sum, nodeAt_take ns hleft, nodeAt_take ns hright]
    leafWeights := fun k hk => by rw [h.nodeAt_leaf hk]; exact hl.weight _ (nodeAt_mem hk)
    rising := fun k hk j hj hj' => by
      rw [← nodeAt_take ns hj]
      exact (h.merged k hk (hj'.trans hj.le)).rising j (hj.trans_eq (List.length_take_of_le hk.le).symm) hj' }

end

/-! ## The leaves -/

/-- The symbols with a count, in ascending order. -/
def State.countedSymbols (s : State) : List Sym := allSymbols.filter fun c => s.freqAt c != 0

/-- The leaf of a symbol (41_build.md R122). -/
def State.leafOf (s : State) (c : Sym) : Node := .leaf c ((s.freqAt c).setWidth 40)

theorem leafNodes_eq_map (s : State) : leafNodes s.freq = s.countedSymbols.map s.leafOf := by
  rw [State.countedSymbols, ← List.filterMap_eq_map', List.filterMap_filter]
  refine List.filterMap_congr fun c _ => ?_
  by_cases hc : s.freqAt c = 0
  · exact (if_pos hc).trans (if_neg (by simpa using hc)).symm
  · exact (if_neg hc).trans (if_pos (by simpa using hc)).symm

theorem leafNodes_length (s : State) : (leafNodes s.freq).length = distinctCount s := by
  rw [leafNodes_eq_map, List.length_map]
  rfl

@[simp] theorem State.leafOf_weight_toNat (s : State) (c : Sym) : (s.leafOf c).weight.toNat = (s.freqAt c).toNat :=
  BitVec.toNat_setWidth_of_le (by decide)

theorem allSymbols_ascending : allSymbols.Pairwise fun c d => c.toNat < d.toNat := by
  refine List.pairwise_map.2 (List.pairwise_lt_range.imp_of_mem fun hm hn h => ?_)
  rw [List.mem_range] at hm hn
  simpa [Nat.mod_eq_of_lt hm, Nat.mod_eq_of_lt hn] using h

theorem leafNodes_leafList (s : State) : LeafList (leafNodes s.freq) := by
  rw [leafNodes_eq_map]
  refine ⟨?length_le, ?kind, ?ascending, ?weight⟩
  case length_le =>
    rw [List.length_map, ← allSymbols_length]
    exact List.length_filter_le _ _
  case kind =>
    intro m hm
    obtain ⟨c, -, rfl⟩ := List.mem_map.1 hm
    rfl
  case ascending => exact List.pairwise_map.2 (allSymbols_ascending.filter _)
  case weight =>
    intro m hm
    obtain ⟨c, hc, rfl⟩ := List.mem_map.1 hm
    have hc : s.freqAt c ≠ 0 := by simpa [State.countedSymbols] using hc
    rw [State.leafOf_weight_toNat]
    exact ⟨Nat.pos_of_ne_zero (BitVec.toNat_ne_iff_ne.2 hc), (s.freqAt c).isLt⟩

/-- The symbols without a count add nothing to the sum. -/
theorem totalWeight_leafNodes (s : State) :
    totalWeight (leafNodes s.freq) = (allSymbols.map fun c => (s.freqAt c).toNat).sum := by
  rw [totalWeight, leafNodes_eq_map, List.map_map, State.countedSymbols]
  induction allSymbols with
  | nil => rfl
  | cons c cs ih =>
    by_cases hc : s.freqAt c = 0
    · rw [List.filter_cons_of_neg (by simpa using hc), ih]
      simp [hc]
    · rw [List.filter_cons_of_pos (by simpa using hc), List.map_cons, List.sum_cons, ih]
      simp

theorem leafNodes_ne_nil {s : State} (h : ∃ c, s.freqAt c ≠ 0) : leafNodes s.freq ≠ [] := by
  obtain ⟨c, hc⟩ := h
  have hmem : c ∈ s.countedSymbols := List.mem_filter.2 ⟨mem_allSymbols c, by simpa using hc⟩
  rw [leafNodes_eq_map]
  exact List.ne_nil_of_mem (List.mem_map_of_mem hmem)

/-! ## BUILD -/

/-- The tree BUILD makes is what the invariant leaves when PQ has one member left. -/
theorem buildTree_mergeState {s : State} (h : ∃ c, s.freqAt c ≠ 0) :
    ∃ r, MergeState (leafNodes s.freq) (buildTree s.freq) [r] := by
  have hl := leafNodes_leafList s
  have hne := leafNodes_ne_nil h
  have hlen := leafQueue_length (leafNodes s.freq) 0
  exact mergeLoop_ends (fun _ _ _ _ hm => hm.merge hl) _ (hl.mergeState_leafQueue hne)
    (List.length_pos_iff.1 (hlen ▸ List.length_pos_iff.2 hne)) (by omega)

theorem buildTree_isTree {s : State} (h : ∃ c, s.freqAt c ≠ 0) : IsTree (distinctCount s) (buildTree s.freq) := by
  obtain ⟨r, hm⟩ := buildTree_mergeState h
  exact leafNodes_length s ▸ hm.isTree (leafNodes_leafList s)

/-- The leaves of the tree (41_build.md R122). -/
theorem buildTree_leaf {s : State} (h : ∃ c, s.freqAt c ≠ 0) {k : Nat} (hk : k < distinctCount s) :
    ∃ c, s.countedSymbols[k]? = some c ∧ (buildTree s.freq)[k]? = some (s.leafOf c) := by
  have hk : k < s.countedSymbols.length := hk
  obtain ⟨r, hm⟩ := buildTree_mergeState h
  have hprefix := hm.leavesFirst
  rw [leafNodes_eq_map] at hprefix
  refine ⟨s.countedSymbols[k], List.getElem?_eq_getElem hk, ?_⟩
  rw [List.prefix_iff_getElem?.1 hprefix k (by rwa [List.length_map]), List.getElem_map]

/-- The root's weight is the sum of all counts (41_build.md R130). -/
theorem buildTree_root_weight {s : State} (h : ∃ c, s.freqAt c ≠ 0) :
    (nodeAt (buildTree s.freq) (rootOf (buildTree s.freq))).weight.toNat =
      (allSymbols.map fun c => (s.freqAt c).toNat).sum := by
  obtain ⟨r, hm⟩ := buildTree_mergeState h
  rw [hm.root_weight, totalWeight_leafNodes]

/-- Each internal node of the tree is a merge of the two nodes that were first in the order of extraction. -/
theorem buildTree_merged {s : State} (h : ∃ c, s.freqAt c ≠ 0) {k : Nat} (hk : k < (buildTree s.freq).length)
    (hn : distinctCount s ≤ k) :
    Merged (distinctCount s) ((buildTree s.freq).take k) (nodeAt (buildTree s.freq) k) := by
  obtain ⟨r, hm⟩ := buildTree_mergeState h
  rw [← leafNodes_length] at hn ⊢
  exact hm.merged k hk hn

theorem exec_build_of_empty {s : State} (h : ∀ c, s.freqAt c = 0) :
    exec .build s = .next (raiseError .tree .invalidInput 0 s) :=
  if_pos ((tableEmpty_iff s.freq).2 h)

theorem exec_build_of_not_empty {s : State} (h : ∃ c, s.freqAt c ≠ 0) :
    exec .build s = .next (endCommand (buildBody s)) :=
  if_neg fun he => h.elim fun c hc => hc ((tableEmpty_iff s.freq).1 he c)

end Sys2Proof.Machine

namespace Sys2Proof
open Machine

/-- Settles O20, by the invariant of the merge loop: what it leaves when PQ has one member is a tree of the leaves. -/
theorem buildMakesTheTree : Obligations.BuildMakesTheTree := fun s h =>
  ⟨buildTree s.freq, exec_build_of_not_empty h, buildTree_isTree h, fun _ hk => buildTree_leaf h hk,
    buildTree_root_weight h⟩

/-- Settles O21, by the invariant of the merge loop: PQ is in the order of extraction, so its first two members come
before all others, and its members are the candidates. -/
theorem buildMergesTheTwoSmallest : Obligations.BuildMergesTheTwoSmallest := by
  intro s t h ht k hk hn
  obtain rfl : endCommand (buildBody s) = t := by simpa [exec_build_of_not_empty h] using ht
  have htake : ((buildTree s.freq).take k).length = k := List.length_take_of_le hk.le
  obtain ⟨-, -, -, hleft, hright, hne, hfirst, hnext⟩ := buildTree_merged h hk hn
  rw [htake, candidates_take] at hleft hright hfirst hnext
  exact ⟨hleft, hright, hne,
    fun j hj hjl => (extractedBefore_take _ (lt_of_mem_candidates hleft) (lt_of_mem_candidates hj)).1
      (hfirst j hj hjl),
    fun j hj hjl hjr => (extractedBefore_take _ (lt_of_mem_candidates hright) (lt_of_mem_candidates hj)).1
      (hnext j hj hjl hjr)⟩

/-- Settles O23: the table is empty, and the error ending empties the tree. -/
theorem buildOnEmptyTableFails : Obligations.BuildOnEmptyTableFails := fun _ h => exec_build_of_empty h

end Sys2Proof
end

section
/-! SUPPORT. DERIVE (42_derive.md): the steps of a bit-string through a tree, the walk that lists each leaf with its
path, the look-up of a symbol's code, and how the code table that DERIVE leaves reads. -/

namespace Sys2Proof.Machine

/-! ## Steps through a tree -/

/-- The child that a bit steps to: LEFT for 0, RIGHT for 1 (42_derive.md R142). -/
def Node.child (m : Node) (b : Bool) : NodeIx := if b then m.right else m.left

theorem Node.mem_children_iff (m : Node) (k : Nat) :
    k ∈ m.children ↔ m.kind = true ∧ ∃ b, (m.child b).toNat = k := by
  cases m with
  | leaf => simp [Node.children, Node.kind]
  | internal l r _ => simp [Node.children, Node.kind, Node.child, Node.left, Node.right, eq_comm]

@[simp] theorem follow_nil (ns : List Node) (k : Nat) : follow ns k [] = some k := rfl

theorem follow_cons_of_leaf {ns : List Node} {k : Nat} (h : (nodeAt ns k).kind = false) (b : Bool) (p : BitString) :
    follow ns k (b :: p) = none := by
  unfold follow
  cases hm : nodeAt ns k with
  | leaf => rfl
  | internal => rw [hm] at h; cases h

theorem follow_cons_of_internal {ns : List Node} {k : Nat} (h : (nodeAt ns k).kind = true) (b : Bool)
    (p : BitString) : follow ns k (b :: p) = follow ns ((nodeAt ns k).child b).toNat p := by
  rw [follow]
  cases hm : nodeAt ns k with
  | leaf => rw [hm] at h; cases h
  | internal => rfl

theorem follow_append (ns : List Node) (k : Nat) (p q : BitString) :
    follow ns k (p ++ q) = (follow ns k p).bind fun j => follow ns j q := by
  induction p generalizing k with
  | nil => rfl
  | cons b p ih =>
    rw [List.cons_append]
    cases hk : (nodeAt ns k).kind with
    | false => simp [follow_cons_of_leaf hk]
    | true => simp [follow_cons_of_internal hk, ih]

/-! ## The walk -/

theorem walk_of_leaf {ns : List Node} {k : Nat} (h : (nodeAt ns k).kind = false) (fuel : Nat) (p : BitString) :
    walk ns (fuel + 1) k p = [((nodeAt ns k).sym, p)] := by
  rw [walk]
  cases hm : nodeAt ns k with
  | leaf => rfl
  | internal => rw [hm] at h; cases h

theorem walk_of_internal {ns : List Node} {k : Nat} (h : (nodeAt ns k).kind = true) (fuel : Nat) (p : BitString) :
    walk ns (fuel + 1) k p = walk ns fuel ((nodeAt ns k).child false).toNat (p ++ [false]) ++
      walk ns fuel ((nodeAt ns k).child true).toNat (p ++ [true]) := by
  rw [walk]
  cases hm : nodeAt ns k with
  | leaf => rw [hm] at h; cases h
  | internal => rfl

theorem mem_walk_of_internal {ns : List Node} {k : Nat} (h : (nodeAt ns k).kind = true) (fuel : Nat)
    (p : BitString) (x : Sym × BitString) :
    x ∈ walk ns (fuel + 1) k p ↔ ∃ b, x ∈ walk ns fuel ((nodeAt ns k).child b).toNat (p ++ [b]) := by
  rw [walk_of_internal h, List.mem_append, Bool.exists_bool]

/-- The walk from a node lists the leaves that fewer than `fuel` steps reach, each with the steps to it. -/
theorem mem_walk_iff {ns : List Node} {fuel k : Nat} {p q : BitString} {c : Sym} :
    (c, q) ∈ walk ns fuel k p ↔ ∃ r j, q = p ++ r ∧ r.length < fuel ∧ follow ns k r = some j ∧
      (nodeAt ns j).kind = false ∧ (nodeAt ns j).sym = c := by
  induction fuel generalizing k p with
  | zero => simp [walk]
  | succ fuel ih =>
    cases hk : (nodeAt ns k).kind with
    | false =>
      rw [walk_of_leaf hk, List.mem_singleton, Prod.mk.injEq]
      constructor
      · rintro ⟨rfl, rfl⟩
        exact ⟨[], k, by simp, by simp, rfl, hk, rfl⟩
      · rintro ⟨_ | ⟨b, r⟩, j, rfl, -, hfollow, -, hsym⟩
        · obtain rfl : k = j := Option.some.inj hfollow
          exact ⟨hsym.symm, List.append_nil p⟩
        · simp [follow_cons_of_leaf hk] at hfollow
    | true =>
      simp only [mem_walk_of_internal hk, ih]
      constructor
      · rintro ⟨b, r, j, rfl, hlen, hfollow, hleaf⟩
        exact ⟨b :: r, j, by simp, by simpa using hlen, by rwa [follow_cons_of_internal hk], hleaf⟩
      · rintro ⟨_ | ⟨b, r⟩, j, rfl, hlen, hfollow, hleaf, hsym⟩
        · obtain rfl : k = j := Option.some.inj hfollow
          simp [hk] at hleaf
        · rw [follow_cons_of_internal hk] at hfollow
          exact ⟨b, r, j, by simp, by simpa using hlen, hfollow, hleaf, hsym⟩

/-! ## Paths in a tree that meets the invariant -/

section
variable {n : Nat} {ns : List Node}

theorem IsTree.kind_eq_false_iff (h : IsTree n ns) {k : Nat} (hk : k < ns.length) :
    (nodeAt ns k).kind = false ↔ k < n := by
  refine ⟨fun hleaf => Nat.lt_of_not_le fun hn => ?_, h.leavesFirst k⟩
  simp [h.internals k hk hn] at hleaf

theorem IsTree.kind_eq_true_iff (h : IsTree n ns) {k : Nat} (hk : k < ns.length) :
    (nodeAt ns k).kind = true ↔ n ≤ k := by
  rw [← Bool.not_eq_false, h.kind_eq_false_iff hk, Nat.not_lt]

theorem IsTree.leaf_lt_length (h : IsTree n ns) {k : Nat} (hk : k < n) : k < ns.length := by
  have hsize := h.size
  omega

theorem IsTree.rootOf_eq (h : IsTree n ns) : rootOf ns = 2 * n - 2 := by
  have hsize := h.size
  rw [rootOf]
  omega

theorem IsTree.rootOf_lt_length (h : IsTree n ns) : rootOf ns < ns.length := by
  obtain ⟨hpos, -⟩ := h.leaves
  have hsize := h.size
  have hroot := h.rootOf_eq
  omega

theorem IsTree.child_lt (h : IsTree n ns) {k : Nat} (hk : k < ns.length) (hn : n ≤ k) (b : Bool) :
    ((nodeAt ns k).child b).toNat < k := by
  obtain ⟨hleft, hright, -⟩ := h.childrenBelow k hk hn
  cases b with
  | false => exact hleft
  | true => exact hright

/-- Steps only go to smaller indices, and each of them leaves an internal node, of which there are `k + 1 - n` at or
below node `k`. -/
theorem IsTree.follow_bounds (h : IsTree n ns) {p : BitString} {k j : Nat} (hk : k < ns.length)
    (hfollow : follow ns k p = some j) : j ≤ k ∧ p.length ≤ k + 1 - n := by
  induction p generalizing k with
  | nil =>
    obtain rfl : k = j := Option.some.inj hfollow
    simp
  | cons b p ih =>
    cases hkind : (nodeAt ns k).kind with
    | false => simp [follow_cons_of_leaf hkind] at hfollow
    | true =>
      have hn := (h.kind_eq_true_iff hk).1 hkind
      have hchild := h.child_lt hk hn b
      obtain ⟨hj, hlen⟩ := ih (hchild.trans hk) (follow_cons_of_internal hkind b p ▸ hfollow)
      rw [List.length_cons]
      omega

/-- A path from the root has fewer steps than the tree has leaves. -/
theorem IsTree.length_path_lt (h : IsTree n ns) {p : BitString} {k : Nat}
    (hpath : follow ns (rootOf ns) p = some k) : p.length < n := by
  obtain ⟨-, hlen⟩ := h.follow_bounds h.rootOf_lt_length hpath
  obtain ⟨hpos, -⟩ := h.leaves
  have hroot := h.rootOf_eq
  omega

theorem IsTree.path_end_lt_length (h : IsTree n ns) {p : BitString} {k : Nat}
    (hpath : follow ns (rootOf ns) p = some k) : k < ns.length :=
  (h.follow_bounds h.rootOf_lt_length hpath).1.trans_lt h.rootOf_lt_length

theorem IsTree.exists_parent (h : IsTree n ns) {k : Nat} (hk : k < ns.length) (hroot : k ≠ rootOf ns) :
    ∃ i < ns.length, k < i ∧ ∃ b, follow ns i [b] = some k := by
  have hcount : (ns.flatMap Node.children).count k = 1 := (h.oneParent k hk).trans (if_neg hroot)
  obtain ⟨m, hm, hmk⟩ := List.mem_flatMap.1 (List.count_pos_iff.1 (hcount ▸ Nat.one_pos))
  obtain ⟨i, hi, rfl⟩ := List.getElem_of_mem hm
  rw [← nodeAt_of_lt hi, Node.mem_children_iff] at hmk
  obtain ⟨hkind, b, rfl⟩ := hmk
  exact ⟨i, hi, h.child_lt hi ((h.kind_eq_true_iff hi).1 hkind) b, b, follow_cons_of_internal hkind b []⟩

/-- Every node is reached from the root: climb from parent to parent. -/
theorem IsTree.exists_path (h : IsTree n ns) {k : Nat} (hk : k < ns.length) :
    ∃ p, follow ns (rootOf ns) p = some k := by
  by_cases hroot : k = rootOf ns
  · exact ⟨[], congrArg some hroot.symm⟩
  · obtain ⟨i, hi, hki, b, hstep⟩ := h.exists_parent hk hroot
    obtain ⟨p, hpath⟩ := h.exists_path hi
    exact ⟨p ++ [b], by rw [follow_append, hpath, Option.bind_some, hstep]⟩
termination_by ns.length - k

theorem IsTree.leaf_eq_of_sym_eq (h : IsTree n ns) {j k : Nat} (hj : j < n) (hk : k < n)
    (hsym : (nodeAt ns j).sym = (nodeAt ns k).sym) : j = k := by
  obtain hlt | heq | hlt := Nat.lt_trichotomy j k
  · exact absurd (congrArg BitVec.toNat hsym) (h.ascending k hk j hlt).ne
  · exact heq
  · exact absurd (congrArg BitVec.toNat hsym) (h.ascending j hj k hlt).ne'

/-! ## The codes of a tree -/

theorem treeCodes_of_two_le (h : 2 ≤ ns.length) : treeCodes ns = walk ns ns.length (rootOf ns) [] := by
  match ns, h with
  | _ :: _ :: _, _ => rfl

/-- The codes of a tree with two or more leaves are the paths from the root to its leaves (42_derive.md R142). -/
theorem IsTree.mem_treeCodes_iff (h : IsTree n ns) (hn : 2 ≤ n) (c : Sym) (p : BitString) :
    (c, p) ∈ treeCodes ns ↔ ∃ k < n, (nodeAt ns k).sym = c ∧ follow ns (rootOf ns) p = some k := by
  have hsize := h.size
  rw [treeCodes_of_two_le (by omega), mem_walk_iff]
  constructor
  · rintro ⟨r, k, rfl, -, hpath, hleaf, hsym⟩
    exact ⟨k, (h.kind_eq_false_iff (h.path_end_lt_length hpath)).1 hleaf, hsym, hpath⟩
  · rintro ⟨k, hk, hsym, hpath⟩
    exact ⟨p, k, rfl, h.leaf_lt_length (h.length_path_lt hpath), hpath, h.leavesFirst k hk, hsym⟩

theorem codeIn_mem {l : List (Sym × BitString)} {c : Sym} (h : ∃ p, (c, p) ∈ l) : (c, codeIn l c) ∈ l := by
  induction l with
  | nil => simp at h
  | cons x l ih =>
    obtain ⟨d, q⟩ := x
    by_cases hd : d = c
    · subst hd
      simp [codeIn]
    · obtain ⟨p, hp⟩ := h
      have hp : (c, p) ∈ l := (List.mem_cons.1 hp).resolve_left fun he => hd (congrArg Prod.fst he).symm
      rw [codeIn, if_neg hd]
      exact List.mem_cons_of_mem _ (ih ⟨p, hp⟩)

theorem codeIn_eq_nil {l : List (Sym × BitString)} {c : Sym} (h : ∀ p, (c, p) ∉ l) : codeIn l c = [] := by
  induction l with
  | nil => rfl
  | cons x l ih =>
    obtain ⟨d, q⟩ := x
    have hd : d ≠ c := fun he => h q (he ▸ List.mem_cons_self)
    rw [codeIn, if_neg hd]
    exact ih fun p hp => h p (List.mem_cons_of_mem _ hp)

/-- The code of a leaf's symbol is the path to that leaf, since no other leaf has the symbol. -/
theorem IsTree.follow_codeIn (h : IsTree n ns) (hn : 2 ≤ n) {k : Nat} (hk : k < n) :
    follow ns (rootOf ns) (codeIn (treeCodes ns) (nodeAt ns k).sym) = some k := by
  obtain ⟨p, hpath⟩ := h.exists_path (h.leaf_lt_length hk)
  have hmem := codeIn_mem ⟨p, (h.mem_treeCodes_iff hn _ p).2 ⟨k, hk, rfl, hpath⟩⟩
  obtain ⟨j, hj, hsym, hcode⟩ := (h.mem_treeCodes_iff hn _ _).1 hmem
  rwa [h.leaf_eq_of_sym_eq hj hk hsym] at hcode

theorem IsTree.codeIn_ne_nil (h : IsTree n ns) (hn : 2 ≤ n) {k : Nat} (hk : k < n) :
    codeIn (treeCodes ns) (nodeAt ns k).sym ≠ [] := by
  intro hnil
  have hcode := h.follow_codeIn hn hk
  rw [hnil, follow_nil, Option.some.injEq, h.rootOf_eq] at hcode
  omega

theorem IsTree.codeIn_eq_nil (h : IsTree n ns) (hn : 2 ≤ n) {c : Sym} (hc : ∀ k < n, (nodeAt ns k).sym ≠ c) :
    codeIn (treeCodes ns) c = [] := by
  refine Machine.codeIn_eq_nil fun p hp => ?_
  obtain ⟨k, hk, hsym, -⟩ := (h.mem_treeCodes_iff hn c p).1 hp
  exact hc k hk hsym

/-- Every code fits CODELEN, at most 255 bits (10_state.md R37). -/
theorem IsTree.length_codeIn_lt (h : IsTree n ns) (hn : 2 ≤ n) (c : Sym) :
    (codeIn (treeCodes ns) c).length < 256 := by
  by_cases hc : ∃ k < n, (nodeAt ns k).sym = c
  · obtain ⟨k, hk, rfl⟩ := hc
    exact (h.length_path_lt (h.follow_codeIn hn hk)).trans_le h.leaves.2
  · rw [h.codeIn_eq_nil hn fun k hk hsym => hc ⟨k, hk, hsym⟩]
    decide

end

/-! ## The code table that DERIVE leaves -/

/-- DERIVE always ends with success (42_derive.md R141). -/
theorem exec_derive (s : State) : exec .derive s = .next (endCommand (deriveBody s)) := rfl

theorem eq_of_exec_derive {s t : State} (h : exec .derive s = .next t) : t = endCommand (deriveBody s) :=
  (Host.Outcome.next.inj h).symm

/-- A bit-string of zeros is packed into words that are 0. -/
theorem packWord_eq_zero {p : BitString} (h : ∀ b ∈ p, b = false) (k : Nat) : packWord p k = 0 := by
  refine BitVec.eq_of_getMsbD_eq fun j hj => ?_
  have hbit : p.getD (32 * k + j) false = false := by
    rw [List.getD_eq_getElem?_getD]
    cases hget : p[32 * k + j]? with
    | none => rfl
    | some b => exact h b (List.mem_of_getElem? hget)
  exact (wordBit_packWord p k hj).trans (hbit.trans BitVec.getMsbD_zero.symm)

section
variable {s t : State} (h : exec .derive s = .next t)
include h

/-- DERIVE changes BUSY and the code table only (42_derive.md R141). -/
theorem derive_frame : t = { s with running := none, codelen := t.codelen, codebits := t.codebits } := by
  obtain rfl := eq_of_exec_derive h
  rfl

theorem derive_codelenAt (c : Sym) : t.codelenAt c = BitVec.ofNat 8 (codeIn (treeCodes s.node) c).length := by
  obtain rfl := eq_of_exec_derive h
  exact deriveBody_codelenAt s c

theorem derive_codelenAt_toNat {c : Sym} (hc : (codeIn (treeCodes s.node) c).length < 256) :
    (t.codelenAt c).toNat = (codeIn (treeCodes s.node) c).length := by
  rw [derive_codelenAt h, BitVec.toNat_ofNat, Nat.mod_eq_of_lt hc]

theorem derive_codelenAt_eq_zero {c : Sym} (hc : codeIn (treeCodes s.node) c = []) : t.codelenAt c = 0 := by
  rw [derive_codelenAt h, hc]
  rfl

theorem derive_codebits_read_word (c : Sym) {w : Nat} (hw : w < 8) :
    t.codebits.read (8 * c.toNat + w) = some (packWord (codeIn (treeCodes s.node) c) w) := by
  obtain rfl := eq_of_exec_derive h
  exact codeCells_read _ c hw

/-- Every word of CODEBITS is written: word `a` is part `a % 8` of the code of symbol `a / 8`. -/
theorem derive_codebits_read {a : Nat} (ha : a < 2048) :
    t.codebits.read a = some (packWord (codeIn (treeCodes s.node) (BitVec.ofNat 8 (a / 8))) (a % 8)) := by
  have hsym : (BitVec.ofNat 8 (a / 8)).toNat = a / 8 := by
    rw [BitVec.toNat_ofNat]
    omega
  have hread := derive_codebits_read_word h (BitVec.ofNat 8 (a / 8)) (show a % 8 < 8 by omega)
  rwa [hsym, Nat.div_add_mod] at hread

/-- When every code is a string of zeros, or empty, CODEBITS is all 0. -/
theorem derive_codebits_read_eq_zero (hzero : ∀ c, ∀ b ∈ codeIn (treeCodes s.node) c, b = false) {a : Nat}
    (ha : a < 2048) : t.codebits.read a = some 0 := by
  rw [derive_codebits_read h ha, packWord_eq_zero (hzero _)]

/-- Position `j` of an entry is position `j` of the symbol's code, 0 past its end (42_derive.md R144). -/
theorem derive_codeBit (time : Nat) (c : Sym) {j : Nat} (hj : j < 256) :
    t.codeBit time c j = (codeIn (treeCodes s.node) c).getD j false := by
  have hread := derive_codebits_read_word h c (show j / 32 < 8 by omega)
  rw [State.codeBit, State.codeWord, hread, Option.getD_some, wordBit_packWord _ _ (show j % 32 < 32 by omega),
    Nat.div_add_mod]

theorem derive_codeOf {c : Sym} (hc : (codeIn (treeCodes s.node) c).length < 256) (time : Nat) :
    t.codeOf time c = codeIn (treeCodes s.node) c := by
  have hlen := derive_codelenAt_toNat h hc
  refine List.ext_getElem ((codeOf_length t time c).trans hlen) fun j _ hj => ?_
  simp only [State.codeOf, List.getElem_map, List.getElem_range]
  rw [derive_codeBit h time c (hj.trans hc), List.getD_eq_getElem _ _ hj]

/-- The one-leaf tree gives its symbol the code "0" (42_derive.md R143). -/
theorem derive_of_oneLeaf {c : Sym} {w : Weight} (hnode : s.node = [.leaf c w]) :
    t.codelenAt c = 1 ∧ (∀ time, t.codeOf time c = [false]) ∧ (∀ d, d ≠ c → t.codelenAt d = 0) ∧
      ∀ a < 2048, t.codebits.read a = some 0 := by
  have hcode (d : Sym) : codeIn (treeCodes s.node) d = if c = d then [false] else [] := hnode ▸ rfl
  have hc : codeIn (treeCodes s.node) c = [false] := (hcode c).trans (if_pos rfl)
  refine ⟨?own, fun time => ?code, fun d hd => ?other, fun a ha => ?bits⟩
  case own => rw [derive_codelenAt h, hc]; rfl
  case code => rw [derive_codeOf h (by rw [hc]; decide), hc]
  case other => exact derive_codelenAt_eq_zero h ((hcode d).trans (if_neg hd.symm))
  case bits =>
    refine derive_codebits_read_eq_zero h (fun d b hb => ?_) ha
    rw [hcode] at hb
    split at hb
    · exact List.mem_singleton.1 hb
    · cases hb

/-- No tree gives the empty table (42_derive.md R145). -/
theorem derive_of_noTree (hnode : s.node = []) :
    (∀ d, t.codelenAt d = 0) ∧ ∀ a < 2048, t.codebits.read a = some 0 := by
  have hcode (d : Sym) : codeIn (treeCodes s.node) d = [] := hnode ▸ rfl
  refine ⟨fun d => derive_codelenAt_eq_zero h (hcode d),
    fun a => derive_codebits_read_eq_zero h fun d b hb => ?_⟩
  rw [hcode] at hb
  cases hb

end

end Sys2Proof.Machine

namespace Sys2Proof
open Machine

/-- Settles O24: the codes of the tree are the paths to its leaves (`IsTree.follow_codeIn`), and all of them fit the
table (`IsTree.length_codeIn_lt`). -/
theorem deriveRecordsThePaths : Obligations.DeriveRecordsThePaths := by
  intro s n htree hn
  have h := exec_derive s
  have hfits := htree.length_codeIn_lt hn
  refine ⟨_, h, derive_frame h, fun time k hk => ?path, fun k hk => ?nonempty,
    fun c hc => derive_codelenAt_eq_zero h (htree.codeIn_eq_nil hn hc), fun time c j hlen hj => ?beyond,
    fun a ha => ?written⟩
  case path => rw [derive_codeOf h (hfits _), htree.follow_codeIn hn hk]
  case nonempty =>
    rw [derive_codelenAt_toNat h (hfits _)]
    exact List.length_pos_iff.2 (htree.codeIn_ne_nil hn hk)
  case beyond =>
    rw [derive_codelenAt_toNat h (hfits c)] at hlen
    rw [derive_codeBit h time c hj, List.getD_eq_default _ _ hlen]
  case written => rw [derive_codebits_read h ha, Option.isSome_some]

/-- Settles O25: the code of the one leaf is a single 0, and with no tree every code is empty. -/
theorem deriveOfOneLeafAndOfNoTree : Obligations.DeriveOfOneLeafAndOfNoTree :=
  ⟨fun s _ _ hnode => ⟨_, exec_derive s, derive_frame (exec_derive s), derive_of_oneLeaf (exec_derive s) hnode⟩,
    fun s hnode => ⟨_, exec_derive s, derive_frame (exec_derive s), derive_of_noTree (exec_derive s) hnode⟩⟩

end Sys2Proof
end

section
/-! SUPPORT. ENCODE (43_encode.md): the bits that a run of input positions contributes, the encoder loop over positions
whose codes all fit, and the bits that the store leaves in BITBUF. -/

namespace Sys2Proof.Machine

/-! ## The codes of a run of positions -/

/-- The codes of the symbols at the positions `is`, one after another (43_encode.md R158). -/
def State.encoding (s : State) (is : List Nat) : BitString := is.flatMap fun i => s.codeOf i (s.symAt i)

@[simp] theorem State.encoding_nil (s : State) : s.encoding [] = [] := rfl

@[simp] theorem State.encoding_cons (s : State) (i : Nat) (is : List Nat) :
    s.encoding (i :: is) = s.codeOf i (s.symAt i) ++ s.encoding is := rfl

theorem State.encoding_length (s : State) (is : List Nat) :
    (s.encoding is).length = (is.map fun i => (s.codelenAt (s.symAt i)).toNat).sum := by
  simp [State.encoding, List.length_flatMap]

/-! ## The encoder loop -/

/-- One turn of the encoder loop at a symbol that has an entry and whose code fits. -/
theorem encodeLoop_cons_of_fits {s : State} {i : Nat} {acc : BitString} (is : List Nat)
    (hentry : s.codelenAt (s.symAt i) ≠ 0)
    (hfits : acc.length + (s.codelenAt (s.symAt i)).toNat ≤ s.bitcap.toNat) :
    encodeLoop s (i :: is) acc = encodeLoop s is (acc ++ s.codeOf i (s.symAt i)) := by
  obtain ⟨hnone, -⟩ | ⟨-, hover, -⟩ | ⟨-, -, hturn⟩ := encodeLoop_cons s i is acc
  · exact absurd hnone hentry
  · exact absurd hfits (Nat.not_le.2 hover)
  · exact hturn

/-- The encoder loop passes over positions whose symbols have entries and whose codes fit, and appends their codes. -/
theorem encodeLoop_append {s : State} {is : List Nat} (js : List Nat) {acc : BitString}
    (hentry : ∀ i ∈ is, s.codelenAt (s.symAt i) ≠ 0)
    (hfits : acc.length + (s.encoding is).length ≤ s.bitcap.toNat) :
    encodeLoop s (is ++ js) acc = encodeLoop s js (acc ++ s.encoding is) := by
  induction is generalizing acc with
  | nil => rw [State.encoding_nil, List.append_nil, List.nil_append]
  | cons i is ih =>
    rw [State.encoding_cons, List.length_append, codeOf_length] at hfits
    have hrest : (acc ++ s.codeOf i (s.symAt i)).length + (s.encoding is).length ≤ s.bitcap.toNat := by
      rw [List.length_append, codeOf_length]
      omega
    rw [List.cons_append, encodeLoop_cons_of_fits _ (hentry i List.mem_cons_self) (by omega),
      ih (fun j hj => hentry j (List.mem_cons_of_mem i hj)) hrest, State.encoding_cons, List.append_assoc]

/-- An input whose symbols all have entries and whose codes fit makes the loop end with its codes. -/
theorem encodeLoop_eq_done {s : State} {is : List Nat} (hentry : ∀ i ∈ is, s.codelenAt (s.symAt i) ≠ 0)
    (hfits : (s.encoding is).length ≤ s.bitcap.toNat) : encodeLoop s is [] = .done (s.encoding is) := by
  have h := encodeLoop_append [] (acc := []) hentry (by rwa [List.length_nil, Nat.zero_add])
  rwa [List.append_nil, List.nil_append] at h

/-! ## ENCODE -/

/-- ENCODE stores what its loop ends with (43_encode.md R156). -/
theorem exec_encode_of_done {s : State} {p : BitString} (hsym : s.symLen.toNat ≤ s.symcap.toNat)
    (hloop : encodeLoop s (List.range s.symLen.toNat) [] = .done p) :
    exec .encode s =
      .next (endCommand { s with bitbuf := storeBits p s.bitbuf, bitLen := BitVec.ofNat 32 p.length }) := by
  show execEncode s = _
  rw [execEncode, if_neg (Nat.not_lt.2 hsym), hloop]

/-- Every position of the stored words is written: the bit-string, then 0 to the end of its last word
(43_encode.md R159). -/
theorem storeBits_bit (p : BitString) (m : Memory 32) {t : Nat} (ht : t < 32 * wordsFor p.length) :
    ∃ w, (storeBits p m).read (t / 32) = some w ∧ wordBit w (t % 32) = p.getD t false := by
  have hword : t / 32 < wordsFor p.length := Nat.div_lt_of_lt_mul ht
  refine ⟨packWord p (t / 32), ?_, ?_⟩
  · rw [storeBits_read, if_pos hword]
  · rw [wordBit_packWord p _ (Nat.mod_lt t (by decide)), Nat.div_add_mod]

/-- The words after the stored ones are as before (43_encode.md R159). -/
theorem storeBits_read_of_le {p : BitString} {q : Nat} (m : Memory 32) (hq : wordsFor p.length ≤ q) :
    (storeBits p m).read q = m.read q := by
  rw [storeBits_read, if_neg (Nat.not_lt.2 hq)]

end Sys2Proof.Machine

namespace Sys2Proof
open Machine

/-- Settles O30: the loop ends with the codes of the input in order (`encodeLoop_eq_done`), and the memory is what
`storeBits` makes of them. -/
theorem encodeConcatenatesTheCodes : Obligations.EncodeConcatenatesTheCodes := by
  intro s p hsym hentry hp hfits
  replace hp : p = s.encoding (List.range s.symLen.toNat) := hp
  subst hp
  have hloop := encodeLoop_eq_done (fun i hi => hentry i (List.mem_range.1 hi)) hfits
  exact ⟨storeBits (s.encoding _) s.bitbuf, exec_encode_of_done hsym hloop, s.encoding_length _,
    fun _ => storeBits_bit _ _, fun _ => storeBits_read_of_le _⟩

end Sys2Proof
end

section
/-! SUPPORT. DECODE and DECODEC (44_decode.md): when the loops of two decoders agree, what one bit does to each of the
two, and that with the table of the tree they stand at the same place after every bit (R178). -/

namespace Sys2Proof.Machine

/-! ## The decoder loop -/

@[simp] theorem decodeLoop_nil_of_start {σ : Type} (move : Nat → σ → Bool → Move σ) (root : σ) (cap p : Nat) (x : σ)
    (out : List Sym) : decodeLoop move root cap [] p x p out = .done out :=
  if_neg (not_not.2 rfl)

theorem decodeLoop_cons_of_noPath {σ : Type} {move : Nat → σ → Bool → Move σ} {p : Nat} {x : σ} {b : Bool}
    (h : move p x b = .noPath) (root : σ) (cap : Nat) (bs : BitString) (start : Nat) (out : List Sym) :
    decodeLoop move root cap (b :: bs) p x start out = .failed .invalidCode (position p) := by
  rw [decodeLoop, h]

/-- A decoder that always has a path never ends with InvalidCode. -/
theorem decodeLoop_ne_invalidCode {σ : Type} {move : Nat → σ → Bool → Move σ} (hmove : ∀ p x b, move p x b ≠ .noPath)
    (root : σ) (cap : Nat) (bs : BitString) (p : Nat) (x : σ) (start : Nat) (out : List Sym) (info : Word) :
    decodeLoop move root cap bs p x start out ≠ .failed .invalidCode info := by
  induction bs generalizing p x start out with
  | nil =>
    rw [decodeLoop]
    split <;> simp
  | cons b bs ih =>
    obtain ⟨hno, -⟩ | ⟨y, -, hturn⟩ | ⟨c, -, -, hturn⟩ | ⟨c, -, -, hturn⟩ :=
      decodeLoop_cons move root cap b bs p x start out
    · exact absurd hno (hmove p x b)
    · exact hturn ▸ ih _ _ _ _
    · simp [hturn]
    · exact hturn ▸ ih _ _ _ _

/-- Two moves are the same but for where the decoders then stand, which `R` relates. -/
inductive Move.Rel {σ τ : Type} (R : σ → τ → Prop) : Move σ → Move τ → Prop where
  | noPath : Move.Rel R .noPath .noPath
  | inside {x : σ} {y : τ} (h : R x y) : Move.Rel R (.inside x) (.inside y)
  | emit (c : Sym) : Move.Rel R (.emit c) (.emit c)

/-- Two decoders that start at related places, and that each bit leaves so, end alike. -/
theorem decodeLoop_eq_of_rel {σ τ : Type} {R : σ → τ → Prop} {move : Nat → σ → Bool → Move σ}
    {move' : Nat → τ → Bool → Move τ} {root : σ} {root' : τ} (hroot : R root root')
    (hmove : ∀ p x y b, R x y → Move.Rel R (move p x b) (move' p y b)) (cap : Nat) (bs : BitString) {p : Nat} {x : σ}
    {y : τ} (hxy : R x y) (start : Nat) (out : List Sym) :
    decodeLoop move root cap bs p x start out = decodeLoop move' root' cap bs p y start out := by
  induction bs generalizing p x y start out with
  | nil => rfl
  | cons b bs ih =>
    have hb := hmove p x y b hxy
    rw [decodeLoop, decodeLoop]
    revert hb
    generalize move p x b = m, move' p y b = m'
    rintro (_ | hplace | c)
    · rfl
    · exact ih hplace ..
    · simp only [ih hroot]

/-! ## One bit of DECODE -/

/-- With no tree there is no path (44_decode.md R170). -/
theorem treeMove_of_noTree (cur : Nat) (b : Bool) : treeMove [] cur b = .noPath := rfl

/-- With one leaf bit 0 is its code and bit 1 is none (44_decode.md R169). -/
theorem treeMove_of_oneLeaf (c : Sym) (w : Weight) (cur : Nat) (b : Bool) :
    treeMove [.leaf c w] cur b = if b then .noPath else .emit c := rfl

/-- With two or more leaves a bit steps to a child (44_decode.md R167). -/
theorem treeMove_of_two_le {ns : List Node} (h : 2 ≤ ns.length) (cur : Nat) (b : Bool) :
    treeMove ns cur b =
      if (nodeAt ns ((nodeAt ns cur).child b).toNat).kind then .inside ((nodeAt ns cur).child b).toNat
      else .emit (nodeAt ns ((nodeAt ns cur).child b).toNat).sym := by
  rw [treeMove, if_neg (by omega), if_neg (by omega)]
  rfl

theorem treeMove_ne_noPath {ns : List Node} (h : 2 ≤ ns.length) (cur : Nat) (b : Bool) :
    treeMove ns cur b ≠ .noPath := by
  rw [treeMove_of_two_le h]
  split <;> simp

/-! ## One bit of DECODEC -/

theorem entryMatches_iff (s : State) (p : Nat) (acc : BitString) (c : Sym) :
    entryMatches s p acc c = true ↔ s.codeOf p c = acc := by
  rw [entryMatches, Bool.and_eq_true, beq_iff_eq, beq_iff_eq, ← codeOf_length s p c]
  exact and_iff_right_of_imp (congrArg List.length)

theorem entryContinues_iff (s : State) (p : Nat) (acc : BitString) (c : Sym) :
    entryContinues s p acc c = true ↔ acc <+: s.codeOf p c ∧ s.codeOf p c ≠ acc := by
  rw [entryContinues, Bool.and_eq_true, decide_eq_true_iff, List.isPrefixOf_iff_prefix, ← codeOf_length s p c, and_comm]
  refine and_congr_right fun hpre => ⟨fun hlt he => hlt.ne (congrArg List.length he.symm), fun hne => ?_⟩
  exact hpre.length_le.lt_of_ne fun hlen => hne (hpre.eq_of_length hlen).symm

section
variable {s : State} {p : Nat} {acc : BitString} {b : Bool}

theorem tableMove_eq_emit {c : Sym} (hc : s.codeOf p c = acc ++ [b]) (honly : ∀ d, s.codeOf p d = acc ++ [b] → d = c) :
    tableMove s p acc b = .emit c := by
  have hfind : allSymbols.find? (entryMatches s p (acc ++ [b])) = some c := by
    cases hd : allSymbols.find? (entryMatches s p (acc ++ [b])) with
    | none => exact absurd ((entryMatches_iff ..).2 hc) (List.find?_eq_none.1 hd c (mem_allSymbols c))
    | some d => rw [honly d ((entryMatches_iff ..).1 (List.find?_some hd))]
  rw [tableMove, hfind]

theorem tableMove_of_no_match (h : ∀ c, s.codeOf p c ≠ acc ++ [b]) :
    tableMove s p acc b =
      if allSymbols.any (entryContinues s p (acc ++ [b])) then .inside (acc ++ [b]) else .noPath := by
  rw [tableMove, List.find?_eq_none.2 fun c _ hc => h c ((entryMatches_iff ..).1 hc)]

theorem tableMove_eq_inside {c : Sym} (hnone : ∀ d, s.codeOf p d ≠ acc ++ [b]) (hc : acc ++ [b] <+: s.codeOf p c) :
    tableMove s p acc b = .inside (acc ++ [b]) := by
  have hany := List.any_eq_true.2 ⟨c, mem_allSymbols c, (entryContinues_iff s p ..).2 ⟨hc, hnone c⟩⟩
  rw [tableMove_of_no_match hnone, if_pos hany]

theorem tableMove_eq_noPath (h : ∀ c, ¬ acc ++ [b] <+: s.codeOf p c) : tableMove s p acc b = .noPath := by
  rw [tableMove_of_no_match fun c hc => h c ⟨[], by rw [hc, List.append_nil]⟩, if_neg]
  rw [List.any_eq_true]
  rintro ⟨c, -, hc⟩
  exact h c ((entryContinues_iff ..).1 hc).1

end

/-! ## The one path to each node of a tree -/

/-- The last step of a path leaves an internal node for its child. -/
theorem follow_concat_eq_some_iff {ns : List Node} {k j : Nat} {p : BitString} {b : Bool} :
    follow ns k (p ++ [b]) = some j ↔
      ∃ i, follow ns k p = some i ∧ (nodeAt ns i).kind = true ∧ ((nodeAt ns i).child b).toNat = j := by
  rw [follow_append, Option.bind_eq_some_iff]
  refine exists_congr fun i => and_congr_right fun _ => ?_
  cases hkind : (nodeAt ns i).kind with
  | false => simp [follow_cons_of_leaf hkind]
  | true => simp [follow_cons_of_internal hkind]

/-- What occurs once in a list put together from parts is in one part only. -/
theorem index_eq_of_count_flatMap_le_one {α β : Type} [DecidableEq β] {f : α → List β} {l : List α} {a : β}
    (hcount : (l.flatMap f).count a ≤ 1) {i j : Nat} (hi : i < l.length) (hj : j < l.length) (hai : a ∈ f l[i])
    (haj : a ∈ f l[j]) : i = j := by
  wlog hij : i < j generalizing i j
  · by_contra hne
    exact hne (this hj hi haj hai (by omega)).symm
  have hleft : a ∈ (l.take j).flatMap f :=
    List.mem_flatMap.2 ⟨l[i], List.mem_take_iff_getElem.2 ⟨i, by omega, rfl⟩, hai⟩
  have hright : a ∈ (l.drop j).flatMap f :=
    List.mem_flatMap.2 ⟨l[j], List.mem_drop_iff_getElem.2 ⟨0, by omega, rfl⟩, haj⟩
  rw [← List.take_append_drop j l, List.flatMap_append, List.count_append] at hcount
  have hposLeft := List.count_pos_iff.2 hleft
  have hposRight := List.count_pos_iff.2 hright
  omega

section
variable {n : Nat} {ns : List Node}

theorem IsTree.kind_root (h : IsTree n ns) (hn : 2 ≤ n) : (nodeAt ns (rootOf ns)).kind = true := by
  have hroot := h.rootOf_eq
  exact (h.kind_eq_true_iff h.rootOf_lt_length).2 (by omega)

/-- No two internal nodes share a child, and LEFT and RIGHT of one differ (10_state.md R42 (c), (d)). -/
theorem IsTree.parent_unique (h : IsTree n ns) {i j : Nat} {a b : Bool} (hi : i < ns.length) (hj : j < ns.length)
    (hikind : (nodeAt ns i).kind = true) (hjkind : (nodeAt ns j).kind = true)
    (hchild : ((nodeAt ns i).child a).toNat = ((nodeAt ns j).child b).toNat) : i = j ∧ a = b := by
  have hlt := (h.child_lt hi ((h.kind_eq_true_iff hi).1 hikind) a).trans hi
  have hcount : (ns.flatMap Node.children).count ((nodeAt ns i).child a).toNat ≤ 1 := by
    rw [h.oneParent _ hlt]
    split <;> omega
  have hichild := (Node.mem_children_iff _ _).2 ⟨hikind, a, rfl⟩
  have hjchild := (Node.mem_children_iff _ _).2 ⟨hjkind, b, hchild.symm⟩
  obtain rfl : i = j :=
    index_eq_of_count_flatMap_le_one hcount hi hj (nodeAt_of_lt hi ▸ hichild) (nodeAt_of_lt hj ▸ hjchild)
  obtain ⟨-, -, hne⟩ := h.childrenBelow i hi ((h.kind_eq_true_iff hi).1 hikind)
  have hsame := BitVec.eq_of_toNat_eq hchild
  refine ⟨rfl, ?_⟩
  cases a <;> cases b
  · rfl
  · exact absurd hsame hne
  · exact absurd hsame.symm hne
  · rfl

theorem IsTree.path_concat_ne_root (h : IsTree n ns) (p : BitString) (b : Bool) :
    follow ns (rootOf ns) (p ++ [b]) ≠ some (rootOf ns) := by
  intro hpath
  obtain ⟨i, hi, hkind, hchild⟩ := follow_concat_eq_some_iff.1 hpath
  have hlt := h.path_end_lt_length hi
  have hbelow := h.child_lt hlt ((h.kind_eq_true_iff hlt).1 hkind) b
  rw [hchild, rootOf] at hbelow
  omega

/-- One path only leads from the root to a node: its last step comes from the node's one parent. -/
theorem IsTree.path_unique (h : IsTree n ns) {p q : BitString} {k : Nat} (hp : follow ns (rootOf ns) p = some k)
    (hq : follow ns (rootOf ns) q = some k) : p = q := by
  induction p using List.reverseRecOn generalizing q k with
  | nil =>
    obtain rfl : rootOf ns = k := Option.some.inj hp
    obtain rfl | ⟨q, b, rfl⟩ := q.eq_nil_or_concat'
    · rfl
    · exact absurd hq (h.path_concat_ne_root q b)
  | append_singleton p a ih =>
    obtain rfl | ⟨q, b, rfl⟩ := q.eq_nil_or_concat'
    · obtain rfl : rootOf ns = k := Option.some.inj hq
      exact absurd hp (h.path_concat_ne_root p a)
    · obtain ⟨i, hi, hikind, rfl⟩ := follow_concat_eq_some_iff.1 hp
      obtain ⟨j, hj, hjkind, hchild⟩ := follow_concat_eq_some_iff.1 hq
      obtain ⟨rfl, rfl⟩ :=
        h.parent_unique (h.path_end_lt_length hi) (h.path_end_lt_length hj) hikind hjkind hchild.symm
      rw [ih hi hj]

/-- From every node some path goes down to a leaf. -/
theorem IsTree.exists_path_to_leaf (h : IsTree n ns) {k : Nat} (hk : k < ns.length) :
    ∃ q, ∃ j < n, follow ns k q = some j := by
  by_cases hleaf : k < n
  · exact ⟨[], k, hleaf, rfl⟩
  · have hn : n ≤ k := Nat.le_of_not_lt hleaf
    have hbelow := h.child_lt hk hn false
    obtain ⟨q, j, hj, hpath⟩ := h.exists_path_to_leaf (hbelow.trans hk)
    exact ⟨false :: q, j, hj, by rw [follow_cons_of_internal (h.internals k hk hn), hpath]⟩
termination_by k

/-- The path to a leaf is the code of its symbol (42_derive.md R142). -/
theorem IsTree.codeIn_of_path (h : IsTree n ns) (hn : 2 ≤ n) {p : BitString} {k : Nat} (hk : k < n)
    (hpath : follow ns (rootOf ns) p = some k) : codeIn (treeCodes ns) (nodeAt ns k).sym = p :=
  h.path_unique (h.follow_codeIn hn hk) hpath

/-- A code that is not empty is the path to a leaf with its symbol (42_derive.md R142). -/
theorem IsTree.exists_leaf_of_codeIn_ne_nil (h : IsTree n ns) (hn : 2 ≤ n) {c : Sym}
    (hc : codeIn (treeCodes ns) c ≠ []) :
    ∃ k < n, (nodeAt ns k).sym = c ∧ follow ns (rootOf ns) (codeIn (treeCodes ns) c) = some k := by
  by_contra hnone
  refine hc (h.codeIn_eq_nil hn fun k hk hsym => hnone ⟨k, hk, hsym, ?_⟩)
  exact hsym ▸ h.follow_codeIn hn hk

end

/-! ## The table of the tree -/

theorem codeOf_eq_nil {s : State} {c : Sym} (h : s.codelenAt c = 0) (time : Nat) : s.codeOf time c = [] :=
  List.eq_nil_of_length_eq_zero (by rw [codeOf_length, h]; rfl)

section
variable {s : State} (h : s.tableOfTree)
include h

/-- DERIVE makes nothing new of the table of the tree. -/
theorem State.tableOfTree.exec_derive : exec .derive s = .next (endCommand s) := by
  obtain ⟨hlen, hbits⟩ := h
  have hsame : deriveBody s = s := by
    show { s with codelen := (deriveBody s).codelen, codebits := (deriveBody s).codebits } = s
    rw [← hlen, ← hbits]
  rw [Machine.exec_derive, hsame]

/-- With no tree no code has a bit (42_derive.md R145). -/
theorem State.tableOfTree.codeOf_of_noTree (hnode : s.node = []) (time : Nat) (c : Sym) : s.codeOf time c = [] := by
  obtain ⟨hlen, -⟩ := derive_of_noTree h.exec_derive hnode
  exact codeOf_eq_nil (hlen c) time

/-- With one leaf the only code is "0" (42_derive.md R143). -/
theorem State.tableOfTree.codeOf_of_oneLeaf {c : Sym} {w : Weight} (hnode : s.node = [.leaf c w]) (time : Nat)
    (d : Sym) : s.codeOf time d = if d = c then [false] else [] := by
  obtain ⟨-, hcode, hother, -⟩ := derive_of_oneLeaf h.exec_derive hnode
  split
  case isTrue hd => exact hd ▸ hcode time
  case isFalse hd => exact codeOf_eq_nil (hother d hd) time

/-- With two or more leaves the codes are those of the tree (42_derive.md R142). -/
theorem State.tableOfTree.codeOf_of_isTree {n : Nat} (htree : IsTree n s.node) (hn : 2 ≤ n) (time : Nat) (c : Sym) :
    s.codeOf time c = codeIn (treeCodes s.node) c :=
  derive_codeOf h.exec_derive (htree.length_codeIn_lt hn c) time

/-! ## The two decoders together -/

theorem State.tableOfTree.rel_of_noTree (hnode : s.node = []) (p cur : Nat) (b : Bool) :
    Move.Rel (fun _ acc => acc = []) (treeMove s.node cur b) (tableMove s p [] b) := by
  have htable : tableMove s p [] b = .noPath := tableMove_eq_noPath fun c => by
    rw [h.codeOf_of_noTree hnode]
    simp
  rw [hnode, treeMove_of_noTree, htable]
  exact .noPath

theorem State.tableOfTree.rel_of_oneLeaf {c : Sym} {w : Weight} (hnode : s.node = [.leaf c w]) (p cur : Nat)
    (b : Bool) : Move.Rel (fun _ acc => acc = []) (treeMove s.node cur b) (tableMove s p [] b) := by
  have hcode := h.codeOf_of_oneLeaf hnode p
  rw [hnode, treeMove_of_oneLeaf]
  cases b with
  | false =>
    rw [tableMove_eq_emit (c := c) (by simp [hcode]) fun d hd => by simpa [hcode] using hd]
    exact .emit c
  | true =>
    rw [tableMove_eq_noPath fun d => by rw [hcode]; split <;> simp]
    exact .noPath

end

/-- The bits `acc` since the last symbol lead from the root to the internal node `cur`: where DECODE stands at `cur`,
DECODEC has accumulated `acc`. -/
def StandsAt (ns : List Node) (cur : Nat) (acc : BitString) : Prop :=
  follow ns (rootOf ns) acc = some cur ∧ (nodeAt ns cur).kind = true

theorem StandsAt.step {ns : List Node} {cur : Nat} {acc : BitString} (h : StandsAt ns cur acc) (b : Bool) :
    follow ns (rootOf ns) (acc ++ [b]) = some ((nodeAt ns cur).child b).toNat :=
  follow_concat_eq_some_iff.2 ⟨cur, h.1, h.2, rfl⟩

section
variable {s : State} {n : Nat} (h : s.tableOfTree) (htree : IsTree n s.node) (hn : 2 ≤ n)
include h htree hn

/-- An entry's code that is a path with a bit or more leads to a leaf with the entry's symbol. -/
theorem State.tableOfTree.leaf_of_codeOf_eq {time : Nat} {c : Sym} {acc : BitString} {b : Bool} {k : Nat}
    (hc : s.codeOf time c = acc ++ [b]) (hpath : follow s.node (rootOf s.node) (acc ++ [b]) = some k) :
    k < n ∧ (nodeAt s.node k).sym = c := by
  rw [h.codeOf_of_isTree htree hn] at hc
  obtain ⟨j, hj, hsym, hcode⟩ := htree.exists_leaf_of_codeIn_ne_nil hn (c := c) (by simp [hc])
  rw [hc, hpath] at hcode
  obtain rfl : k = j := Option.some.inj hcode
  exact ⟨hj, hsym⟩

/-- One bit does the same to both decoders: at a leaf the accumulated bits are its symbol's code and no other's, and
below an internal node there is a leaf, whose code goes on. -/
theorem State.tableOfTree.rel_of_isTree {cur : Nat} {acc : BitString} (hat : StandsAt s.node cur acc) (p : Nat)
    (b : Bool) : Move.Rel (StandsAt s.node) (treeMove s.node cur b) (tableMove s p acc b) := by
  have hsize := htree.size
  have hpath := hat.step b
  have hcode := h.codeOf_of_isTree htree hn p
  rw [treeMove_of_two_le (by omega)]
  generalize ((nodeAt s.node cur).child b).toNat = k at hpath
  have hk := htree.path_end_lt_length hpath
  split
  case isTrue hkind =>
    have hnone (d : Sym) : s.codeOf p d ≠ acc ++ [b] := fun hd => by
      obtain ⟨hleaf, -⟩ := h.leaf_of_codeOf_eq htree hn hd hpath
      exact absurd ((htree.kind_eq_true_iff hk).1 hkind) (Nat.not_le.2 hleaf)
    obtain ⟨q, j, hj, hbelow⟩ := htree.exists_path_to_leaf hk
    have hlong : s.codeOf p (nodeAt s.node j).sym = acc ++ [b] ++ q :=
      (hcode _).trans (htree.codeIn_of_path hn hj (by rw [follow_append, hpath, Option.bind_some, hbelow]))
    rw [tableMove_eq_inside hnone ⟨q, hlong.symm⟩]
    exact .inside ⟨hpath, hkind⟩
  case isFalse hkind =>
    have hleaf := (htree.kind_eq_false_iff hk).1 (Bool.eq_false_of_not_eq_true hkind)
    have hown := (hcode _).trans (htree.codeIn_of_path hn hleaf hpath)
    have honly (d : Sym) (hd : s.codeOf p d = acc ++ [b]) : d = (nodeAt s.node k).sym := by
      obtain ⟨-, hsym⟩ := h.leaf_of_codeOf_eq htree hn hd hpath
      exact hsym.symm
    rw [tableMove_eq_emit hown honly]
    exact .emit _

end

/-- A tree of one leaf is that leaf alone. -/
theorem IsTree.eq_leaf {ns : List Node} (h : IsTree 1 ns) : ∃ c w, ns = [.leaf c w] := by
  obtain ⟨m, rfl⟩ := List.length_eq_one_iff.1 h.size
  cases m with
  | leaf c w => exact ⟨c, w, rfl⟩
  | internal l r w => exact absurd (h.leavesFirst 0 Nat.one_pos) (by simp [nodeAt, Node.kind])

/-- The loops of the two decoders end alike with the table of the tree (44_decode.md R178). -/
theorem decodeEnding_eq_decodecEnding {s : State} (hinv : TreeInvariant s.node) (h : s.tableOfTree) :
    decodeEnding s = decodecEnding s := by
  obtain hnode | ⟨n, htree⟩ := hinv
  case inl =>
    refine decodeLoop_eq_of_rel (R := fun _ acc => acc = []) rfl (fun p x y b hy => ?_) _ _ rfl _ _
    exact hy ▸ h.rel_of_noTree hnode p x b
  obtain hone | hn := htree.leaves.1.eq_or_lt
  case inl =>
    subst hone
    obtain ⟨c, w, hnode⟩ := htree.eq_leaf
    refine decodeLoop_eq_of_rel (R := fun _ acc => acc = []) rfl (fun p x y b hy => ?_) _ _ rfl _ _
    exact hy ▸ h.rel_of_oneLeaf hnode p x b
  case inr =>
    have hroot : StandsAt s.node (rootOf s.node) [] := ⟨rfl, htree.kind_root hn⟩
    exact decodeLoop_eq_of_rel hroot (fun p x y b hat => h.rel_of_isTree htree hn hat p b) _ _ hroot _ _

/-! ## DECODE and DECODEC -/

/-- DECODE checks BIT_LEN, then stores what its loop ends with (44_decode.md R166). -/
theorem exec_decode (s : State) : exec .decode s =
    if s.bitLen.toNat > s.bitcap.toNat then .next (raiseError .symbols .capacity overCapacity s)
    else .next (storeSymbols (decodeEnding s) s) := rfl

/-- DECODEC checks BIT_LEN, then stores what its loop ends with (44_decode.md R172). -/
theorem exec_decodec (s : State) : exec .decodec s =
    if s.bitLen.toNat > s.bitcap.toNat then .next (raiseError .symbols .capacity overCapacity s)
    else .next (storeSymbols (decodecEnding s) s) := rfl

/-- ERR 4 records InvalidCode only (60_exceptions.md R210). -/
theorem raiseError_err_ne_four {o : Output} {e : Err} {info : Word} {s : State} (h : e ≠ .invalidCode) :
    (raiseError o e info s).err ≠ 4 := by
  rw [raiseError_err]
  cases e with
  | invalidCode => exact absurd rfl h
  | _ => decide

@[simp] theorem State.bits_length (s : State) : s.bits.length = s.bitLen.toNat := by simp [State.bits]

theorem State.bits_eq_nil {s : State} (h : s.bitLen = 0) : s.bits = [] :=
  List.eq_nil_of_length_eq_zero (by rw [s.bits_length, h]; rfl)

theorem storeSymbols_nil (s : State) : storeSymbols (.done []) s = { s with running := none, symLen := 0 } := rfl

/-- DECODE of the empty bitstream ends with success, with any tree (44_decode.md R179). -/
theorem exec_decode_of_empty {s : State} (h : s.bitLen = 0) :
    exec .decode s = .next { s with running := none, symLen := 0 } := by
  rw [exec_decode, if_neg (by simp [h]), decodeEnding, s.bits_eq_nil h, decodeLoop_nil_of_start, storeSymbols_nil]

/-- DECODEC of the empty bitstream ends with success, with any table (44_decode.md R179). -/
theorem exec_decodec_of_empty {s : State} (h : s.bitLen = 0) :
    exec .decodec s = .next { s with running := none, symLen := 0 } := by
  rw [exec_decodec, if_neg (by simp [h]), decodecEnding, s.bits_eq_nil h, decodeLoop_nil_of_start, storeSymbols_nil]

/-- With no tree the first bit has no path (44_decode.md R170). -/
theorem decodeEnding_of_noTree {s : State} (hnode : s.node = []) (h : s.bitLen ≠ 0) :
    decodeEnding s = .failed .invalidCode (position 0) := by
  have hne : s.bits ≠ [] := List.length_pos_iff.1 (s.bits_length ▸ Nat.pos_of_ne_zero (BitVec.toNat_ne.1 h))
  obtain ⟨b, bs, hbits⟩ := List.exists_cons_of_ne_nil hne
  rw [decodeEnding, hbits, hnode]
  exact decodeLoop_cons_of_noPath (treeMove_of_noTree _ b) ..

end Sys2Proof.Machine

namespace Sys2Proof
open Machine

/-- Settles O42: after every bit both decoders stand at the same place of the tree (`decodeEnding_eq_decodecEnding`). -/
theorem theTwoDecodersAgree : Obligations.TheTwoDecodersAgree := fun s hinv htable => by
  rw [exec_decode, exec_decodec, decodeEnding_eq_decodecEnding hinv htable]

/-- Settles O37: with no tree the first bit has no path, and with two or more leaves every bit has one. -/
theorem decodeRaisesInvalidCodeOnlySo : Obligations.DecodeRaisesInvalidCodeOnlySo := by
  refine ⟨fun s hnode hne hfits => ?noTree, fun s _ hempty => exec_decode_of_empty hempty,
    fun s t n htree hn herr hexec => ?twoLeaves⟩
  case noTree =>
    rw [exec_decode, if_neg (Nat.not_lt.2 hfits), decodeEnding_of_noTree hnode hne]
    rfl
  case twoLeaves =>
    have hsize := htree.size
    have hpath := treeMove_ne_noPath (ns := s.node) (by omega)
    obtain ⟨-, rfl⟩ | ⟨-, rfl⟩ := execDecode_cases hexec
    · exact raiseError_err_ne_four (by decide)
    obtain ⟨out, -, hstore⟩ | ⟨e, info, hend, hstore⟩ := storeSymbols_cases (decodeEnding s) s <;> rw [hstore]
    · exact herr
    · refine raiseError_err_ne_four fun he => ?_
      subst he
      exact decodeLoop_ne_invalidCode (fun _ => hpath) _ _ _ _ _ _ _ _ hend

/-- Settles O38: neither loop has a bit to consume. -/
theorem emptyBitstreamDecodesToNothing : Obligations.EmptyBitstreamDecodesToNothing := fun _ h =>
  ⟨exec_decode_of_empty h, exec_decodec_of_empty h⟩

end Sys2Proof
end

section
/-! SUPPORT. Properties of the commands together (46_properties.md): after DERIVE and MKTABLE no symbol's code begins with
another's (R197); and MKTABLE, ENCODE and the decoders in turn on an input of one distinct symbol (R200) and on the
empty input (R201). -/

namespace Sys2Proof.Machine

/-! ## No code begins with another -/

/-- There is no step from a leaf. -/
theorem follow_eq_some_iff_of_leaf {ns : List Node} {k j : Nat} {p : BitString} (h : (nodeAt ns k).kind = false) :
    follow ns k p = some j ↔ p = [] ∧ k = j := by
  cases p with
  | nil => simp
  | cons b p => simp [follow_cons_of_leaf h]

/-- Of two leaves none stands on the path to the other, so a code that begins another is the same symbol's. -/
theorem IsTree.eq_of_codeIn_prefix {n : Nat} {ns : List Node} (h : IsTree n ns) (hn : 2 ≤ n) {c d : Sym}
    (hc : codeIn (treeCodes ns) c ≠ []) (hd : codeIn (treeCodes ns) d ≠ [])
    (hpre : codeIn (treeCodes ns) c <+: codeIn (treeCodes ns) d) : c = d := by
  obtain ⟨k, hk, rfl, hpathc⟩ := h.exists_leaf_of_codeIn_ne_nil hn hc
  obtain ⟨j, -, rfl, hpathd⟩ := h.exists_leaf_of_codeIn_ne_nil hn hd
  obtain ⟨q, hq⟩ := hpre
  rw [← hq, follow_append, hpathc, Option.bind_some, follow_eq_some_iff_of_leaf (h.leavesFirst k hk)] at hpathd
  obtain ⟨-, rfl⟩ := hpathd
  rfl

/-- After DERIVE of a tree that meets the invariant no symbol's code begins another's (46_properties.md R197). -/
theorem derive_prefixFree {s t : State} (hinv : TreeInvariant s.node) (h : exec .derive s = .next t) :
    t.prefixFree := by
  intro c d hne hc hd hpre
  obtain hnode | ⟨n, htree⟩ := hinv
  case inl => exact hc ((derive_of_noTree h hnode).1 c)
  obtain hone | hn := htree.leaves.1.eq_or_lt
  case inl =>
    subst hone
    obtain ⟨e, w, hnode⟩ := htree.eq_leaf
    obtain ⟨-, -, hother, -⟩ := derive_of_oneLeaf h hnode
    exact hne ((not_imp_comm.1 (hother c) hc).trans (not_imp_comm.1 (hother d) hd).symm)
  case inr =>
    rw [derive_codeOf h (htree.length_codeIn_lt hn c), derive_codeOf h (htree.length_codeIn_lt hn d)] at hpre
    exact hne (htree.eq_of_codeIn_prefix hn (mt (derive_codelenAt_eq_zero h) hc)
      (mt (derive_codelenAt_eq_zero h) hd) hpre)

/-! ## MKTABLE -/

/-- Within SYM_CAP MKTABLE ends as DERIVE does after the tallies and the tree (42_derive.md R148). -/
theorem exec_mktable_of_le {s : State} (h : s.symLen.toNat ≤ s.symcap.toNat) :
    exec .mktable s = exec .derive (buildUnlessEmpty (countBody s)) :=
  if_neg (Nat.not_lt.2 h)

theorem buildUnlessEmpty_node_of_empty {s : State} (h : ∀ c, s.freqAt c = 0) : (buildUnlessEmpty s).node = [] := by
  rw [buildUnlessEmpty, if_pos ((tableEmpty_iff s.freq).2 h)]

theorem buildUnlessEmpty_node_of_not_empty {s : State} (h : ∃ c, s.freqAt c ≠ 0) :
    (buildUnlessEmpty s).node = buildTree s.freq := by
  rw [buildUnlessEmpty, if_neg fun he => h.elim fun c hc => hc ((tableEmpty_iff s.freq).1 he c), buildBody_node]

theorem buildUnlessEmpty_treeInvariant (s : State) : TreeInvariant (buildUnlessEmpty s).node := by
  by_cases h : ∀ c, s.freqAt c = 0
  · exact .inl (buildUnlessEmpty_node_of_empty h)
  · rw [not_forall] at h
    rw [buildUnlessEmpty_node_of_not_empty h]
    exact .inr ⟨distinctCount s, buildTree_isTree h⟩

/-- COUNT of the empty input leaves no count. -/
theorem countBody_freqAt_eq_zero {s : State} (h : s.symLen = 0) (c : Sym) : (countBody s).freqAt c = 0 := by
  have hnil : s.symbols = [] := List.eq_nil_of_length_eq_zero (by rw [s.symbols_length, h]; rfl)
  by_contra hne
  exact List.ne_nil_of_mem ((countBody_freqAt_ne_zero_iff s c).1 hne) hnil

/-- One symbol with a count gives one leaf (41_build.md R129). -/
theorem buildTree_of_countedSymbols_eq_singleton {s : State} {c : Sym} (h : s.countedSymbols = [c]) :
    buildTree s.freq = [s.leafOf c] := by
  rw [buildTree, leafNodes_eq_map, h]
  rfl

/-- The symbols with a count after COUNT are those of the input, each once. -/
theorem countedSymbols_countBody {s : State} {c : Sym} (h : ∀ d, d ∈ s.symbols ↔ d = c) :
    (countBody s).countedSymbols = [c] := by
  have hmem (d : Sym) : ((countBody s).freqAt d != 0) = (d == c) := by
    rw [Bool.eq_iff_iff, bne_iff_ne, beq_iff_eq, countBody_freqAt_ne_zero_iff, h]
  rw [State.countedSymbols, List.filter_congr fun d _ => hmem d, List.filter_beq,
    List.count_eq_one_of_mem allSymbols_nodup (mem_allSymbols c)]
  rfl

/-- The tree MKTABLE makes of an input of one distinct symbol is its leaf (46_properties.md R200). -/
theorem buildUnlessEmpty_countBody_node {s : State} {c : Sym} (h : ∀ d, d ∈ s.symbols ↔ d = c) :
    (buildUnlessEmpty (countBody s)).node = [(countBody s).leafOf c] := by
  have hcount := (countBody_freqAt_ne_zero_iff s c).2 ((h c).2 rfl)
  rw [buildUnlessEmpty_node_of_not_empty ⟨c, hcount⟩,
    buildTree_of_countedSymbols_eq_singleton (countedSymbols_countBody h)]

/-- DERIVE leaves the table of the tree (42_derive.md R142). -/
theorem derive_tableOfTree {s t : State} (h : exec .derive s = .next t) : t.tableOfTree := by
  obtain rfl := eq_of_exec_derive h
  exact ⟨rfl, rfl⟩

/-- MKTABLE changes BUSY and the three tables only, and leaves a tree that meets the invariant and its table
(42_derive.md R148). -/
theorem mktable_frame {s t : State} (hcap : s.symLen.toNat ≤ s.symcap.toNat) (h : exec .mktable s = .next t) :
    t = { s with
      running := none, freq := t.freq, node := t.node, codelen := t.codelen, codebits := t.codebits } := by
  rw [exec_mktable_of_le hcap] at h
  obtain rfl := eq_of_exec_derive h
  rw [buildUnlessEmpty]
  split <;> rfl

/-- MKTABLE of an input of one distinct symbol leaves the one-leaf tree and its table (46_properties.md R200). -/
theorem mktable_of_oneSymbol {s : State} {c : Sym} (hcap : s.symLen.toNat ≤ s.symcap.toNat)
    (h : ∀ d, d ∈ s.symbols ↔ d = c) :
    ∃ t, exec .mktable s = .next t ∧
      t = { s with
        running := none, freq := t.freq, node := t.node, codelen := t.codelen, codebits := t.codebits } ∧
      TreeInvariant t.node ∧ t.tableOfTree ∧ ∃ w, t.node = [.leaf c w] := by
  have hderive := exec_derive (buildUnlessEmpty (countBody s))
  have hmktable := (exec_mktable_of_le hcap).trans hderive
  exact ⟨_, hmktable, mktable_frame hcap hmktable, buildUnlessEmpty_treeInvariant (countBody s),
    derive_tableOfTree hderive, _, buildUnlessEmpty_countBody_node h⟩

/-! ## What the lengths and buffers hold after ENCODE and the decoders -/

/-- The state in which ENCODE ends with the bits `p` (43_encode.md R159). -/
def storeBitstream (p : BitString) (s : State) : State :=
  endCommand { s with bitbuf := storeBits p s.bitbuf, bitLen := BitVec.ofNat 32 p.length }

theorem exec_encode_eq_storeBitstream {s : State} {p : BitString} (hsym : s.symLen.toNat ≤ s.symcap.toNat)
    (hloop : encodeLoop s (List.range s.symLen.toNat) [] = .done p) :
    exec .encode s = .next (storeBitstream p s) :=
  exec_encode_of_done hsym hloop

theorem storeBitstream_bitLen (p : BitString) (s : State) :
    (storeBitstream p s).bitLen = BitVec.ofNat 32 p.length := rfl

/-- The bits that ENCODE stores are then the bit sequence (43_encode.md R158). -/
theorem bits_storeBitstream {p : BitString} (h : p.length < 2 ^ 32) (s : State) : (storeBitstream p s).bits = p := by
  have hlen : (storeBitstream p s).bitLen.toNat = p.length := Nat.mod_eq_of_lt h
  refine List.ext_getElem ((State.bits_length _).trans hlen) fun t _ ht => ?_
  have hword : t < 32 * wordsFor p.length := by
    rw [wordsFor]
    omega
  obtain ⟨w, hread, hbit⟩ := storeBits_bit p s.bitbuf hword
  replace hread : (storeBitstream p s).bitbuf.read (t / 32) = some w := hread
  simp only [State.bits, List.getElem_map, List.getElem_range]
  rw [State.bitAt, State.bitWord, hread, Option.getD_some, hbit, List.getD_eq_getElem _ _ ht]

/-- The symbols stored by a decoder are the symbol sequence (44_decode.md R166, R172). -/
theorem symbols_storeSymbols {cs : List Sym} (h : cs.length < 2 ^ 32) (s : State) :
    (storeSymbols (.done cs) s).symbols = cs := by
  have hlen : (storeSymbols (.done cs) s).symLen.toNat = cs.length := Nat.mod_eq_of_lt h
  refine List.ext_getElem ((State.symbols_length _).trans hlen) fun i _ hi => ?_
  have hread : (storeSymbols (.done cs) s).symbuf.read i = some cs[i] := by
    show (s.symbuf.writeFrom 0 cs).read i = _
    rw [Memory.read_writeFrom, if_pos (by omega), Nat.sub_zero, List.getElem?_eq_getElem hi]
  simp only [State.symbols, List.getElem_map, List.getElem_range]
  rw [State.symAt, hread, Option.getD_some]

/-! ## One distinct symbol -/

theorem State.symbols_eq_replicate {s : State} {c : Sym} (h : ∀ i < s.symLen.toNat, s.symAt i = c) :
    s.symbols = List.replicate s.symLen.toNat c := by
  refine List.eq_replicate_iff.2 ⟨s.symbols_length, fun d hd => ?_⟩
  obtain ⟨i, hi, rfl⟩ := List.mem_map.1 hd
  exact h i (List.mem_range.1 hi)

theorem State.encoding_of_zeros {s : State} {is : List Nat} (h : ∀ i ∈ is, s.codeOf i (s.symAt i) = [false]) :
    s.encoding is = List.replicate is.length false := by
  induction is with
  | nil => rfl
  | cons i is ih =>
    rw [State.encoding_cons, h i List.mem_cons_self, ih fun j hj => h j (List.mem_cons_of_mem i hj)]
    rfl

/-- ENCODE of an input whose symbols all have the code "0" (46_properties.md R200). -/
theorem exec_encode_of_zeros {s : State} (hsym : s.symLen.toNat ≤ s.symcap.toNat)
    (hbit : s.symLen.toNat ≤ s.bitcap.toNat) (h : ∀ i < s.symLen.toNat, s.codeOf i (s.symAt i) = [false]) :
    exec .encode s = .next (storeBitstream (List.replicate s.symLen.toNat false) s) := by
  have hcodes : s.encoding (List.range s.symLen.toNat) = List.replicate s.symLen.toNat false := by
    rw [State.encoding_of_zeros fun i hi => h i (List.mem_range.1 hi), List.length_range]
  have hentry (i : Nat) (hi : i ∈ List.range s.symLen.toNat) : s.codelenAt (s.symAt i) ≠ 0 := fun hzero =>
    absurd (h i (List.mem_range.1 hi)) (by simp [codeOf_eq_nil hzero])
  have hloop := encodeLoop_eq_done hentry (by rwa [hcodes, List.length_replicate])
  rw [exec_encode_eq_storeBitstream hsym hloop, hcodes]

/-- A bit that completes a code emits its symbol, which fits (44_decode.md R166, R172). -/
theorem decodeLoop_cons_of_emit {σ : Type} {move : Nat → σ → Bool → Move σ} {p : Nat} {x : σ} {b : Bool} {c : Sym}
    (h : move p x b = .emit c) (root : σ) {cap : Nat} (bs : BitString) (start : Nat) {out : List Sym}
    (hroom : out.length ≠ cap) :
    decodeLoop move root cap (b :: bs) p x start out =
      decodeLoop move root cap bs (p + 1) root (p + 1) (out ++ [c]) := by
  rw [decodeLoop, h]
  exact if_neg hroom

/-- With one leaf each bit 0 emits its symbol, while they fit (44_decode.md R169). -/
theorem decodeLoop_of_oneLeaf (c : Sym) (w : Weight) (root : Nat) {cap m : Nat} (p x : Nat) {out : List Sym}
    (h : out.length + m ≤ cap) :
    decodeLoop (fun _ cur b => treeMove [.leaf c w] cur b) root cap (List.replicate m false) p x p out =
      .done (out ++ List.replicate m c) := by
  induction m generalizing p x out with
  | zero => simp
  | succ m ih =>
    have hroom : (out ++ [c]).length + m ≤ cap := by
      rw [List.length_append, List.length_singleton]
      omega
    rw [List.replicate_succ, decodeLoop_cons_of_emit (treeMove_of_oneLeaf c w x false) _ _ _ (by omega),
      ih _ _ hroom, List.append_assoc, List.replicate_succ, List.singleton_append]

/-- DECODE of bits 0 with one leaf (44_decode.md R169). -/
theorem exec_decode_of_oneLeaf {s : State} {c : Sym} {w : Weight} {m : Nat} (hnode : s.node = [.leaf c w])
    (hfits : s.bitLen.toNat ≤ s.bitcap.toNat) (hbits : s.bits = List.replicate m false)
    (hcap : m ≤ s.symcap.toNat) : exec .decode s = .next (storeSymbols (.done (List.replicate m c)) s) := by
  rw [exec_decode, if_neg (Nat.not_lt.2 hfits), decodeEnding, hbits, hnode,
    decodeLoop_of_oneLeaf c w _ 0 _ (by simpa using hcap), List.nil_append]

/-- Where DERIVE has made the table of the one-leaf tree, ENCODE makes each symbol a bit 0, and both decoders make each
bit 0 that symbol (46_properties.md R200). -/
theorem encode_decode_of_oneLeaf {s : State} {c : Sym} {w : Weight} (hinv : TreeInvariant s.node)
    (htable : s.tableOfTree) (hnode : s.node = [.leaf c w]) (hcap : s.symLen.toNat ≤ s.symcap.toNat)
    (hbit : s.symLen.toNat ≤ s.bitcap.toNat) (hall : ∀ i < s.symLen.toNat, s.symAt i = c) :
    ∃ t, exec .encode s = .next t ∧
      exec .decode t = .next (storeSymbols (.done (List.replicate s.symLen.toNat c)) t) ∧
      exec .decodec t = .next (storeSymbols (.done (List.replicate s.symLen.toNat c)) t) ∧
      t.bitLen = s.symLen ∧ t.bits = List.replicate s.symLen.toNat false := by
  have hencode := exec_encode_of_zeros hcap hbit fun i hi => by
    rw [hall i hi, htable.codeOf_of_oneLeaf hnode, if_pos rfl]
  have hlen : (storeBitstream (List.replicate s.symLen.toNat false) s).bitLen = s.symLen := by
    simp [storeBitstream_bitLen]
  have hbits := bits_storeBitstream (p := List.replicate s.symLen.toNat false) (by simpa using s.symLen.isLt) s
  have hdecode := exec_decode_of_oneLeaf (s := storeBitstream _ s) hnode (by rwa [hlen]) hbits hcap
  have hagree := theTwoDecodersAgree (storeBitstream (List.replicate s.symLen.toNat false) s) hinv htable
  exact ⟨_, hencode, hdecode, hagree.symm.trans hdecode, hlen, hbits⟩

/-! ## The empty input -/

/-- ENCODE of the empty input writes nothing, with any table (43_encode.md R160). -/
theorem exec_encode_of_empty {s : State} (h : s.symLen = 0) :
    exec .encode s = .next { s with running := none, bitLen := 0 } := by
  rw [exec_encode_of_done (p := []) (by simp [h]) (by rw [h]; rfl)]
  rfl

end Sys2Proof.Machine

namespace Sys2Proof
open Machine

/-- Settles O26: a code is the path to a leaf, and no path goes on from a leaf (`IsTree.eq_of_codeIn_prefix`); MKTABLE
ends as DERIVE does on the tree it has built. -/
theorem derivedCodesArePrefixFree : Obligations.DerivedCodesArePrefixFree :=
  ⟨fun _ _ => derive_prefixFree, fun s _ hcap h =>
    derive_prefixFree (buildUnlessEmpty_treeInvariant (countBody s)) (exec_mktable_of_le hcap ▸ h)⟩

/-- Settles O44: MKTABLE makes the one-leaf tree and its table (`mktable_of_oneSymbol`), under which each symbol is one
bit 0 and each bit 0 that symbol (`encode_decode_of_oneLeaf`). -/
theorem oneDistinctSymbolTakesOneBitEach : Obligations.OneDistinctSymbolTakesOneBitEach := by
  intro s c hpos hcap hbit _ hall
  have hsymbols := State.symbols_eq_replicate hall
  have honly (d : Sym) : d ∈ s.symbols ↔ d = c := by
    rw [hsymbols, List.mem_replicate]
    exact and_iff_right (by omega)
  obtain ⟨a, hmktable, hframe, hinv, htable, w, hnode⟩ := mktable_of_oneSymbol hcap honly
  obtain ⟨hown, hcode, hother, -⟩ := derive_of_oneLeaf htable.exec_derive hnode
  have hlen : a.symLen = s.symLen := by rw [hframe]
  have hsame (i : Nat) : a.symAt i = s.symAt i := by rw [hframe]; rfl
  obtain ⟨b, hencode, hdecode, hdecodec, hbitLen, hbits⟩ := encode_decode_of_oneLeaf hinv htable hnode
    (by rwa [hframe]) (by rwa [hframe]) fun i hi => (hsame i).trans (hall i (hlen ▸ hi))
  rw [hlen] at hdecode hdecodec hbitLen hbits
  refine ⟨a, b, _, hmktable, hencode, hdecode, hdecodec, by rw [State.nnodes, hnode]; rfl, hown, hcode 0, hother,
    hbitLen, hbits, ?symLen, ?symbols⟩
  case symLen => simp [storeSymbols]
  case symbols => rw [symbols_storeSymbols (by simpa using s.symLen.isLt), hsymbols]

/-- Settles O45: with no symbol there is no count, no tree and no entry, and neither loop has anything to consume. -/
theorem emptyInputGivesEmptyOutputs : Obligations.EmptyInputGivesEmptyOutputs := by
  intro s h
  have hfreq := countBody_freqAt_eq_zero h
  have hnode := buildUnlessEmpty_node_of_empty hfreq
  have hderive := exec_derive (buildUnlessEmpty (countBody s))
  obtain ⟨hcodelen, -⟩ := derive_of_noTree hderive hnode
  refine ⟨exec_encode_of_empty h, _, _, _, (exec_mktable_of_le (by simp [h])).trans hderive,
    exec_encode_of_empty (by simp [h]), exec_decode_of_empty rfl, exec_decodec_of_empty rfl, ?freq, ?nnodes,
    hcodelen, rfl, ?bitbuf, rfl, ?fault⟩
  case freq => simpa [State.freqAt] using hfreq
  case nnodes => simp [State.nnodes, hnode]
  case bitbuf => simp
  case fault => simp

end Sys2Proof
end

section
/-! SUPPORT. How a command can end, what an access at the port leaves unchanged, and an invariant rule for steps: what
every ending, access and reset keeps, every step keeps. -/

namespace Sys2Proof.Machine

/-! ## How a command ends -/

/-- The command `i` ends with success from `s` in `t` (30_encoding.md R92 step 5). -/
inductive Succeeds (s : State) : Instr → State → Prop where
  | nop : Succeeds s .nop (endCommand s)
  | count : Succeeds s .count (endCommand (countBody s))
  | build (h : ∃ c, s.freqAt c ≠ 0) : Succeeds s .build (endCommand (buildBody s))
  | derive : Succeeds s .derive (endCommand (deriveBody s))
  | encode {p : BitString} (h : p.length ≤ s.bitcap.toNat) : Succeeds s .encode (storeBitstream p s)
  | decode {cs : List Sym} (h : cs.length ≤ s.symcap.toNat) : Succeeds s .decode (storeSymbols (.done cs) s)
  | decodec {cs : List Sym} (h : cs.length ≤ s.symcap.toNat) : Succeeds s .decodec (storeSymbols (.done cs) s)
  | mktable : Succeeds s .mktable (endCommand (deriveBody (buildUnlessEmpty (countBody s))))
  | clrf : Succeeds s .clrf (endCommand (acknowledge s))
  | srst : Succeeds s .srst (endCommand (acknowledge
      { s with symLen := 0, bitLen := 0, node := [], freq := Vector.replicate 256 0,
               codelen := Vector.replicate 256 0 }))

/-- A command ends with success, or with one of its errors and its output emptied (60_exceptions.md R211, R220). -/
theorem exec_cases {i : Instr} {s t : State} (h : exec i s = .next t) :
    Succeeds s i t ∨ ∃ e ∈ errorsOf i, ∃ info, t = raiseError (outputOf i) e info s := by
  cases i with
  | nop => cases h; exact .inl .nop
  | derive => cases h; exact .inl .derive
  | clrf => cases h; exact .inl .clrf
  | srst => cases h; exact .inl .srst
  | count =>
    obtain ⟨-, rfl⟩ | ⟨-, rfl⟩ := execCount_cases h
    · exact .inr ⟨_, List.mem_cons_self, _, rfl⟩
    · exact .inl .count
  | build =>
    obtain ⟨-, rfl⟩ | ⟨hne, rfl⟩ := execBuild_cases h
    · exact .inr ⟨_, List.mem_cons_self, _, rfl⟩
    · rw [← Bool.not_eq_true, tableEmpty_iff, not_forall] at hne
      exact .inl (.build hne)
  | mktable =>
    obtain ⟨-, rfl⟩ | ⟨-, rfl⟩ := execMktable_cases h
    · exact .inr ⟨_, List.mem_cons_self, _, rfl⟩
    · exact .inl .mktable
  | encode =>
    obtain ⟨-, rfl⟩ | ⟨p, -, hloop, rfl⟩ | ⟨e, info, -, hloop, rfl⟩ := execEncode_cases h
    · exact .inr ⟨_, List.mem_cons_self, _, rfl⟩
    · exact .inl (.encode (encodeLoop_length s _ (Nat.zero_le _) hloop))
    · exact .inr ⟨e, by simpa [errorsOf] using encodeLoop_errors s _ hloop, info, rfl⟩
  | decode =>
    obtain ⟨-, rfl⟩ | ⟨-, rfl⟩ := execDecode_cases h
    · exact .inr ⟨_, List.mem_cons_self, _, rfl⟩
    cases hloop : decodeEnding s with
    | done cs => exact .inl (.decode (decodeLoop_length _ (Nat.zero_le _) hloop))
    | failed e info => exact .inr ⟨e, by simpa [errorsOf] using decodeLoop_errors _ hloop, info, rfl⟩
  | decodec =>
    obtain ⟨-, rfl⟩ | ⟨-, rfl⟩ := execDecodec_cases h
    · exact .inr ⟨_, List.mem_cons_self, _, rfl⟩
    cases hloop : decodecEnding s with
    | done cs => exact .inl (.decodec (decodeLoop_length _ (Nat.zero_le _) hloop))
    | failed e info => exact .inr ⟨e, by simpa [errorsOf] using decodeLoop_errors _ hloop, info, rfl⟩

theorem exists_ite_eq_next {c : Prop} [Decidable c] (a b : State) :
    ∃ t, (if c then .next a else .next b : Host.Outcome State Fault Refusal) = .next t := by
  split
  · exact ⟨a, rfl⟩
  · exact ⟨b, rfl⟩

/-- Every command ends, from every state (46_properties.md R206). -/
theorem exists_exec_eq_next (i : Instr) (s : State) : ∃ t, exec i s = .next t := by
  cases i with
  | nop => exact ⟨_, rfl⟩
  | derive => exact ⟨_, rfl⟩
  | clrf => exact ⟨_, rfl⟩
  | srst => exact ⟨_, rfl⟩
  | count => exact exists_ite_eq_next ..
  | build => exact exists_ite_eq_next ..
  | mktable => exact exists_ite_eq_next ..
  | decode => exact exists_ite_eq_next ..
  | decodec => exact exists_ite_eq_next ..
  | encode =>
    show ∃ t, execEncode s = .next t
    unfold execEncode
    split
    · exact ⟨_, rfl⟩
    · split
      · exact ⟨_, rfl⟩
      · exact ⟨_, rfl⟩

/-- A command ends with BUSY 0 (10_state.md R28). -/
theorem exec_running {i : Instr} {s t : State} (h : exec i s = .next t) : t.running = none := by
  obtain hok | ⟨e, -, info, rfl⟩ := exec_cases h
  · cases hok <;> rfl
  · rfl

/-- An error's code is one of 1 to 6 (60_exceptions.md R210). -/
theorem Err.code_legal (e : Err) : e.code ≠ 0 ∧ e.code.toNat ≤ 6 := by
  cases e <;> decide

/-! ## What an access at the port leaves unchanged -/

/-- A write changes no capacity, no node, no recorded error and nothing of the model's own. -/
theorem portWrite_frame (s : State) (a : Addr) (v : Word) :
    portWrite s a v = { portWrite s a v with
      symcap := s.symcap, bitcap := s.bitcap, fault := s.fault, err := s.err, errinfo := s.errinfo, node := s.node,
      inputs := s.inputs, sched := s.sched, log := s.log, draw := s.draw } := by
  obtain ⟨-, hwrite⟩ | ⟨-, -, hwrite⟩ | ⟨-, hcmd, hwrite⟩ := portWrite_cases s a v <;> rw [hwrite]
  · rw [issue]
    split <;> rfl
  · cases hloc : s.locOf a with
    | cmd => exact absurd hloc hcmd
    | _ => rfl

@[simp] theorem portWrite_symcap (s : State) (a : Addr) (v : Word) : (portWrite s a v).symcap = s.symcap := by
  rw [portWrite_frame]
@[simp] theorem portWrite_bitcap (s : State) (a : Addr) (v : Word) : (portWrite s a v).bitcap = s.bitcap := by
  rw [portWrite_frame]
@[simp] theorem portWrite_fault (s : State) (a : Addr) (v : Word) : (portWrite s a v).fault = s.fault := by
  rw [portWrite_frame]
@[simp] theorem portWrite_err (s : State) (a : Addr) (v : Word) : (portWrite s a v).err = s.err := by
  rw [portWrite_frame]
@[simp] theorem portWrite_errinfo (s : State) (a : Addr) (v : Word) : (portWrite s a v).errinfo = s.errinfo := by
  rw [portWrite_frame]
@[simp] theorem portWrite_node (s : State) (a : Addr) (v : Word) : (portWrite s a v).node = s.node := by
  rw [portWrite_frame]
@[simp] theorem portWrite_inputs (s : State) (a : Addr) (v : Word) : (portWrite s a v).inputs = s.inputs := by
  rw [portWrite_frame]
@[simp] theorem portWrite_sched (s : State) (a : Addr) (v : Word) : (portWrite s a v).sched = s.sched := by
  rw [portWrite_frame]

/-- A write sets OVR while BUSY is 1, and else leaves it (10_state.md R29). -/
theorem portWrite_ovr (s : State) (a : Addr) (v : Word) : (portWrite s a v).ovr = (s.busy || s.ovr) := by
  obtain ⟨hbusy, hwrite⟩ | ⟨hidle, -, hwrite⟩ | ⟨hidle, hcmd, hwrite⟩ := portWrite_cases s a v <;> rw [hwrite]
  · simp [hbusy]
  · simp [hidle]
  · rw [hidle, Bool.false_or]
    cases hloc : s.locOf a with
    | cmd => exact absurd hloc hcmd
    | _ => rfl

/-- The fault gate lets nothing but CLRF and SRST into execution (60_exceptions.md R224). -/
theorem issue_gateOk {s : State} (h : s.gateOk) (w : Word) : (issue w s).gateOk := by
  rw [issue]
  split
  case isTrue => exact h
  case isFalse hpass =>
    intro hfault
    simpa [show s.fault = true from hfault] using hpass

theorem portWrite_gateOk {s : State} (h : s.gateOk) (a : Addr) (v : Word) : (portWrite s a v).gateOk := by
  obtain ⟨-, hwrite⟩ | ⟨-, -, hwrite⟩ | ⟨-, hcmd, hwrite⟩ := portWrite_cases s a v <;> rw [hwrite]
  · exact h
  · exact issue_gateOk h v
  · cases hloc : s.locOf a with
    | cmd => exact absurd hloc hcmd
    | _ => exact h

/-- A write goes inside the memory that its address names (20_memory.md R66). -/
theorem portWrite_memoriesOk {s : State} (h : s.memoriesOk) (a : Addr) (v : Word) :
    (portWrite s a v).memoriesOk := by
  obtain ⟨-, hwrite⟩ | ⟨-, -, hwrite⟩ | ⟨-, hcmd, hwrite⟩ := portWrite_cases s a v <;> rw [hwrite]
  · exact h
  · simpa [State.memoriesOk] using h
  · obtain ⟨hcode, hsym, hbit⟩ := h
    obtain ⟨incode, insym, inbit⟩ := locate_memory (sc := s.symcap.toNat) (bc := s.bitcap.toNat) (a := a)
    cases hloc : s.locOf a with
    | cmd => exact absurd hloc hcmd
    | codebits x => exact ⟨Memory.wf_write v hcode (incode x hloc).2, hsym, hbit⟩
    | symbuf i => exact ⟨hcode, Memory.wf_write _ hsym (insym i hloc).2, hbit⟩
    | bitbuf q => exact ⟨hcode, hsym, Memory.wf_write v hbit (inbit q hloc).2⟩
    | _ => exact ⟨hcode, hsym, hbit⟩

/-! ## The invariant rule -/

/-- `P` is kept by everything that a step is made of. -/
structure KeptByParts (P : State → Prop) : Prop where
  turn : ∀ {s}, P s → P (takeTurn s)
  succeeds : ∀ {s i t}, P s → Succeeds s i t → P t
  raises : ∀ {s} o e info, P s → P (raiseError o e info s)
  input : ∀ {s} rest, P s → P { s with inputs := rest }
  write : ∀ {s} a v, P s → P (portWrite s a v)
  read : ∀ {s} a claim, P s → P (recordRead s a claim)
  reset : ∀ {s}, P s → P (resetEvent s)

/-- What is kept by everything that a step is made of is kept by every step. -/
theorem KeptByParts.step {P : State → Prop} (hP : KeptByParts P) {s t : State} (hs : P s) (h : step s = .next t) :
    P t := by
  have hturn := hP.turn hs
  obtain ⟨w, -, hw⟩ | ⟨i, rest, -, hi⟩ | ⟨-, rfl⟩ := step_cases h
  · obtain ⟨i, -, hexec⟩ | ⟨why, -, rfl⟩ := engineStep_cases hw
    · obtain hok | ⟨e, -, info, rfl⟩ := exec_cases hexec
      · exact hP.succeeds hturn hok
      · exact hP.raises _ e info hturn
    · exact hP.raises _ _ w hturn
  · obtain ⟨a, v, rfl⟩ | ⟨a, c, rfl⟩ | ⟨-, rfl | rfl⟩ | ⟨-, rfl⟩ := inputStep_cases hi
    · exact hP.write a v (hP.input rest hturn)
    · exact hP.read a c (hP.input rest hturn)
    · exact hturn
    · exact hP.input rest hturn
    · exact hP.reset (hP.input rest hturn)
  · exact hs

/-! ## The invariants -/

/-- The words of BITBUF that a bit-string of at most BIT_CAP bits takes are inside BITBUF, BIT_CAP being a multiple of
32 (00_scope.md R9). -/
theorem wordsFor_le {s : State} (h : s.paramsOk) {p : BitString} (hp : p.length ≤ s.bitcap.toNat) :
    wordsFor p.length ≤ s.bitcap.toNat / 32 := by
  have hmod : s.bitcap.toNat % 32 = 0 := by simpa using (Bool.and_eq_true_iff.1 h).2
  rw [wordsFor]
  omega

theorem Succeeds.memoriesOk {s t : State} {i : Instr} (hok : Succeeds s i t) (hparams : s.paramsOk)
    (h : s.memoriesOk) : t.memoriesOk := by
  obtain ⟨hcode, hsym, hbit⟩ := h
  cases hok with
  | derive => exact ⟨codeCells_wf _, hsym, hbit⟩
  | mktable => exact ⟨codeCells_wf _, by simpa using hsym, by simpa using hbit⟩
  | encode hp => exact ⟨hcode, hsym, storeBits_wf _ hbit (wordsFor_le hparams hp)⟩
  | decode hcs => exact ⟨hcode, Memory.wf_writeFrom _ hsym (by rwa [Nat.zero_add]), hbit⟩
  | decodec hcs => exact ⟨hcode, Memory.wf_writeFrom _ hsym (by rwa [Nat.zero_add]), hbit⟩
  | _ => exact ⟨hcode, hsym, hbit⟩

theorem raiseError_memoriesOk {s : State} (o : Output) (e : Err) (info : Word) (h : s.memoriesOk) :
    (raiseError o e info s).memoriesOk := by
  obtain ⟨hcode, hsym, hbit⟩ := h
  cases o with
  | codeTable => exact ⟨Memory.wf_nil _, hsym, hbit⟩
  | allTables => exact ⟨Memory.wf_nil _, hsym, hbit⟩
  | bitstream => exact ⟨hcode, hsym, Memory.wf_nil _⟩
  | symbols => exact ⟨hcode, Memory.wf_nil _, hbit⟩
  | _ => exact ⟨hcode, hsym, hbit⟩

theorem Succeeds.symcap {s t : State} {i : Instr} (hok : Succeeds s i t) : t.symcap = s.symcap := by
  cases hok with
  | mktable => simp
  | _ => rfl

theorem Succeeds.bitcap {s t : State} {i : Instr} (hok : Succeeds s i t) : t.bitcap = s.bitcap := by
  cases hok with
  | mktable => simp
  | _ => rfl

/-- No part of a step changes a capacity (10_state.md R24). -/
theorem capacities_kept (x y : Word) : KeptByParts fun s => s.symcap = x ∧ s.bitcap = y where
  turn h := h
  succeeds h hok := by rwa [hok.symcap, hok.bitcap]
  raises o e info h := by simpa using h
  input _ h := h
  write a v h := by simpa using h
  read _ _ h := h
  reset h := h

theorem capacities_step {s t : State} (h : step s = .next t) : t.symcap = s.symcap ∧ t.bitcap = s.bitcap :=
  (capacities_kept s.symcap s.bitcap).step ⟨rfl, rfl⟩ h

theorem paramsOk_congr {s t : State} (h : t.symcap = s.symcap ∧ t.bitcap = s.bitcap) (hs : s.paramsOk) :
    t.paramsOk := by
  rwa [State.paramsOk, h.1, h.2]

theorem memories_kept : KeptByParts fun s => s.paramsOk ∧ s.memoriesOk where
  turn h := h
  succeeds h hok := ⟨paramsOk_congr ⟨hok.symcap, hok.bitcap⟩ h.1, hok.memoriesOk h.1 h.2⟩
  raises o e info h := ⟨paramsOk_congr (by simp) h.1, raiseError_memoriesOk o e info h.2⟩
  input _ h := h
  write a v h := ⟨paramsOk_congr (by simp) h.1, portWrite_memoriesOk h.2 a v⟩
  read _ _ h := h
  reset h := ⟨h.1, Memory.wf_nil _, Memory.wf_nil _, Memory.wf_nil _⟩

/-- BUILD and MKTABLE leave the tree of the table; no other command that succeeds leaves a new one. -/
theorem Succeeds.treeInvariant {s t : State} {i : Instr} (hok : Succeeds s i t) (h : TreeInvariant s.node) :
    TreeInvariant t.node := by
  cases hok with
  | build hne => exact .inr ⟨_, buildTree_isTree hne⟩
  | mktable => exact buildUnlessEmpty_treeInvariant (countBody s)
  | srst => exact .inl rfl
  | _ => exact h

theorem tree_kept : KeptByParts fun s => TreeInvariant s.node where
  turn h := h
  succeeds h hok := hok.treeInvariant h
  raises o e info h := by
    rw [raiseError_node]
    split
    · exact .inl rfl
    · exact h
  input _ h := h
  write a v h := by rwa [portWrite_node]
  read _ _ h := h
  reset _ := .inl rfl

theorem Succeeds.statusOk {s t : State} {i : Instr} (hok : Succeeds s i t) (h : s.statusOk) : t.statusOk := by
  cases hok with
  | clrf => exact ⟨by simp, by simp, fun _ => rfl⟩
  | srst => exact ⟨by simp, by simp, fun _ => rfl⟩
  | mktable => simpa [State.statusOk] using h
  | _ => exact h

theorem status_kept : KeptByParts State.statusOk where
  turn h := h
  succeeds h hok := hok.statusOk h
  raises o e info _ := ⟨iff_of_true rfl e.code_legal.1, e.code_legal.2, fun h => by simp at h⟩
  input _ h := h
  write a v h := by simpa [State.statusOk] using h
  read _ _ h := h
  reset _ := ⟨by simp, by simp, fun _ => rfl⟩

theorem gate_kept : KeptByParts State.gateOk where
  turn h := h
  succeeds _ hok _ := by
    cases hok <;> rfl
  raises _ _ _ _ _ := rfl
  input _ h := h
  write a v h := portWrite_gateOk h a v
  read _ _ h := h
  reset _ _ := rfl

end Sys2Proof.Machine

namespace Sys2Proof
open Machine

/-- Settles O59: every ending and every write keeps the three memories (`memories_kept`). -/
theorem stepKeepsMemoriesCanonical : Obligations.StepKeepsMemoriesCanonical := fun _ _ hparams hmem h =>
  (memories_kept.step ⟨hparams, hmem⟩ h).2

/-- Settles O60: the trees that BUILD and MKTABLE leave meet the invariant of the merge loop's end (`tree_kept`). -/
theorem stepKeepsTheTreeInvariant : Obligations.StepKeepsTheTreeInvariant := fun _ _ hs h => tree_kept.step hs h

/-- Settles O58, by `capacities_kept`. -/
theorem stepKeepsTheCapacities : Obligations.StepKeepsTheCapacities := fun _ _ h => capacities_step h

/-- Settles O56, by `status_kept`: FAULT and ERR are written together, by an error and by the clearing of the flags. -/
theorem stepKeepsStatusLegal : Obligations.StepKeepsStatusLegal := fun _ _ hs h => status_kept.step hs h

/-- Settles O57, by `gate_kept`: the one part of a step that puts a word in execution is the issue, behind the gate. -/
theorem stepKeepsTheFaultGate : Obligations.StepKeepsTheFaultGate := fun _ _ hs h => gate_kept.step hs h

end Sys2Proof
end

section
/-! SUPPORT. The frame of every command (10_state.md R43), its errors, the engine's turn, and which step can set or
clear OVR or change a table (10_state.md R29, 70_reset_and_hazards.md R252). -/

namespace Sys2Proof.Machine

/-! ## The frame of a command -/

/-- `t` keeps of `s` what the access table gives the command `i` no right to write (10_state.md R43). -/
structure KeepsUnwritten (i : Instr) (s t : State) : Prop where
  capacities : t.symcap = s.symcap ∧ t.bitcap = s.bitcap
  world : t.inputs = s.inputs ∧ t.sched = s.sched ∧ t.log = s.log ∧ t.draw = s.draw
  symLen : i ∉ [.decode, .decodec, .srst] → t.symLen = s.symLen
  bitLen : i ∉ [.encode, .srst] → t.bitLen = s.bitLen
  node : i ∉ [.build, .mktable, .srst] → t.node = s.node
  freq : i ∉ [.count, .mktable, .srst] → t.freq = s.freq
  codelen : i ∉ [.derive, .mktable, .srst] → t.codelen = s.codelen
  codebits : i ∉ [.derive, .mktable] → t.codebits = s.codebits
  symbuf : i ∉ [.decode, .decodec] → t.symbuf = s.symbuf
  bitbuf : i ≠ .encode → t.bitbuf = s.bitbuf
  ovr : i ∉ [.clrf, .srst] → t.ovr = s.ovr

theorem Succeeds.keepsUnwritten {s t : State} {i : Instr} (hok : Succeeds s i t) : KeepsUnwritten i s t := by
  cases hok with
  | encode => constructor <;> simp [storeBitstream]
  | decode => constructor <;> simp [storeSymbols]
  | decodec => constructor <;> simp [storeSymbols]
  | _ => constructor <;> simp

/-- An error empties the command's output, which the command may write (60_exceptions.md R221). -/
theorem raiseError_keepsUnwritten (i : Instr) (e : Err) (info : Word) (s : State) :
    KeepsUnwritten i s (raiseError (outputOf i) e info s) := by
  cases i <;> constructor <;> simp [outputOf]

theorem exec_keepsUnwritten {i : Instr} {s t : State} (h : exec i s = .next t) : KeepsUnwritten i s t := by
  obtain hok | ⟨e, -, info, rfl⟩ := exec_cases h
  · exact hok.keepsUnwritten
  · exact raiseError_keepsUnwritten i e info s

/-- A command that succeeds records no error; CLRF and SRST clear the one recorded (10_state.md R29). -/
theorem Succeeds.flags {s t : State} {i : Instr} (hok : Succeeds s i t) :
    (i ∈ [.clrf, .srst] ∧ t.fault = false ∧ t.ovr = false) ∨
    (i ∉ [.clrf, .srst] ∧ t.fault = s.fault ∧ t.err = s.err ∧ t.errinfo = s.errinfo) := by
  cases hok with
  | clrf => exact .inl ⟨by decide, rfl, rfl⟩
  | srst => exact .inl ⟨by decide, rfl, rfl⟩
  | mktable => exact .inr ⟨by decide, by simp, by simp, by simp⟩
  | _ => exact .inr ⟨by decide, rfl, rfl, rfl⟩

/-- The error ending, written out (60_exceptions.md R220). -/
theorem raiseError_eq (o : Output) (e : Err) (info : Word) (s : State) :
    raiseError o e info s =
      { emptyOutput o s with running := none, fault := true, err := e.code, errinfo := info } := rfl

theorem resetEvent_statusWord (s : State) : (resetEvent s).statusWord = 0 := by
  show State.reset.statusWord = 0
  decide

/-! ## The engine's turn -/

theorem turn_eq_engine_iff (s : State) (w : Word) :
    turn s = .engine w ↔ s.running = some w ∧ (s.inputs = [] ∨ s.sched.head? ≠ some .host) := by
  obtain ⟨hr, -, ht⟩ | ⟨i, rest, hr, -, ht⟩ | ⟨v, i, rest, sch, hr, hi, hs, ht⟩ | ⟨v, hr, hengine, ht⟩ := turn_cases s
  · simp [ht, hr]
  · simp [ht, hr]
  · simp [ht, hi, hs]
  · simp [ht, hr, hengine]

/-- A step that begins while BUSY is 1 uses one entry of the schedule. -/
theorem takeTurn_of_busy {s : State} (h : s.busy = true) :
    takeTurn s = { s with draw := s.draw + 1, sched := s.sched.tail } := by
  rw [takeTurn, if_pos h]

theorem busy_of_engine {s : State} {w : Word} (h : turn s = .engine w) : s.busy = true := by
  rw [State.busy, ((turn_eq_engine_iff s w).1 h).1]
  rfl

theorem step_of_engine {s : State} {w : Word} (h : turn s = .engine w) :
    step s = engineStep w { s with draw := s.draw + 1, sched := s.sched.tail } := by
  rw [← takeTurn_of_busy (busy_of_engine h), step, h]

theorem engineStep_of_command {w : Word} {i : Instr} (h : decode w = .command i) (s : State) :
    engineStep w s = exec i s := by
  rw [engineStep, h]

theorem engineStep_of_illegal {w : Word} (h : 9 < w.toNat) (s : State) :
    engineStep w s = .next (illegalCommand w s) := by
  rw [engineStep]
  obtain ⟨i, -, hle, -⟩ | ⟨-, -, hd⟩ | ⟨-, hd⟩ := decode_cases w
  · omega
  · rw [hd]
  · rw [hd]

/-! ## A step with an input -/

theorem step_of_input {s : State} {i : Input} {rest : List Input} (h : turn s = .input i rest) :
    step s = inputStep i rest (takeTurn s) := by
  rw [step, h]

/-- A write in each of its forms is the port's write, whether the block is busy or not. -/
theorem hostStep_of_write {o : HostOp} {a : Addr} {v : Word} (ho : o.isWriteOf a v) (rest : List Input) (s : State) :
    hostStep o rest s = .next (portWrite { s with inputs := rest } a v) := by
  obtain rfl | ⟨i, rfl, rfl, rfl⟩ | rfl := ho
  · rfl
  · rfl
  · simp only [hostStep, wrapperAccepts_word, wrapperAddr_word, if_true]

/-- A read in each of its forms is recorded, whether the block is busy or not. -/
theorem hostStep_of_read {o : HostOp} {a : Addr} {claim : Option Word} (ho : o.isReadOf a claim) (rest : List Input)
    (s : State) : hostStep o rest s = .next (recordRead { s with inputs := rest } a claim) := by
  obtain ⟨rfl, rfl⟩ | ⟨v, rfl, rfl⟩ | ⟨rfl, rfl⟩ := ho
  · rfl
  · rfl
  · simp only [hostStep, wrapperAccepts_word, wrapperAddr_word, if_true]

/-- An accepted wrapper access is at byte address 4 × its word address (20_memory.md R62). -/
theorem wrapper_word {b n : Nat} (h : wrapperAccepts b n = true) : b = 4 * (wrapperAddr b).toNat ∧ n = 4 := by
  simp only [wrapperAccepts, Bool.and_eq_true, beq_iff_eq, decide_eq_true_iff] at h
  obtain ⟨⟨hn, hmod⟩, hlt⟩ := h
  rw [wrapperAddr, BitVec.toNat_ofNat, Nat.mod_eq_of_lt hlt]
  omega

/-- An accepted host operation is a write, a read, or WAIT (30_encoding.md R99). -/
theorem hostOp_forms {o : HostOp} (h : (Input.op o).accepted = true) :
    (o.isWrite = true ∧ ∃ a v, o.isWriteOf a v) ∨ (o.isWrite = false ∧ ∃ a claim, o.isReadOf a claim) ∨ o = .wait := by
  cases o with
  | wr a v => exact .inl ⟨rfl, a, v, .inl rfl⟩
  | cmd i => exact .inl ⟨rfl, _, _, .inr (.inl ⟨i, rfl, rfl, rfl⟩)⟩
  | rd a => exact .inr (.inl ⟨rfl, a, none, .inl ⟨rfl, rfl⟩⟩)
  | expect a v => exact .inr (.inl ⟨rfl, a, some v, .inr (.inl ⟨v, rfl, rfl⟩)⟩)
  | wait => exact .inr (.inr rfl)
  | busRd b n =>
    obtain ⟨hb, rfl⟩ := wrapper_word h
    exact .inr (.inl ⟨rfl, wrapperAddr b, none, .inr (.inr ⟨congrArg (HostOp.busRd · 4) hb, rfl⟩)⟩)
  | busWr b n v =>
    obtain ⟨hb, rfl⟩ := wrapper_word h
    exact .inl ⟨rfl, wrapperAddr b, v, .inr (.inr (congrArg (HostOp.busWr · 4 v) hb))⟩

theorem hostStep_of_no_access {b n : Nat} (h : noWordAccess b n) (rest : List Input) (s : State) :
    hostStep (.busRd b n) rest s = .refused .wrapperAccess ∧
    ∀ v, hostStep (.busWr b n v) rest s = .refused .wrapperAccess := by
  simp [hostStep, wrapperAccepts_eq_false h]

/-- The step refuses nothing but the accesses that the port does not have (20_memory.md R65). -/
theorem accepted_of_hostStep {o : HostOp} {rest : List Input} {s t : State} (h : hostStep o rest s = .next t) :
    (Input.op o).accepted = true := by
  cases o with
  | busRd b n =>
    by_contra hno
    simp [hostStep, show wrapperAccepts b n = false from Bool.eq_false_of_not_eq_true hno] at h
  | busWr b n v =>
    by_contra hno
    simp [hostStep, show wrapperAccepts b n = false from Bool.eq_false_of_not_eq_true hno] at h
  | _ => rfl

/-- WAIT changes the inputs at most. -/
theorem hostStep_wait (rest : List Input) (s : State) :
    hostStep .wait rest s = .next s ∨ hostStep .wait rest s = .next { s with inputs := rest } := by
  rw [hostStep]
  split
  · exact .inl rfl
  · exact .inr rfl

/-! ## The ways of a step, with whose turn it was -/

/-- A step is a command's ending, an illegal word's, a host write, the RESET event, or changes only what is the outside
world's and the model's own. -/
theorem step_ways {s t : State} (h : step s = .next t) :
    (∃ i, turn s = .engine (encode i) ∧ exec i (takeTurn s) = .next t) ∨
    (∃ w, turn s = .engine w ∧ t = raiseError .nothing .illegalCommand w (takeTurn s)) ∨
    (∃ o rest, turn s = .input (.op o) rest ∧ o.isWrite = true ∧
      ∃ a v, t = portWrite { takeTurn s with inputs := rest } a v) ∨
    (∃ rest, turn s = .input .reset rest ∧ t = resetEvent { takeTurn s with inputs := rest }) ∨
    t = { s with inputs := t.inputs, sched := t.sched, log := t.log, draw := t.draw } := by
  obtain ⟨w, hturn, hw⟩ | ⟨i, rest, hturn, hi⟩ | ⟨-, rfl⟩ := step_cases h
  · obtain ⟨i, hd, hexec⟩ | ⟨why, -, rfl⟩ := engineStep_cases hw
    · exact .inl ⟨i, (decode_eq_command_iff w i).1 hd ▸ hturn, hexec⟩
    · exact .inr (.inl ⟨w, hturn, rfl⟩)
  · cases i with
    | reset =>
      cases hi
      exact .inr (.inr (.inr (.inl ⟨rest, hturn, rfl⟩)))
    | op o =>
      replace hi : hostStep o rest (takeTurn s) = .next t := hi
      obtain ⟨hwrite, a, v, ho⟩ | ⟨-, a, claim, ho⟩ | rfl := hostOp_forms (accepted_of_hostStep hi)
      · rw [hostStep_of_write ho] at hi
        cases hi
        exact .inr (.inr (.inl ⟨o, rest, hturn, hwrite, a, v, rfl⟩))
      · rw [hostStep_of_read ho] at hi
        cases hi
        exact .inr (.inr (.inr (.inr rfl)))
      · obtain hwait | hwait := hostStep_wait rest (takeTurn s) <;> rw [hwait] at hi <;> cases hi
        · exact .inr (.inr (.inr (.inr rfl)))
        · exact .inr (.inr (.inr (.inr rfl)))
  · exact .inr (.inr (.inr (.inr rfl)))

/-- A field `f` of the block that a step has changed: by one of the commands `is` that may write it, by a host write,
or by the RESET event. -/
theorem step_changes {α : Type} {f : State → α} {is : List Instr}
    (hexec : ∀ {i s t}, exec i s = .next t → i ∉ is → f t = f s)
    (hillegal : ∀ w s, f (raiseError .nothing .illegalCommand w s) = f s)
    (hworld : ∀ s inputs sched log draw,
      f { s with inputs := inputs, sched := sched, log := log, draw := draw } = f s)
    {s t : State} (h : step s = .next t) (hne : f t ≠ f s) :
    (∃ i, i ∈ is ∧ turn s = .engine (encode i) ∧ exec i (takeTurn s) = .next t) ∨
    (∃ o rest, turn s = .input (.op o) rest ∧ o.isWrite = true ∧
      ∃ a v, t = portWrite { takeTurn s with inputs := rest } a v) ∨
    (∃ rest, turn s = .input .reset rest ∧ t = resetEvent { takeTurn s with inputs := rest }) := by
  have hturn : f (takeTurn s) = f s := hworld s ..
  obtain ⟨i, hi, hcommand⟩ | ⟨w, -, rfl⟩ | hwrite | hreset | hsame := step_ways h
  · by_cases his : i ∈ is
    · exact .inl ⟨i, his, hi, hcommand⟩
    · exact absurd ((hexec hcommand his).trans hturn) hne
  · exact absurd ((hillegal _ _).trans hturn) hne
  · exact .inr (.inl hwrite)
  · exact .inr (.inr hreset)
  · exact absurd (hsame ▸ hworld s ..) hne

/-- A field that host writes and the RESET event may change, as 70_reset_and_hazards.md R252 names the ways. -/
theorem step_changes_table {α : Type} {f : State → α} {is : List Instr}
    (hexec : ∀ {i s t}, exec i s = .next t → i ∉ is → f t = f s)
    (hillegal : ∀ w s, f (raiseError .nothing .illegalCommand w s) = f s)
    (hworld : ∀ s inputs sched log draw,
      f { s with inputs := inputs, sched := sched, log := log, draw := draw } = f s)
    {s t : State} (h : step s = .next t) (hne : f t ≠ f s) :
    (∃ i, i ∈ is ∧ turn s = .engine (encode i)) ∨ ∃ x rest, turn s = .input x rest ∧ x.changesState = true := by
  obtain ⟨i, his, hi, -⟩ | ⟨o, rest, ho, hwrite, -⟩ | ⟨rest, hreset, -⟩ := step_changes hexec hillegal hworld h hne
  · exact .inl ⟨i, his, hi⟩
  · exact .inr ⟨_, rest, ho, hwrite⟩
  · exact .inr ⟨_, rest, hreset, rfl⟩

/-- CLRF and SRST clear OVR (45_system.md R187, R188). -/
theorem exec_ovr {i : Instr} {s t : State} (h : exec i s = .next t) (hi : i ∈ [.clrf, .srst]) : t.ovr = false := by
  obtain hok | ⟨e, he, -⟩ := exec_cases h
  · obtain ⟨-, -, hovr⟩ | ⟨hno, -⟩ := hok.flags
    · exact hovr
    · exact absurd hi hno
  · have hnone : errorsOf i = [] := by
      obtain rfl | rfl : i = .clrf ∨ i = .srst := by simpa using hi
      · rfl
      · rfl
    rw [hnone] at he
    cases he

end Sys2Proof.Machine

namespace Sys2Proof
open Machine

/-- Settles O50: an ending with success writes what the command may write, and an error empties only that. -/
theorem eachCommandKeepsWhatItDoesNotWrite : Obligations.EachCommandKeepsWhatItDoesNotWrite := by
  intro i s t h
  have k := exec_keepsUnwritten h
  obtain ⟨hinputs, hsched, hlog, hdraw⟩ := k.world
  refine ⟨exec_running h, k.capacities.1, k.capacities.2, hinputs, hsched, hlog, hdraw, k.symLen, k.bitLen, k.node,
    k.freq, k.codelen, k.codebits, k.symbuf, k.bitbuf, k.ovr, fun hi hfault => ?_⟩
  obtain hok | ⟨e, -, info, rfl⟩ := exec_cases h
  · obtain ⟨hclear, -⟩ | ⟨-, -, herr⟩ := hok.flags
    · exact absurd hclear hi
    · exact herr
  · simp at hfault

/-- Settles O49: FAULT goes from 0 to 1 only by the error ending (`exec_cases`). -/
theorem anErrorEmptiesTheOutputAndNothingElse : Obligations.AnErrorEmptiesTheOutputAndNothingElse := by
  intro i s t hs h ht
  obtain hok | ⟨e, he, info, rfl⟩ := exec_cases h
  · obtain ⟨-, hclear, -⟩ | ⟨-, hsame, -⟩ := hok.flags
    · simp [ht] at hclear
    · simp [ht, hs] at hsame
  · exact ⟨e, he, info, raiseError_eq ..⟩

/-- Settles O51: exec answers a next state whatever the command, and every ending clears BUSY. -/
theorem everyCommandEnds : Obligations.EveryCommandEnds := fun i s => by
  obtain ⟨t, h⟩ := exists_exec_eq_next i s
  exact ⟨t, h, by rw [State.busy, exec_running h]; rfl⟩

/-- Settles O52: a step that changes OVR is CLRF or SRST, which clear it, a host write, which sets it while BUSY is 1
and leaves it else, or the RESET event. -/
theorem ovrRecordsABrokenProtocol : Obligations.OvrRecordsABrokenProtocol := by
  intro s t h
  have hways := step_changes (f := State.ovr) (is := [.clrf, .srst]) (fun hexec => (exec_keepsUnwritten hexec).ovr)
    (fun w s => raiseError_ovr ..) (fun _ _ _ _ _ => rfl) h
  refine ⟨fun hs ht => ?set, fun hs ht => ?cleared⟩
  case set =>
    obtain ⟨i, his, -, hexec⟩ | ⟨o, rest, hturn, hwrite, a, v, rfl⟩ | ⟨rest, -, rfl⟩ := hways (by simp [hs, ht])
    · simp [exec_ovr hexec his] at ht
    · have hovr : _ = (s.busy || s.ovr) := portWrite_ovr { takeTurn s with inputs := rest } a v
      rw [hs, Bool.or_false] at hovr
      exact ⟨hovr.symm.trans ht, o, rest, hturn, hwrite⟩
    · cases ht
  case cleared =>
    obtain ⟨i, his, hturn, -⟩ | ⟨o, rest, -, -, a, v, rfl⟩ | ⟨rest, hturn, -⟩ := hways (by simp [hs, ht])
    · obtain rfl | rfl : i = .clrf ∨ i = .srst := by simpa using his
      · exact .inl hturn
      · exact .inr (.inl hturn)
    · have hovr : _ = (s.busy || s.ovr) := portWrite_ovr { takeTurn s with inputs := rest } a v
      rw [hs, Bool.or_true] at hovr
      exact Bool.noConfusion (hovr.symm.trans ht)
    · exact .inr (.inr ⟨rest, hturn⟩)

/-- Settles O53: what a command does not write it leaves (`exec_keepsUnwritten`), and a host write leaves every node. -/
theorem nothingIsRebuiltAutomatically : Obligations.NothingIsRebuiltAutomatically := by
  intro s t h
  refine ⟨fun hnode => ?_,
    step_changes_table (f := State.freq) (fun hexec => (exec_keepsUnwritten hexec).freq) (fun _ _ => rfl)
      (fun _ _ _ _ _ => rfl) h,
    step_changes_table (f := State.codelen) (fun hexec => (exec_keepsUnwritten hexec).codelen) (fun _ _ => rfl)
      (fun _ _ _ _ _ => rfl) h,
    step_changes_table (f := State.codebits) (fun hexec => (exec_keepsUnwritten hexec).codebits) (fun _ _ => rfl)
      (fun _ _ _ _ _ => rfl) h⟩
  obtain ⟨i, his, hturn, -⟩ | ⟨o, rest, -, -, a, v, rfl⟩ | ⟨rest, hturn, -⟩ :=
    step_changes (f := State.node) (fun hexec => (exec_keepsUnwritten hexec).node) (fun _ _ => rfl)
      (fun _ _ _ _ _ => rfl) h hnode
  · exact .inl ⟨i, his, hturn⟩
  · exact absurd (portWrite_node ..) hnode
  · exact .inr ⟨rest, hturn⟩

/-- Settles O48: each of the three commands' endings, written out. -/
theorem systemCommandsDoTheirPseudocode : Obligations.SystemCommandsDoTheirPseudocode := fun _ => ⟨rfl, rfl, rfl⟩

/-- Settles O19: the check of the length register comes first, and the error ending is `raiseError_eq`. -/
theorem lengthOverCapacityEndsWithCapacity : Obligations.LengthOverCapacityEndsWithCapacity :=
  ⟨fun _ h => ⟨if_pos h, if_pos h, if_pos h⟩, fun _ h => ⟨if_pos h, if_pos h⟩⟩

/-- Settles O3, by `step_of_engine` and `turn_eq_engine_iff`. -/
theorem stepRunsTheDecodedCommand : Obligations.StepRunsTheDecodedCommand :=
  ⟨fun _ _ _ hturn hd _ => (step_of_engine hturn).trans (engineStep_of_command hd _),
    fun _ _ _ => (turn_eq_engine_iff ..).2 ⟨rfl, .inr (by simp)⟩, turn_eq_engine_iff⟩

/-- Settles O4: a word above 9 is illegal (`decode_cases`), and its error ending empties nothing. -/
theorem illegalWordEndsWithIllegalCommand : Obligations.IllegalWordEndsWithIllegalCommand := fun _ _ hturn hw =>
  (step_of_engine hturn).trans (engineStep_of_illegal hw _)

/-- Settles O54: the RESET event is the same whatever the block was doing. -/
theorem resetGivesTheResetState : Obligations.ResetGivesTheResetState := fun s rest hturn =>
  ⟨resetEvent { takeTurn s with inputs := rest }, step_of_input hturn, rfl, rfl, rfl, resetEvent_statusWord _, rfl,
    fun c => Vector.getElem_replicate c.isLt, fun c => Vector.getElem_replicate c.isLt, rfl, rfl, rfl, rfl, rfl, rfl⟩

end Sys2Proof
end

section
/-! SUPPORT. The host port: the address map row by row and the address of each location (20_memory.md R66), what each
location reads and that a write changes no other, and STATUS and the NODE window bit by bit. -/

namespace Sys2Proof.Machine

/-! ## The address map -/

theorem addr_toNat {n : Nat} (h : n < 2 ^ 18) : (BitVec.ofNat 18 n).toNat = n := by
  rw [BitVec.toNat_ofNat, Nat.mod_eq_of_lt h]

section
variable {s : State} {a : Addr}

theorem locOf_register (h : a.toNat < 0x00100) : s.locOf a = registerLoc a.toNat := if_pos h

theorem locOf_freq (c : Sym) (h : a.toNat = 0x00100 + c.toNat) : s.locOf a = .freq c := by
  have hc := c.isLt
  rw [State.locOf, locate, if_neg (by omega), if_pos (by omega), h]
  simp

theorem locOf_codelen (c : Sym) (h : a.toNat = 0x00200 + c.toNat) : s.locOf a = .codelen c := by
  have hc := c.isLt
  rw [State.locOf, locate, if_neg (by omega), if_neg (by omega), if_pos (by omega), h]
  simp

theorem locOf_codebits {x : Nat} (hx : x < 2048) (h : a.toNat = 0x00800 + x) : s.locOf a = .codebits x := by
  rw [State.locOf, locate, if_neg (by omega), if_neg (by omega), if_neg (by omega), if_neg (by omega),
    if_pos (by omega), h]
  simp

theorem locOf_node {k j : Nat} (hk : k < 512) (hj : j < 4) (h : a.toNat = 0x01000 + 4 * k + j) :
    s.locOf a = .node k j := by
  have hdiv : (a.toNat - 0x01000) / 4 = k := by omega
  have hmod : (a.toNat - 0x01000) % 4 = j := by omega
  rw [State.locOf, locate, if_neg (by omega), if_neg (by omega), if_neg (by omega), if_neg (by omega),
    if_neg (by omega), if_pos (by omega), hdiv, hmod]

/-- The two windows of addresses below 0x10000 that hold nothing. -/
theorem locOf_gap (h : 0x00300 ≤ a.toNat ∧ a.toNat ≤ 0x007FF ∨ 0x01800 ≤ a.toNat ∧ a.toNat ≤ 0x0FFFF) :
    s.locOf a = .unmapped := by
  rw [State.locOf, locate, if_neg (by omega), if_neg (by omega), if_neg (by omega)]
  obtain ⟨hlo, hhi⟩ | ⟨hlo, hhi⟩ := h
  · rw [if_pos (by omega)]
  · rw [if_neg (by omega), if_neg (by omega), if_neg (by omega), if_pos (by omega)]

theorem locOf_symbuf_window {i : Nat} (hi : i ≤ 0xFFFF) (h : a.toNat = 0x10000 + i) :
    s.locOf a = if i < s.symcap.toNat then .symbuf i else .unmapped := by
  rw [State.locOf, locate, if_neg (by omega), if_neg (by omega), if_neg (by omega), if_neg (by omega),
    if_neg (by omega), if_neg (by omega), if_neg (by omega), if_pos (by omega), h, Nat.add_sub_cancel_left]

theorem locOf_bitbuf_window {q : Nat} (hq : q ≤ 0xFFFF) (h : a.toNat = 0x20000 + q) :
    s.locOf a = if q < s.bitcap.toNat / 32 then .bitbuf q else .unmapped := by
  rw [State.locOf, locate, if_neg (by omega), if_neg (by omega), if_neg (by omega), if_neg (by omega),
    if_neg (by omega), if_neg (by omega), if_neg (by omega), if_neg (by omega), if_pos (by omega), h,
    Nat.add_sub_cancel_left]

theorem locOf_above (h : 0x30000 ≤ a.toNat) : s.locOf a = .unmapped := by
  rw [State.locOf, locate, if_neg (by omega), if_neg (by omega), if_neg (by omega), if_neg (by omega),
    if_neg (by omega), if_neg (by omega), if_neg (by omega), if_neg (by omega), if_neg (by omega)]

theorem registerLoc_of_ge {n : Nat} (h : 8 ≤ n) : registerLoc n = .unmapped := by
  unfold registerLoc
  split
  case h_9 => rfl
  all_goals omega

end

section
variable (s : State)

theorem locOf_addrFreq (c : Sym) : s.locOf (BitVec.ofNat 18 (0x00100 + c.toNat)) = .freq c :=
  locOf_freq c (addr_toNat (by have := c.isLt; omega))

theorem locOf_addrCodelen (c : Sym) : s.locOf (BitVec.ofNat 18 (0x00200 + c.toNat)) = .codelen c :=
  locOf_codelen c (addr_toNat (by have := c.isLt; omega))

theorem locOf_addrCodebits (c : Sym) {w : Nat} (hw : w < 8) :
    s.locOf (BitVec.ofNat 18 (0x00800 + 8 * c.toNat + w)) = .codebits (8 * c.toNat + w) := by
  have hc := c.isLt
  exact locOf_codebits (by omega) ((addr_toNat (by omega)).trans (Nat.add_assoc ..))

theorem locOf_addrNode {k j : Nat} (hk : k < 512) (hj : j < 4) : s.locOf (addrNode k j) = .node k j :=
  locOf_node hk hj (addr_toNat (by omega))

theorem locOf_addrSymbuf {i : Nat} (hi : i < s.symcap.toNat) (hwindow : i ≤ 0xFFFF) :
    s.locOf (BitVec.ofNat 18 (0x10000 + i)) = .symbuf i := by
  rw [locOf_symbuf_window hwindow (addr_toNat (by omega)), if_pos hi]

theorem locOf_addrBitbuf {q : Nat} (hq : q < s.bitcap.toNat / 32) (hwindow : q ≤ 0xFFFF) :
    s.locOf (BitVec.ofNat 18 (0x20000 + q)) = .bitbuf q := by
  rw [locOf_bitbuf_window hwindow (addr_toNat (by omega)), if_pos hq]

end

/-- The capacities in their ranges keep SYMBUF and BITBUF inside their windows (00_scope.md R9). -/
theorem State.paramsOk.windows {s : State} (h : s.paramsOk) :
    s.symcap.toNat ≤ 65536 ∧ s.bitcap.toNat / 32 ≤ 65536 := by
  simp only [State.paramsOk, Params.wellFormed, Bool.and_eq_true, decide_eq_true_iff, beq_iff_eq] at h
  omega

/-- The word address of a location (20_memory.md R66). An unmapped address is no location's; 0 stands in. -/
def Loc.address : Loc → Nat
  | .cmd => 0x00000
  | .status => 0x00001
  | .errinfo => 0x00002
  | .symLen => 0x00003
  | .bitLen => 0x00004
  | .nnodes => 0x00005
  | .symcap => 0x00006
  | .bitcap => 0x00007
  | .freq c => 0x00100 + c.toNat
  | .codelen c => 0x00200 + c.toNat
  | .codebits a => 0x00800 + a
  | .node k j => 0x01000 + 4 * k + j
  | .symbuf i => 0x10000 + i
  | .bitbuf q => 0x20000 + q
  | .unmapped => 0

theorem registerLoc_address {n : Nat} (h : registerLoc n ≠ .unmapped) : (registerLoc n).address = n := by
  unfold registerLoc at h ⊢
  split
  case h_9 => simp at h
  all_goals rfl

/-- The location that an address names has that address. -/
theorem locOf_address {s : State} {a : Addr} (h : s.locOf a ≠ .unmapped) : (s.locOf a).address = a.toNat := by
  obtain h1 | h1 := Nat.lt_or_ge a.toNat 0x00100
  · rw [locOf_register h1] at h ⊢
    exact registerLoc_address h
  obtain h2 | h2 := Nat.lt_or_ge a.toNat 0x00200
  · have hc : (BitVec.ofNat 8 (a.toNat - 0x00100)).toNat = a.toNat - 0x00100 := by rw [BitVec.toNat_ofNat]; omega
    rw [locOf_freq (BitVec.ofNat 8 (a.toNat - 0x00100)) (by omega), Loc.address]
    omega
  obtain h3 | h3 := Nat.lt_or_ge a.toNat 0x00300
  · have hc : (BitVec.ofNat 8 (a.toNat - 0x00200)).toNat = a.toNat - 0x00200 := by rw [BitVec.toNat_ofNat]; omega
    rw [locOf_codelen (BitVec.ofNat 8 (a.toNat - 0x00200)) (by omega), Loc.address]
    omega
  obtain h4 | h4 := Nat.lt_or_ge a.toNat 0x00800
  · exact absurd (locOf_gap (.inl ⟨h3, by omega⟩)) h
  obtain h5 | h5 := Nat.lt_or_ge a.toNat 0x01000
  · rw [locOf_codebits (x := a.toNat - 0x00800) (by omega) (by omega), Loc.address]
    omega
  obtain h6 | h6 := Nat.lt_or_ge a.toNat 0x01800
  · rw [locOf_node (k := (a.toNat - 0x01000) / 4) (j := (a.toNat - 0x01000) % 4) (by omega) (by omega) (by omega),
      Loc.address]
    omega
  obtain h7 | h7 := Nat.lt_or_ge a.toNat 0x10000
  · exact absurd (locOf_gap (.inr ⟨h6, by omega⟩)) h
  obtain h8 | h8 := Nat.lt_or_ge a.toNat 0x20000
  · rw [locOf_symbuf_window (i := a.toNat - 0x10000) (by omega) (by omega)] at h ⊢
    split at h
    case isTrue hi => rw [if_pos hi, Loc.address]; omega
    case isFalse => simp at h
  obtain h9 | h9 := Nat.lt_or_ge a.toNat 0x30000
  · rw [locOf_bitbuf_window (q := a.toNat - 0x20000) (by omega) (by omega)] at h ⊢
    split at h
    case isTrue hq => rw [if_pos hq, Loc.address]; omega
    case isFalse => simp at h
  · exact absurd (locOf_above h9) h

/-- Two addresses of one location are the same. -/
theorem eq_of_locOf_eq {s : State} {a b : Addr} (h : s.locOf a = s.locOf b) (ha : s.locOf a ≠ .unmapped) : a = b :=
  BitVec.eq_of_toNat_eq (by rw [← locOf_address ha, h, locOf_address (h ▸ ha)])

theorem locOf_ne_cmd {s : State} {a : Addr} (h : a ≠ addrCmd) : s.locOf a ≠ .cmd := fun hcmd =>
  h (BitVec.eq_of_toNat_eq ((locOf_address (by simp [hcmd])).symm.trans (congrArg Loc.address hcmd)))

/-! ## Reads and writes of the idle block -/

theorem portRead_of_idle {s : State} (h : s.busy = false) (a : Addr) : portRead s a = readLoc s (s.locOf a) := by
  simp [portRead, h]

theorem portWrite_of_idle {s : State} (h : s.busy = false) (a : Addr) (v : Word) :
    portWrite s a v = writeLoc s v (s.locOf a) := by
  simp [portWrite, h]

/-- A write leaves the address map: it changes no capacity. -/
theorem locOf_portWrite (s : State) (a b : Addr) (v : Word) : (portWrite s a v).locOf b = s.locOf b := by
  simp [State.locOf]

theorem writeLoc_busy (s : State) (v : Word) {l : Loc} (h : l ≠ .cmd) : (writeLoc s v l).busy = s.busy := by
  cases l with
  | cmd => exact absurd rfl h
  | _ => rfl

/-- A write of one location changes what no other reads (20_memory.md R64). -/
theorem readLoc_writeLoc_other (s : State) (v : Word) {l m : Loc} (hcmd : l ≠ .cmd) (h : l ≠ m) :
    readLoc (writeLoc s v l) m = readLoc s m := by
  cases l with
  | cmd => exact absurd rfl hcmd
  | symLen => cases m with
    | symLen => exact absurd rfl h
    | _ => rfl
  | bitLen => cases m with
    | bitLen => exact absurd rfl h
    | _ => rfl
  | freq c => cases m with
    | freq d =>
      have hne : c.toNat ≠ d.toNat := fun he => h (congrArg Loc.freq (BitVec.eq_of_toNat_eq he))
      exact Vector.getElem_set_ne c.isLt d.isLt hne
    | _ => rfl
  | codelen c => cases m with
    | codelen d =>
      have hne : c.toNat ≠ d.toNat := fun he => h (congrArg Loc.codelen (BitVec.eq_of_toNat_eq he))
      exact congrArg (BitVec.setWidth 32) (Vector.getElem_set_ne c.isLt d.isLt hne)
    | _ => rfl
  | codebits x => cases m with
    | codebits y =>
      have hne : x ≠ y := fun he => h (congrArg Loc.codebits he)
      exact congrArg (Option.getD · _) (Memory.read_write_other s.codebits v hne)
    | _ => rfl
  | symbuf i => cases m with
    | symbuf j =>
      have hne : i ≠ j := fun he => h (congrArg Loc.symbuf he)
      exact congrArg (fun x => BitVec.setWidth 32 (Option.getD x _)) (Memory.read_write_other s.symbuf _ hne)
    | _ => rfl
  | bitbuf q => cases m with
    | bitbuf r =>
      have hne : q ≠ r := fun he => h (congrArg Loc.bitbuf he)
      exact congrArg (Option.getD · _) (Memory.read_write_other s.bitbuf v hne)
    | _ => rfl
  | _ => rfl

/-- What a location reads after a write to it: the bits it has; a read-only location reads as before
(20_memory.md R64). -/
def writtenValue (s : State) (v : Word) : Loc → Word
  | .cmd => 0
  | .symLen => v
  | .bitLen => v
  | .freq _ => v
  | .codebits _ => v
  | .bitbuf _ => v
  | .codelen _ => (v.setWidth 8).setWidth 32
  | .symbuf _ => (v.setWidth 8).setWidth 32
  | l => readLoc s l

theorem readLoc_writeLoc_same (s : State) (v : Word) {l : Loc} (hcmd : l ≠ .cmd) :
    readLoc (writeLoc s v l) l = writtenValue s v l := by
  cases l with
  | cmd => exact absurd rfl hcmd
  | freq c => exact Vector.getElem_set_self c.isLt
  | codelen c => exact congrArg (BitVec.setWidth 32) (Vector.getElem_set_self c.isLt)
  | codebits x => exact congrArg (Option.getD · _) (Memory.read_write_same s.codebits x v)
  | symbuf i =>
    exact congrArg (fun x => BitVec.setWidth 32 (Option.getD x _)) (Memory.read_write_same s.symbuf i (v.setWidth 8))
  | bitbuf q => exact congrArg (Option.getD · _) (Memory.read_write_same s.bitbuf q v)
  | _ => rfl

/-- A read of the idle block after a write, of the same address or another. -/
theorem portRead_portWrite {s : State} (hidle : s.busy = false) {a : Addr} (ha : a ≠ addrCmd) (b : Addr) (v : Word) :
    portRead (portWrite s a v) b = if a = b then writtenValue s v (s.locOf a) else portRead s b := by
  have hcmd := locOf_ne_cmd (s := s) ha
  have hwrite := portWrite_of_idle hidle a v
  have hbusy : (portWrite s a v).busy = false := by rw [hwrite, writeLoc_busy s v hcmd, hidle]
  rw [portRead_of_idle hbusy, locOf_portWrite, hwrite]
  split
  case isTrue hab => rw [← hab, readLoc_writeLoc_same s v hcmd]
  case isFalse hab =>
    rw [portRead_of_idle hidle]
    by_cases hmapped : s.locOf a = .unmapped
    · rw [hmapped, writeLoc]
    · exact readLoc_writeLoc_other s v hcmd fun he => hab (eq_of_locOf_eq he hmapped)

/-! ## STATUS -/

/-- A read of STATUS is exact, busy or not (70_reset_and_hazards.md R250). -/
theorem portRead_status (s : State) : portRead s addrStatus = s.statusWord := by
  have hloc : s.locOf addrStatus = .status := locOf_register (by decide)
  rw [portRead, hloc]
  simp [readLoc]

/-- The layout of STATUS (10_state.md R27, R32). -/
theorem statusWord_fields (s : State) :
    s.statusWord.getLsbD 0 = s.busy ∧ s.statusWord.getLsbD 1 = s.fault ∧ s.statusWord.getLsbD 2 = s.ovr ∧
      s.statusWord.getLsbD 3 = false ∧ s.statusWord.extractLsb' 4 4 = s.err ∧ s.statusWord.extractLsb' 8 24 = 0 := by
  refine ⟨?busy, ?fault, ?ovr, ?reserved, ?err, ?zero⟩
  case busy =>
    change BitVec.getLsbD (w := 24 + 4 + 1 + 1 + 1 + 1) (_ ++ _ ++ _ ++ _ ++ _ ++ _) 0 = _
    simp only [BitVec.getLsbD_append]
    simp
  case fault =>
    change BitVec.getLsbD (w := 24 + 4 + 1 + 1 + 1 + 1) (_ ++ _ ++ _ ++ _ ++ _ ++ _) 1 = _
    simp only [BitVec.getLsbD_append]
    simp
  case ovr =>
    change BitVec.getLsbD (w := 24 + 4 + 1 + 1 + 1 + 1) (_ ++ _ ++ _ ++ _ ++ _ ++ _) 2 = _
    simp only [BitVec.getLsbD_append]
    simp
  case reserved =>
    change BitVec.getLsbD (w := 24 + 4 + 1 + 1 + 1 + 1) (_ ++ _ ++ _ ++ _ ++ _ ++ _) 3 = _
    simp only [BitVec.getLsbD_append]
    simp
  case err =>
    change BitVec.extractLsb' (n := 24 + 4 + 1 + 1 + 1 + 1) 4 4 (_ ++ _ ++ _ ++ _ ++ _) = _
    rw [BitVec.extractLsb'_append_eq_of_le (by decide), BitVec.extractLsb'_append_eq_of_le (by decide),
      BitVec.extractLsb'_append_eq_of_le (by decide), BitVec.extractLsb'_append_eq_of_le (by decide),
      BitVec.extractLsb'_append_eq_right]
  case zero =>
    change BitVec.extractLsb' (n := 24 + 4 + 1 + 1 + 1 + 1) 8 24 (_ ++ _ ++ _ ++ _ ++ _ ++ _) = _
    rw [BitVec.extractLsb'_append_eq_of_le (by decide), BitVec.extractLsb'_append_eq_of_le (by decide),
      BitVec.extractLsb'_append_eq_of_le (by decide), BitVec.extractLsb'_append_eq_of_le (by decide),
      BitVec.extractLsb'_append_eq_left]

/-! ## The NODE window -/

/-- Word 0 of an existing node, field by field (20_memory.md R68). -/
theorem nodeWord_zero_fields {ns : List Node} {k : Nat} (hk : k < ns.length) :
    (nodeWord ns k 0).getLsbD 31 = (nodeAt ns k).kind ∧ (nodeWord ns k 0).extractLsb' 27 4 = 0 ∧
      (nodeWord ns k 0).extractLsb' 18 9 = (nodeAt ns k).left ∧
      (nodeWord ns k 0).extractLsb' 9 9 = (nodeAt ns k).right ∧ (nodeWord ns k 0).getLsbD 8 = false ∧
      (nodeWord ns k 0).extractLsb' 0 8 = (nodeAt ns k).sym := by
  rw [nodeWord, if_pos hk]
  dsimp only
  generalize (nodeAt ns k).kind = kind, (nodeAt ns k).left = left, (nodeAt ns k).right = right,
    (nodeAt ns k).sym = sym
  refine ⟨?kind, ?zero, ?left, ?right, ?reserved, ?sym⟩
  case kind =>
    change BitVec.getLsbD (w := 1 + 4 + 9 + 9 + 1 + 8) (_ ++ _ ++ _ ++ _ ++ _ ++ _) 31 = _
    simp only [BitVec.getLsbD_append]
    simp
  case zero =>
    change BitVec.extractLsb' (n := 1 + 4 + 9 + 9 + 1 + 8) 27 4 (_ ++ _ ++ _ ++ _ ++ _) = _
    rw [BitVec.extractLsb'_append_eq_of_le (by decide), BitVec.extractLsb'_append_eq_of_le (by decide),
      BitVec.extractLsb'_append_eq_of_le (by decide), BitVec.extractLsb'_append_eq_of_le (by decide),
      BitVec.extractLsb'_append_eq_right]
  case left =>
    change BitVec.extractLsb' (n := 1 + 4 + 9 + 9 + 1 + 8) 18 9 (_ ++ _ ++ _ ++ _) = _
    rw [BitVec.extractLsb'_append_eq_of_le (by decide), BitVec.extractLsb'_append_eq_of_le (by decide),
      BitVec.extractLsb'_append_eq_of_le (by decide), BitVec.extractLsb'_append_eq_right]
  case right =>
    change BitVec.extractLsb' (n := 1 + 4 + 9 + 9 + 1 + 8) 9 9 (_ ++ _ ++ _) = _
    rw [BitVec.extractLsb'_append_eq_of_le (by decide), BitVec.extractLsb'_append_eq_of_le (by decide),
      BitVec.extractLsb'_append_eq_right]
  case reserved =>
    change BitVec.getLsbD (w := 1 + 4 + 9 + 9 + 1 + 8) (_ ++ _ ++ _ ++ _ ++ _ ++ _) 8 = _
    simp only [BitVec.getLsbD_append]
    simp
  case sym =>
    change BitVec.extractLsb' (n := 1 + 4 + 9 + 9 + 1 + 8) 0 8 (_ ++ _) = _
    rw [BitVec.extractLsb'_append_eq_right]

/-- Words 1 and 2 of an existing node are the low 32 and the high 8 bits of its WEIGHT (20_memory.md R68). -/
theorem nodeWord_weight {ns : List Node} {k : Nat} (hk : k < ns.length) :
    (nodeWord ns k 1).toNat + 2 ^ 32 * (nodeWord ns k 2).toNat = (nodeAt ns k).weight.toNat := by
  have hlt := (nodeAt ns k).weight.isLt
  simp only [nodeWord, if_pos hk, BitVec.extractLsb'_toNat, BitVec.toNat_setWidth, Nat.shiftRight_eq_div_pow]
  omega

theorem nodeWord_three (ns : List Node) (k : Nat) : nodeWord ns k 3 = 0 := by
  rw [nodeWord]
  split <;> rfl

theorem nodeWord_of_absent {ns : List Node} {k : Nat} (hk : ns.length ≤ k) (j : Nat) : nodeWord ns k j = 0 :=
  if_neg (Nat.not_lt.2 hk)

theorem portRead_addrNode {s : State} (hidle : s.busy = false) {k j : Nat} (hk : k < 512) (hj : j < 4) :
    portRead s (addrNode k j) = nodeWord s.node k j := by
  rw [portRead_of_idle hidle, locOf_addrNode s hk hj, readLoc]

/-! ## Bits in their words -/

/-- The word of BITBUF that holds a position below BIT_CAP, as the host reads it (20_memory.md R70). -/
theorem portRead_addrBitbuf {s : State} (hidle : s.busy = false) {q : Nat} (hq : q < s.bitcap.toNat / 32)
    (hwindow : q ≤ 0xFFFF) : portRead s (BitVec.ofNat 18 (0x20000 + q)) = s.bitWord q := by
  rw [portRead_of_idle hidle, locOf_addrBitbuf s hq hwindow, readLoc]

theorem portRead_addrSymbuf {s : State} (hidle : s.busy = false) {i : Nat} (hi : i < s.symcap.toNat)
    (hwindow : i ≤ 0xFFFF) : portRead s (BitVec.ofNat 18 (0x10000 + i)) = (s.symAt i).setWidth 32 := by
  rw [portRead_of_idle hidle, locOf_addrSymbuf s hi hwindow, readLoc]

theorem portRead_addrCodebits {s : State} (hidle : s.busy = false) (c : Sym) {w : Nat} (hw : w < 8) :
    portRead s (BitVec.ofNat 18 (0x00800 + 8 * c.toNat + w)) = s.codeWord 0 (8 * c.toNat + w) := by
  rw [portRead_of_idle hidle, locOf_addrCodebits s c hw, readLoc]

/-- Position `j` of a packed word is bit 31 − j (20_memory.md R70, R71). -/
theorem wordBit_eq_getLsbD (w : Word) (j : Nat) (hj : j < 32) : wordBit w j = w.getLsbD (31 - j) := by
  simp [wordBit, BitVec.getMsbD_eq_getLsbD, hj]

/-- A written word reads the same at every time. -/
theorem codeWord_of_written {s : State} {a : Nat} (h : (s.codebits.read a).isSome = true) (time : Nat) :
    s.codeWord time a = s.codeWord 0 a := by
  obtain ⟨x, hx⟩ := Option.isSome_iff_exists.1 h
  rw [State.codeWord, State.codeWord, hx, Option.getD_some, Option.getD_some]

end Sys2Proof.Machine

namespace Sys2Proof
open Machine

/-- Settles O9, by the lemmas `locOf_...`, one for each window. -/
theorem addressMapIsTheTable : Obligations.AddressMapIsTheTable := by
  intro s hparams
  obtain ⟨hsym, hbit⟩ := hparams.windows
  refine ⟨rfl, rfl, rfl, rfl, rfl, rfl, rfl, rfl, fun a hlo hhi => ?above, locOf_addrFreq s, locOf_addrCodelen s,
    fun a hlo hhi => locOf_gap (.inl ⟨hlo, hhi⟩), fun c w => locOf_addrCodebits s c,
    fun k j => locOf_addrNode s, fun a hlo hhi => locOf_gap (.inr ⟨hlo, hhi⟩),
    fun i hi => locOf_addrSymbuf s hi (by omega), fun i hi hwindow => ?symbuf,
    fun q hq => locOf_addrBitbuf s hq (by omega), fun q hq hwindow => ?bitbuf, fun a => locOf_above⟩
  case above => rw [locOf_register (by omega), registerLoc_of_ge hlo]
  case symbuf => rw [locOf_symbuf_window hwindow (addr_toNat (by omega)), if_neg (by omega)]
  case bitbuf => rw [locOf_bitbuf_window hwindow (addr_toNat (by omega)), if_neg (by omega)]

/-- Settles O10, by `portRead_status` and `statusWord_fields`. -/
theorem statusReadsItsFields : Obligations.StatusReadsItsFields := fun s => by
  rw [portRead_status]
  exact statusWord_fields s

/-- Settles O11: a read is recorded and does nothing else, and each location reads its field. -/
theorem hostReadChangesNoState : Obligations.HostReadChangesNoState := by
  refine ⟨fun s o a claim rest hr ho hi => ⟨_, step_of_idle_read hr ho hi, rfl⟩, fun s b n rest hno hturn => ?refused,
    fun s hidle => ?values⟩
  case refused => exact (step_of_input hturn).trans (hostStep_of_no_access hno ..).1
  case values =>
    have hread := portRead_of_idle hidle
    refine ⟨hread _, hread _, hread _, hread _, ?nnodes, hread _, hread _, fun c => ?freq, fun c => ?codelen,
      fun c w x hw hx => ?codebits, fun i x hi hwindow hx => ?symbuf, fun q x hq hwindow hx => ?bitbuf,
      fun a ha => ?unmapped⟩
    case nnodes =>
      have hlen := hread 0x00005#18
      have hloc : s.locOf 0x00005#18 = .nnodes := rfl
      rw [hlen, hloc, readLoc, State.nnodes, BitVec.toNat_setWidth, BitVec.toNat_ofNat]
      omega
    case freq => rw [hread, locOf_addrFreq]; rfl
    case codelen => rw [hread, locOf_addrCodelen]; rfl
    case codebits => rw [portRead_addrCodebits hidle c hw, State.codeWord, hx, Option.getD_some]
    case symbuf => rw [portRead_addrSymbuf hidle hi hwindow, State.symAt, hx, Option.getD_some]
    case bitbuf => rw [portRead_addrBitbuf hidle hq hwindow, State.bitWord, hx, Option.getD_some]
    case unmapped => rw [hread, ha, readLoc]

/-- Settles O12: a write is the port's, which stores in the field its address names; and what it then reads is
`writtenValue`. -/
theorem writtenLocationReadsBack : Obligations.WrittenLocationReadsBack := by
  refine ⟨fun s o a v rest => step_of_idle_write, fun s b n v rest hno hturn => ?refused, fun s v hidle => ?fields,
    fun s hidle => portRead_of_idle hidle _, fun s a v hidle ha => ?readBack⟩
  case refused => exact (step_of_input hturn).trans ((hostStep_of_no_access hno ..).2 v)
  case fields =>
    have hwrite (a : Addr) := portWrite_of_idle hidle a v
    refine ⟨hwrite _, hwrite _, fun c => ?freq, fun c => ?codelen, fun c w hw => ?codebits,
      fun i hi hwindow => ?symbuf, fun q hq hwindow => ?bitbuf⟩
    case freq => rw [hwrite, locOf_addrFreq, writeLoc]
    case codelen => rw [hwrite, locOf_addrCodelen, writeLoc]
    case codebits =>
      exact ⟨s.codebits.write (8 * c.toNat + w) v, by rw [hwrite, locOf_addrCodebits s c hw, writeLoc],
        Memory.read_write_same .., fun k hk => Memory.read_write_other _ v hk.symm⟩
    case symbuf =>
      exact ⟨s.symbuf.write i (v.setWidth 8), by rw [hwrite, locOf_addrSymbuf s hi hwindow, writeLoc],
        Memory.read_write_same .., fun k hk => Memory.read_write_other _ _ hk.symm⟩
    case bitbuf =>
      exact ⟨s.bitbuf.write q v, by rw [hwrite, locOf_addrBitbuf s hq hwindow, writeLoc],
        Memory.read_write_same .., fun k hk => Memory.read_write_other _ v hk.symm⟩
  case readBack =>
    rw [portRead_portWrite hidle ha, if_pos rfl, portRead_of_idle hidle]
    cases s.locOf a <;> rfl

/-- Settles O13, by `portRead_portWrite`: two addresses name one location only if it is unmapped. -/
theorem writeLeavesEveryOtherAddress : Obligations.WriteLeavesEveryOtherAddress := fun s a b v hidle ha hab => by
  rw [portRead_portWrite hidle ha, if_neg hab]

/-- Settles O14: what a write stores in such a location is nothing. -/
theorem readOnlyAndUnmappedWritesAreIgnored : Obligations.ReadOnlyAndUnmappedWritesAreIgnored := by
  intro s a v rest hr hi hloc
  have hidle : ({ s with inputs := rest, draw := s.draw + 1 } : State).busy = false := by rw [State.busy, hr]; rfl
  rw [step_of_idle_write hr (.inl rfl) hi, portWrite_of_idle hidle]
  change Host.Outcome.next (writeLoc _ v (s.locOf a)) = _
  obtain h | h | h | h | h | ⟨k, j, h⟩ | h := hloc <;> rw [h, writeLoc]

/-- Settles O15, by the lemmas `nodeWord_...`. -/
theorem nodeWindowReadsTheNode : Obligations.NodeWindowReadsTheNode := by
  intro s k hidle hk
  have hread {j : Nat} := portRead_addrNode hidle hk (j := j)
  refine ⟨fun hexists => ?_, fun habsent j hj => by rw [hread hj, nodeWord_of_absent habsent]⟩
  rw [hread (by decide), hread (by decide), hread (by decide), hread (by decide)]
  obtain ⟨hkind, hzero, hleft, hright, hreserved, hsym⟩ := nodeWord_zero_fields hexists
  exact ⟨hkind, hzero, hleft, hright, hreserved, hsym, nodeWord_weight hexists, nodeWord_three ..⟩

/-- Settles O16: the engine and the host read the same word. -/
theorem bitbufIsPackedFirstBitHighest : Obligations.BitbufIsPackedFirstBitHighest := by
  intro s t hidle hparams ht
  obtain ⟨-, hbit⟩ := hparams.windows
  have hmod : s.bitcap.toNat % 32 = 0 := by simpa using (Bool.and_eq_true_iff.1 hparams).2
  rw [portRead_addrBitbuf hidle (by omega) (by omega), State.bitAt, wordBit_eq_getLsbD _ _ (Nat.mod_lt t (by decide))]

/-- Settles O17: the engine and the host read the same written word. -/
theorem codebitsIsPackedFirstBitHighest : Obligations.CodebitsIsPackedFirstBitHighest := by
  intro s c time j hidle hj hwritten
  rw [portRead_addrCodebits hidle c (by omega), State.codeBit, codeWord_of_written hwritten,
    wordBit_eq_getLsbD _ _ (Nat.mod_lt j (by decide))]

end Sys2Proof
end

section
/-! SUPPORT. The issue of a command and its gate, the busy protocol (70_reset_and_hazards.md R250), that a command ends
within its schedule (R258), and the state after reset. -/

namespace Sys2Proof.Machine

/-! ## The issue -/

/-- The issue to the idle block: the gate drops a word it does not let through (60_exceptions.md R224). -/
theorem issue_of_idle {s : State} (h : s.running = none) (w : Word) :
    issue w s = { s with running := if s.fault = true ∧ passesGate w = false then none else some w } := by
  by_cases hdrop : s.fault = true ∧ passesGate w = false
  · rw [if_pos hdrop, issue, if_pos (by simp [hdrop]), ← h]
  · rw [if_neg hdrop, issue, if_neg (by simpa using hdrop)]

theorem passesGate_eq_false_iff (w : Word) : passesGate w = false ↔ w ≠ 0x00000008#32 ∧ w ≠ 0x00000009#32 := by
  simp [passesGate]

theorem passesGate_encode_eq_false_iff (i : Instr) : passesGate (encode i) = false ↔ i ≠ .clrf ∧ i ≠ .srst := by
  cases i <;> decide

/-- A write of CMD to the idle block is an issue (30_encoding.md R92). -/
theorem step_of_idle_cmd {s : State} {o : HostOp} {w : Word} {rest : List Input} (hr : s.running = none)
    (ho : o.isWriteOf addrCmd w) (hi : s.inputs = .op o :: rest) :
    step s = .next { s with
      inputs := rest, draw := s.draw + 1,
      running := if s.fault = true ∧ passesGate w = false then none else some w } := by
  have hidle : ({ s with inputs := rest, draw := s.draw + 1 } : State).running = none := hr
  rw [step_of_idle_write hr ho hi, portWrite_of_idle (by rw [State.busy, hidle]; rfl)]
  exact congrArg Host.Outcome.next (issue_of_idle hidle w)

/-! ## The busy protocol -/

theorem step_of_busy_op {s : State} {o : HostOp} {rest : List Input} (hbusy : s.busy = true)
    (hturn : turn s = .input (.op o) rest) :
    step s = hostStep o rest { s with draw := s.draw + 1, sched := s.sched.tail } := by
  rw [step_of_input hturn, takeTurn_of_busy hbusy]
  rfl

/-- While BUSY is 1 a poll reads BUSY = 1 and waits on (30_encoding.md R99). -/
theorem hostStep_wait_of_busy {s : State} (hbusy : s.busy = true) (rest : List Input) :
    hostStep .wait rest s = .next s := by
  obtain ⟨hbit, -⟩ := statusWord_fields s
  rw [hostStep, portRead_status, hbit, if_pos hbusy]

/-! ## A command in execution ends -/

/-- The engine's turn ends the command (10_state.md R28). -/
theorem step_of_engine_ends {s : State} {w : Word} (hturn : turn s = .engine w) :
    ∃ t, step s = .next t ∧ t.busy = false := by
  rw [step_of_engine hturn]
  cases hd : decode w with
  | command i =>
    obtain ⟨t, ht⟩ := exists_exec_eq_next i { s with draw := s.draw + 1, sched := s.sched.tail }
    exact ⟨t, (engineStep_of_command hd _).trans ht, by rw [State.busy, exec_running ht]; rfl⟩
  | illegal why => exact ⟨_, by rw [engineStep, hd], rfl⟩

/-- An accepted input leads to a next state, leaves the schedule, and adds no input. -/
theorem inputStep_of_accepted {i : Input} (h : i.accepted = true) (rest : List Input) (s : State) :
    ∃ t, inputStep i rest s = .next t ∧ t.sched = s.sched ∧ (t.inputs = s.inputs ∨ t.inputs = rest) := by
  cases i with
  | reset => exact ⟨_, rfl, rfl, .inr rfl⟩
  | op o =>
    obtain ⟨-, a, v, ho⟩ | ⟨-, a, claim, ho⟩ | rfl := hostOp_forms h
    · exact ⟨_, hostStep_of_write ho rest s, portWrite_sched .., .inr (portWrite_inputs ..)⟩
    · exact ⟨_, hostStep_of_read ho rest s, rfl, .inr rfl⟩
    · obtain hwait | hwait := hostStep_wait rest s
      · exact ⟨_, hwait, rfl, .inl rfl⟩
      · exact ⟨_, hwait, rfl, .inr rfl⟩

theorem run_of_step {s t : State} (h : step s = .next t) (k : Nat) :
    Host.Core.run core (k + 1) s = Host.Core.run core k t := by
  replace h : core.step s = .next t := h
  simp only [Host.Core.run, h]

/-- Each step with the host's access in first uses an entry of the schedule, and without one the engine has its turn. -/
theorem exists_run_idle (s : State) (hacc : ∀ i ∈ s.inputs, i.accepted = true) :
    ∃ k, k ≤ s.sched.length + 1 ∧ ∃ t, Host.Core.run Sys2Proof.core k s = .next t ∧ t.busy = false := by
  obtain ⟨hr, -, -⟩ | ⟨i, rest, hr, -, -⟩ | ⟨w, i, rest, sch, hr, hi, hs, hturn⟩ | ⟨w, -, -, hturn⟩ := turn_cases s
  · exact ⟨0, Nat.zero_le _, s, rfl, by rw [State.busy, hr]; rfl⟩
  · exact ⟨0, Nat.zero_le _, s, rfl, by rw [State.busy, hr]; rfl⟩
  · obtain ⟨t, ht, hsched, hinputs⟩ := inputStep_of_accepted (hacc i (hi ▸ List.mem_cons_self)) rest (takeTurn s)
    replace ht : step s = .next t := (step_of_input hturn).trans ht
    replace hsched : t.sched = sch := by simp [hsched, State.busy, hr, hs]
    have hacc' : ∀ j ∈ t.inputs, j.accepted = true := fun j hj => hacc j <| by
      obtain h | h := hinputs <;> rw [h] at hj
      · exact hj
      · exact hi ▸ List.mem_cons_of_mem i hj
    have hshort : t.sched.length < s.sched.length := by simp [hsched, hs]
    obtain ⟨k, hk, u, hrun, hidle⟩ := exists_run_idle t hacc'
    refine ⟨k + 1, by omega, u, ?_, hidle⟩
    exact (run_of_step ht k).trans hrun
  · obtain ⟨t, ht, hidle⟩ := step_of_engine_ends hturn
    exact ⟨1, by omega, t, run_of_step ht 0, hidle⟩
termination_by s.sched.length

/-! ## The state after reset -/

theorem resetOf_inv {p : Params} (h : p.wellFormed = true) : (State.resetOf p).Inv := by
  have hsym : (State.resetOf p).symcap.toNat = p.symCap := by
    simp only [Params.wellFormed, Bool.and_eq_true, decide_eq_true_iff] at h
    rw [resetOf_symcap, BitVec.toNat_ofNat]
    omega
  have hbit : (State.resetOf p).bitcap.toNat = p.bitCap := by
    simp only [Params.wellFormed, Bool.and_eq_true, decide_eq_true_iff] at h
    rw [resetOf_bitcap, BitVec.toNat_ofNat]
    omega
  refine ⟨?params, ⟨Memory.wf_nil _, Memory.wf_nil _, Memory.wf_nil _⟩, ?status, fun _ => rfl, .inl rfl⟩
  case params => rwa [State.paramsOk, hsym, hbit]
  case status => exact ⟨iff_of_false Bool.false_ne_true (not_not_intro rfl), Nat.zero_le _, fun _ => rfl⟩

end Sys2Proof.Machine

namespace Sys2Proof
open Machine

/-- Settles O8: a step with the host's turn uses an entry of the schedule, and the engine's turn ends the command. -/
theorem waitEnds : Obligations.WaitEnds := exists_run_idle

/-- Settles O5: either form of the write is the issue (`step_of_idle_cmd`), and the gate's words are those of CLRF and
SRST. -/
theorem cmdWriteIssuesOrIsGated : Obligations.CmdWriteIssuesOrIsGated := by
  refine ⟨fun s w rest hr hi => ?wr, fun s i rest hr hi => ?cmd⟩
  case wr =>
    rw [step_of_idle_cmd hr (.inl rfl) hi]
    simp only [passesGate_eq_false_iff]
  case cmd =>
    rw [step_of_idle_cmd hr (.inr (.inl ⟨i, rfl, rfl, rfl⟩)) hi]
    simp only [passesGate_encode_eq_false_iff]

/-- Settles O6: every accepted write is the port's write (`hostOp_forms`), which while BUSY is 1 sets OVR alone. -/
theorem busyWriteIsDroppedAndSetsOvr : Obligations.BusyWriteIsDroppedAndSetsOvr := by
  intro s o rest hbusy hturn hacc hform
  have hwrite : o.isWrite = true := by obtain ⟨a, v, rfl⟩ | ⟨i, rfl⟩ | ⟨b, n, v, rfl⟩ := hform <;> rfl
  obtain ⟨-, a, v, ho⟩ | ⟨hread, -⟩ | rfl := hostOp_forms hacc
  · rw [step_of_busy_op hbusy hturn, hostStep_of_write ho]
    exact congrArg Host.Outcome.next (if_pos hbusy)
  · simp [hwrite] at hread
  · cases hwrite

/-- Settles O7: a read is recorded and does nothing else, of STATUS it is exact (`portRead_status`), and a poll waits
on. -/
theorem busyReadsChangeNothing : Obligations.BusyReadsChangeNothing := by
  intro s rest hbusy
  refine ⟨fun o a claim ho hturn => ?read, fun hturn => ?wait⟩
  case read =>
    rw [step_of_busy_op hbusy hturn, hostStep_of_read ho]
    refine ⟨_, rfl, ?_⟩
    rintro rfl
    obtain ⟨hbit, hfault, hovr, -, herr, -⟩ :=
      statusReadsItsFields { s with draw := s.draw + 1, sched := s.sched.tail, inputs := rest }
    exact ⟨hbit.trans hbusy, hfault, hovr, herr⟩
  case wait =>
    rw [step_of_busy_op hbusy hturn]
    exact hostStep_wait_of_busy (by exact hbusy) rest

/-- Settles O55, by `resetOf_inv`; the defaults are well-formed parameters. -/
theorem resetStateMeetsTheInvariant : Obligations.ResetStateMeetsTheInvariant :=
  ⟨resetOf_inv (by decide), fun _ => resetOf_inv⟩

/-- Settles O1: the ten words are those that `encode` gives, and the three illegal ones are decoded by their ranges. -/
theorem tenWordsAndThreeIllegalOnes : Obligations.TenWordsAndThreeIllegalOnes :=
  ⟨decode_encode .nop, decode_encode .count, decode_encode .build, decode_encode .derive, decode_encode .encode,
    decode_encode .decode, decode_encode .decodec, decode_encode .mktable, decode_encode .clrf, decode_encode .srst,
    decode_of_reserved (by decide) (by decide), decode_of_ge (by decide), decode_of_ge (by decide)⟩

end Sys2Proof
end

section
/-! SUPPORT. What MKTABLE leaves and that it is its three parts in turn (42_derive.md R148), that the code of a tree is
complete (R147), and where ENCODE stops with an error (43_encode.md R157, R161). -/

namespace Sys2Proof.Machine

/-! ## One counted symbol -/

theorem countedSymbols_eq_singleton {s : State} {c : Sym} (hc : s.freqAt c ≠ 0) (h : ∀ d, d ≠ c → s.freqAt d = 0) :
    s.countedSymbols = [c] := by
  have hcount (d : Sym) : (s.freqAt d != 0) = (d == c) := by
    rw [Bool.eq_iff_iff, bne_iff_ne, beq_iff_eq]
    exact ⟨fun hd => by_contra fun hne => hd (h d hne), fun hd => hd ▸ hc⟩
  rw [State.countedSymbols, List.filter_congr fun d _ => hcount d, List.filter_beq,
    List.count_eq_one_of_mem allSymbols_nodup (mem_allSymbols c)]
  rfl

/-! ## The code is complete -/

section
variable {n : Nat} {ns : List Node}

/-- From a node, bits enough to pass every internal node at or below it lead to a leaf. -/
theorem IsTree.exists_leaf_on_way (h : IsTree n ns) {k : Nat} {p : BitString} (hk : k < ns.length)
    (hlen : k + 1 - n ≤ p.length) : ∃ q, q <+: p ∧ ∃ j < n, follow ns k q = some j := by
  induction p generalizing k with
  | nil => exact ⟨[], List.prefix_rfl, k, by simp at hlen; omega, rfl⟩
  | cons b p ih =>
    by_cases hleaf : k < n
    · exact ⟨[], List.nil_prefix, k, hleaf, rfl⟩
    · have hn : n ≤ k := Nat.le_of_not_lt hleaf
      have hbelow := h.child_lt hk hn b
      rw [List.length_cons] at hlen
      obtain ⟨q, hq, j, hj, hpath⟩ := ih (hbelow.trans hk) (by omega)
      exact ⟨b :: q, List.prefix_cons_inj b |>.2 hq, j, hj,
        by rw [follow_cons_of_internal (h.internals k hk hn), hpath]⟩

/-- Every 255 bits begin with the path to a leaf, since a tree has at most 255 internal nodes. -/
theorem IsTree.exists_code_on_way (h : IsTree n ns) (hn : 2 ≤ n) {p : BitString} (hlen : p.length = Config.maxLen) :
    ∃ k < n, codeIn (treeCodes ns) (nodeAt ns k).sym <+: p := by
  have hroot := h.rootOf_eq
  have hleaves : n ≤ 256 := h.leaves.2
  replace hlen : p.length = 255 := hlen
  obtain ⟨q, hq, j, hj, hpath⟩ := h.exists_leaf_on_way (p := p) h.rootOf_lt_length (by omega)
  exact ⟨j, hj, by rwa [h.codeIn_of_path hn hj hpath]⟩

/-- A tree has a code for exactly the symbols of its leaves, the one-leaf tree included (42_derive.md R142, R143). -/
theorem IsTree.codeIn_ne_nil_iff (h : IsTree n ns) (c : Sym) :
    codeIn (treeCodes ns) c ≠ [] ↔ ∃ k < n, (nodeAt ns k).sym = c := by
  obtain hone | hn := h.leaves.1.eq_or_lt
  · subst hone
    obtain ⟨d, w, rfl⟩ := h.eq_leaf
    simp [treeCodes, codeIn, nodeAt, Node.sym]
  · constructor
    · intro hc
      obtain ⟨k, hk, hsym, -⟩ := h.exists_leaf_of_codeIn_ne_nil hn hc
      exact ⟨k, hk, hsym⟩
    · rintro ⟨k, hk, rfl⟩
      exact h.codeIn_ne_nil hn hk

/-- Every code fits CODELEN, the one-leaf tree's included (10_state.md R37). -/
theorem IsTree.codeIn_fits (h : IsTree n ns) (c : Sym) : (codeIn (treeCodes ns) c).length < 256 := by
  obtain hone | hn := h.leaves.1.eq_or_lt
  · subst hone
    obtain ⟨d, w, rfl⟩ := h.eq_leaf
    simp only [treeCodes, codeIn]
    split <;> decide
  · exact h.length_codeIn_lt hn c

end

/-- DERIVE makes an entry for exactly the symbols of the leaves (42_derive.md R142, R143). -/
theorem derive_codelenAt_ne_zero_iff {s t : State} {n : Nat} (htree : IsTree n s.node) (h : exec .derive s = .next t)
    (c : Sym) : t.codelenAt c ≠ 0 ↔ ∃ k < n, (nodeAt s.node k).sym = c := by
  rw [← htree.codeIn_ne_nil_iff, not_iff_not, ← BitVec.toNat_inj,
    derive_codelenAt_toNat h (htree.codeIn_fits c)]
  exact List.length_eq_zero_iff

/-! ## MKTABLE -/

/-- The leaves of the tree of a table are its counted symbols (41_build.md R122). -/
theorem buildTree_leaf_sym_iff {s : State} (h : ∃ c, s.freqAt c ≠ 0) (c : Sym) :
    (∃ k < distinctCount s, (nodeAt (buildTree s.freq) k).sym = c) ↔ s.freqAt c ≠ 0 := by
  have hsym {k : Nat} (hk : k < distinctCount s) :
      ∃ d, s.countedSymbols[k]? = some d ∧ (nodeAt (buildTree s.freq) k).sym = d := by
    obtain ⟨d, hd, hleaf⟩ := buildTree_leaf h hk
    exact ⟨d, hd, by rw [nodeAt, List.getD_eq_getElem?_getD, hleaf]; rfl⟩
  have hmem : c ∈ s.countedSymbols ↔ s.freqAt c ≠ 0 := by simp [State.countedSymbols]
  rw [← hmem]
  constructor
  · rintro ⟨k, hk, rfl⟩
    obtain ⟨d, hd, hd'⟩ := hsym hk
    exact hd' ▸ List.mem_of_getElem? hd
  · intro hc
    obtain ⟨k, hk, rfl⟩ := List.getElem_of_mem hc
    obtain ⟨d, hd, hd'⟩ := hsym hk
    rw [List.getElem?_eq_getElem hk, Option.some.injEq] at hd
    exact ⟨k, hk, hd'.trans hd.symm⟩

/-- The tree of the middle of MKTABLE has a leaf for each counted symbol, and no node when there is none. -/
theorem buildUnlessEmpty_length (s : State) : (buildUnlessEmpty s).node.length = 2 * distinctCount s - 1 := by
  by_cases h : ∀ c, s.freqAt c = 0
  · have hnone : distinctCount s = 0 := by simp [distinctCount, h]
    rw [buildUnlessEmpty_node_of_empty h, hnone]
    rfl
  · rw [not_forall] at h
    rw [buildUnlessEmpty_node_of_not_empty h, (buildTree_isTree h).size]

/-- DERIVE after the middle of MKTABLE makes an entry for exactly the counted symbols (42_derive.md R148). -/
theorem derive_buildUnlessEmpty_codelenAt {s t : State} (h : exec .derive (buildUnlessEmpty s) = .next t) (c : Sym) :
    t.codelenAt c ≠ 0 ↔ s.freqAt c ≠ 0 := by
  by_cases hempty : ∀ c, s.freqAt c = 0
  · have hnone := (derive_of_noTree h (buildUnlessEmpty_node_of_empty hempty)).1 c
    simp [hnone, hempty c]
  · rw [not_forall] at hempty
    have hnode := buildUnlessEmpty_node_of_not_empty hempty
    have htree : IsTree (distinctCount s) (buildUnlessEmpty s).node := hnode ▸ buildTree_isTree hempty
    rw [derive_codelenAt_ne_zero_iff htree h, hnode, buildTree_leaf_sym_iff hempty]

/-! A command's body and the end of another commute: the one does not read or write BUSY. -/

theorem endCommand_endCommand (s : State) : endCommand (endCommand s) = endCommand s := rfl

theorem buildBody_endCommand (s : State) : buildBody (endCommand s) = endCommand (buildBody s) := rfl

theorem deriveBody_endCommand (s : State) : deriveBody (endCommand s) = endCommand (deriveBody s) := by
  rw [deriveBody]
  rfl

/-- COUNT of an input that is not empty leaves a count. -/
theorem exists_countBody_freqAt_ne_zero {s : State} (h : 1 ≤ s.symLen.toNat) : ∃ c, (countBody s).freqAt c ≠ 0 := by
  have hne : s.symbols ≠ [] := List.length_pos_iff.1 (by rw [State.symbols_length]; omega)
  obtain ⟨c, hc⟩ := List.exists_mem_of_ne_nil _ hne
  exact ⟨c, (countBody_freqAt_ne_zero_iff s c).2 hc⟩

theorem IsTree.ne_nil {n : Nat} {ns : List Node} (h : IsTree n ns) : ns ≠ [] :=
  List.length_pos_iff.1 (Nat.zero_lt_of_lt h.rootOf_lt_length)

/-! ## Where ENCODE stops -/

/-- ENCODE ends with the error that its loop ends with (43_encode.md R156). -/
theorem exec_encode_of_failed {s : State} {e : Err} {info : Word} (hsym : s.symLen.toNat ≤ s.symcap.toNat)
    (hloop : encodeLoop s (List.range s.symLen.toNat) [] = .failed e info) :
    exec .encode s = .next (raiseError .bitstream e info s) := by
  show execEncode s = _
  rw [execEncode, if_neg (Nat.not_lt.2 hsym), hloop]

/-- The encoder loop at a position before which every symbol has an entry and every code fits. -/
theorem encodeLoop_at {s : State} {i : Nat} (hi : i < s.symLen.toNat) (hentry : ∀ j < i, s.codelenAt (s.symAt j) ≠ 0)
    (hfits : ((List.range i).map fun j => (s.codelenAt (s.symAt j)).toNat).sum ≤ s.bitcap.toNat) :
    ∃ is, encodeLoop s (List.range s.symLen.toNat) [] = encodeLoop s (i :: is) (s.encoding (List.range i)) := by
  obtain ⟨m, hm⟩ := Nat.exists_eq_add_of_le (Nat.succ_le_of_lt hi)
  refine ⟨(List.range m).map (i.succ + ·), ?_⟩
  rw [hm, List.range_add, List.range_succ, List.append_assoc, List.singleton_append,
    encodeLoop_append _ (fun j hj => hentry j (List.mem_range.1 hj)), List.nil_append]
  rwa [State.encoding_length, List.length_nil, Nat.zero_add]

end Sys2Proof.Machine

namespace Sys2Proof
open Machine

/-- Settles O22: the one counted symbol's leaf is the tree, without a merge. -/
theorem buildOfOneSymbolIsOneLeaf : Obligations.BuildOfOneSymbolIsOneLeaf := by
  intro s c hc h
  rw [exec_build_of_not_empty ⟨c, hc⟩, buildBody,
    buildTree_of_countedSymbols_eq_singleton (countedSymbols_eq_singleton hc h)]
  rfl

/-- Settles O27: every 255 bits begin with a code (`IsTree.exists_code_on_way`), and of two codes that begin the same
bits one begins the other. -/
theorem derivedCodeIsComplete : Obligations.DerivedCodeIsComplete := by
  intro s t n htree hn h p hp
  have hcode (c : Sym) := derive_codeOf h (htree.length_codeIn_lt hn c) 0
  obtain ⟨k, hk, hpre⟩ := htree.exists_code_on_way hn hp
  refine ⟨(nodeAt s.node k).sym, ⟨?entry, by rwa [hcode]⟩, ?unique⟩
  case entry => exact (derive_codelenAt_ne_zero_iff htree h _).2 ⟨k, hk, rfl⟩
  case unique =>
    rintro c ⟨hc, hcpre⟩
    have hne : codeIn (treeCodes s.node) c ≠ [] :=
      (htree.codeIn_ne_nil_iff c).2 ((derive_codelenAt_ne_zero_iff htree h c).1 hc)
    have hkne := htree.codeIn_ne_nil hn hk
    rw [hcode] at hcpre
    obtain hle | hle := List.prefix_or_prefix_of_prefix hcpre hpre
    · exact htree.eq_of_codeIn_prefix hn hne hkne hle
    · exact (htree.eq_of_codeIn_prefix hn hkne hne hle).symm

/-- Settles O28: MKTABLE runs the bodies of the three commands, and only the last ends. -/
theorem mktableIsCountBuildDerive : Obligations.MktableIsCountBuildDerive := by
  refine ⟨fun s hpos hcap => ?input, fun s hempty => ?noInput⟩
  case input =>
    have hne := exists_countBody_freqAt_ne_zero hpos
    have hbuild : exec .build (endCommand (countBody s)) = _ :=
      exec_build_of_not_empty (s := endCommand (countBody s)) hne
    have hmktable := exec_mktable_of_le hcap
    rw [buildUnlessEmpty, if_neg fun he => hne.elim fun c hc => hc ((tableEmpty_iff _).1 he c), exec_derive] at hmktable
    rw [buildBody_endCommand] at hbuild
    refine ⟨_, _, _, exec_count_of_le hcap, hbuild, exec_derive _, ?same, ?fault, ?tree⟩
    case same => rw [hmktable, endCommand_endCommand, deriveBody_endCommand, endCommand_endCommand]
    case fault => simp
    case tree => simpa using (buildTree_isTree hne).ne_nil
  case noInput =>
    have hcap : s.symLen.toNat ≤ s.symcap.toNat := by simp [hempty]
    have hzero := countBody_freqAt_eq_zero hempty
    have hmktable := exec_mktable_of_le hcap
    rw [buildUnlessEmpty, if_pos ((tableEmpty_iff _).2 hzero), exec_derive] at hmktable
    have hcount : exec .count { s with node := [] } = .next (endCommand { countBody s with node := [] }) :=
      exec_count_of_le (s := { s with node := [] }) hcap
    obtain ⟨hcodelen, -⟩ := derive_of_noTree (s := endCommand { countBody s with node := [] }) (exec_derive _) rfl
    refine ⟨_, _, hcount, exec_derive _, ?same, ?fault, ?tree, ?freq, hcodelen⟩
    case same => rw [hmktable, deriveBody_endCommand, endCommand_endCommand]
    case fault => simp
    case tree => simp
    case freq => simpa [State.freqAt] using hzero

/-- Settles O29: the tallies are COUNT's, the tree is BUILD's and the entries are DERIVE's for its leaves. -/
theorem mktableMakesAllThreeTables : Obligations.MktableMakesAllThreeTables := by
  intro s hcap
  have hderive := exec_derive (buildUnlessEmpty (countBody s))
  have hmktable := (exec_mktable_of_le hcap).trans hderive
  have hfreq (c : Sym) :
      (endCommand (deriveBody (buildUnlessEmpty (countBody s)))).freqAt c = (countBody s).freqAt c := by
    simp [State.freqAt]
  refine ⟨_, hmktable, mktable_frame hcap hmktable, fun c => ?freq, buildUnlessEmpty_treeInvariant (countBody s), ?size,
    derive_tableOfTree hderive, fun c => ?entries⟩
  case freq => rw [hfreq, countBody_freqAt_toNat]
  case size =>
    simp only [distinctCount, hfreq]
    exact buildUnlessEmpty_length (countBody s)
  case entries => rw [derive_buildUnlessEmpty_codelenAt hderive, countBody_freqAt_ne_zero_iff]

/-- Settles O31: the loop stands at the symbol without an entry (`encodeLoop_at`), and UnknownSymbol is its end. -/
theorem encodeStopsAtTheFirstUnknownSymbol : Obligations.EncodeStopsAtTheFirstUnknownSymbol := by
  intro s i hcap hi hnone hentry hfits
  obtain ⟨is, hloop⟩ := encodeLoop_at hi hentry hfits
  obtain ⟨-, hend⟩ | ⟨hsome, -⟩ | ⟨hsome, -⟩ := encodeLoop_cons s i is (s.encoding (List.range i))
  · exact exec_encode_of_failed hcap (hloop.trans hend)
  · exact absurd hnone hsome
  · exact absurd hnone hsome

/-- Settles O32: the loop stands at the symbol whose code does not fit (`encodeLoop_at`), and Capacity is its end. -/
theorem encodeStopsAtTheFirstCodeThatDoesNotFit : Obligations.EncodeStopsAtTheFirstCodeThatDoesNotFit := by
  intro s i hcap hi hentry hfits hover
  obtain ⟨is, hloop⟩ := encodeLoop_at hi (fun j hj => hentry j hj.le) hfits
  obtain ⟨hnone, -⟩ | ⟨-, -, hend⟩ | ⟨-, hroom, -⟩ := encodeLoop_cons s i is (s.encoding (List.range i))
  · exact absurd hnone (hentry i le_rfl)
  · exact exec_encode_of_failed hcap (hloop.trans hend)
  · rw [State.encoding_length] at hroom
    rw [List.range_succ, List.map_append, List.sum_append, List.map_singleton, List.sum_singleton] at hover
    omega

end Sys2Proof
end

section
/-! SUPPORT. The decoder loop over bits that are codes one after another (44_decode.md R166, R172): what it emits, and
where and how it fails; DECODE over paths of the tree, DECODEC over the codes it takes, and the input back from both
(46_properties.md R196). -/

namespace Sys2Proof.Machine

/-! ## The decoder loop over codes -/

/-- Where a decoder stands after bits that complete no code; none when one of them completes a code or has no path. -/
def standAfter {σ : Type} (move : σ → Bool → Move σ) : σ → BitString → Option σ
  | x, [] => some x
  | x, b :: q =>
    match move x b with
    | .inside y => standAfter move y q
    | .emit _ => none
    | .noPath => none

@[simp] theorem standAfter_nil {σ : Type} (move : σ → Bool → Move σ) (x : σ) : standAfter move x [] = some x := rfl

theorem standAfter_cons_of_inside {σ : Type} {move : σ → Bool → Move σ} {x y : σ} {b : Bool} (h : move x b = .inside y)
    (q : BitString) : standAfter move x (b :: q) = standAfter move y q := by
  rw [standAfter, h]

/-- `p` is a code that a decoder at `root` completes with its last bit, emitting `c`. -/
def Completes {σ : Type} (move : σ → Bool → Move σ) (root : σ) (p : BitString) (c : Sym) : Prop :=
  ∃ q b y, p = q ++ [b] ∧ standAfter move root q = some y ∧ move y b = .emit c

section
variable {σ : Type} {move : σ → Bool → Move σ} {root : σ} {cap : Nat}

/-- Bits that complete no code only move the decoder. -/
theorem decodeLoop_of_standAfter {q : BitString} {x y : σ} (h : standAfter move x q = some y) (bs : BitString)
    (p start : Nat) (out : List Sym) :
    decodeLoop (fun _ => move) root cap (q ++ bs) p x start out =
      decodeLoop (fun _ => move) root cap bs (p + q.length) y start out := by
  induction q generalizing p x with
  | nil =>
    obtain rfl : x = y := Option.some.inj h
    rfl
  | cons b q ih =>
    cases hmove : move x b with
    | noPath => simp [standAfter, hmove] at h
    | emit c => simp [standAfter, hmove] at h
    | inside z =>
      rw [standAfter_cons_of_inside hmove] at h
      rw [List.cons_append, decodeLoop, hmove, List.length_cons, Nat.add_comm q.length, ← Nat.add_assoc]
      exact ih h (p + 1)

/-- A code that is completed emits its symbol while there is room (44_decode.md R166, R172). -/
theorem decodeLoop_of_completes {c : Sym} {p : BitString} (h : Completes move root p c) (bs : BitString) (pos : Nat)
    {out : List Sym} (hroom : out.length ≠ cap) :
    decodeLoop (fun _ => move) root cap (p ++ bs) pos root pos out =
      decodeLoop (fun _ => move) root cap bs (pos + p.length) root (pos + p.length) (out ++ [c]) := by
  obtain ⟨q, b, y, rfl, hstand, hemit⟩ := h
  rw [List.append_assoc, decodeLoop_of_standAfter hstand, List.singleton_append,
    decodeLoop_cons_of_emit hemit _ _ _ hroom, List.length_append, List.length_singleton, ← Nat.add_assoc]

/-- The bit that completes a code whose symbol does not fit ends the loop with Capacity (44_decode.md R177). -/
theorem decodeLoop_of_completes_full {c : Sym} {p : BitString} (h : Completes move root p c) (bs : BitString)
    (pos : Nat) {out : List Sym} (hfull : out.length = cap) :
    decodeLoop (fun _ => move) root cap (p ++ bs) pos root pos out =
      .failed .capacity (position (pos + p.length - 1)) := by
  obtain ⟨q, b, y, rfl, hstand, hemit⟩ := h
  rw [List.append_assoc, decodeLoop_of_standAfter hstand, List.singleton_append, decodeLoop, hemit,
    List.length_append, List.length_singleton, ← Nat.add_assoc, Nat.add_sub_cancel]
  exact if_pos hfull

/-- The loop over the codes of the members of `l`, one after another: it emits their symbols while they fit. -/
theorem decodeLoop_of_codes {α : Type} {code : α → BitString} {sym : α → Sym} {l : List α}
    (h : ∀ x ∈ l, Completes move root (code x) (sym x)) (bs : BitString) (pos : Nat) {out : List Sym}
    (hroom : out.length + l.length ≤ cap) :
    decodeLoop (fun _ => move) root cap (l.flatMap code ++ bs) pos root pos out =
      decodeLoop (fun _ => move) root cap bs (pos + (l.flatMap code).length) root (pos + (l.flatMap code).length)
        (out ++ l.map sym) := by
  induction l generalizing pos out with
  | nil => simp
  | cons x l ih =>
    rw [List.length_cons] at hroom
    have hrest : (out ++ [sym x]).length + l.length ≤ cap := by
      rw [List.length_append, List.length_singleton]
      omega
    rw [List.flatMap_cons, List.append_assoc, decodeLoop_of_completes (h x List.mem_cons_self) _ _ (by omega),
      ih (fun y hy => h y (List.mem_cons_of_mem x hy)) _ hrest, List.length_append, Nat.add_assoc, List.map_cons,
      List.append_assoc, List.singleton_append]

variable {α : Type} {code : α → BitString} {sym : α → Sym} {l : List α}

/-- Codes that fit, and nothing after them: the loop ends with their symbols. -/
theorem decodeLoop_codes_done (h : ∀ x ∈ l, Completes move root (code x) (sym x)) (hroom : l.length ≤ cap) :
    decodeLoop (fun _ => move) root cap (l.flatMap code) 0 root 0 [] = .done (l.map sym) := by
  have hloop := decodeLoop_of_codes h [] 0 (out := []) (by simpa using hroom)
  rwa [List.append_nil, decodeLoop_nil_of_start, List.nil_append] at hloop

/-- Codes that fit, then bits that complete none: TruncatedStream where those begin (44_decode.md R168, R176). -/
theorem decodeLoop_codes_truncated (h : ∀ x ∈ l, Completes move root (code x) (sym x)) (hroom : l.length ≤ cap)
    {q : BitString} {y : σ} (hq : q ≠ []) (hstand : standAfter move root q = some y) :
    decodeLoop (fun _ => move) root cap (l.flatMap code ++ q) 0 root 0 [] =
      .failed .truncatedStream (position (l.flatMap code).length) := by
  have hlen := List.length_pos_iff.2 hq
  have hend := decodeLoop_of_standAfter (root := root) (cap := cap) hstand []
  rw [List.append_nil] at hend
  rw [decodeLoop_of_codes h q 0 (out := []) (by simpa using hroom), hend, decodeLoop, if_pos (by omega), Nat.zero_add]

/-- Codes that fit, then bits that complete none, then a bit that no path takes: InvalidCode at that bit
(44_decode.md R169, R175). -/
theorem decodeLoop_codes_invalid (h : ∀ x ∈ l, Completes move root (code x) (sym x)) (hroom : l.length ≤ cap)
    {q : BitString} {y : σ} {b : Bool} (hstand : standAfter move root q = some y) (hno : move y b = .noPath)
    (bs : BitString) :
    decodeLoop (fun _ => move) root cap (l.flatMap code ++ (q ++ b :: bs)) 0 root 0 [] =
      .failed .invalidCode (position (l.flatMap code ++ q).length) := by
  rw [decodeLoop_of_codes h _ 0 (out := []) (by simpa using hroom), decodeLoop_of_standAfter hstand,
    decodeLoop_cons_of_noPath hno, Nat.zero_add, List.length_append]

/-- One code more than fits: Capacity at the bit that completes it (44_decode.md R177). -/
theorem decodeLoop_codes_full (h : ∀ x ∈ l, Completes move root (code x) (sym x)) (hfull : l.length = cap + 1)
    (bs : BitString) :
    decodeLoop (fun _ => move) root cap (l.flatMap code ++ bs) 0 root 0 [] =
      .failed .capacity (position ((l.flatMap code).length - 1)) := by
  obtain rfl | ⟨l, x, rfl⟩ := l.eq_nil_or_concat'
  · simp at hfull
  rw [List.length_append, List.length_singleton, Nat.add_right_cancel_iff] at hfull
  rw [List.flatMap_append, List.flatMap_singleton, List.append_assoc,
    decodeLoop_of_codes (fun y hy => h y (List.mem_append_left _ hy)) _ 0 (out := []) (by simp [hfull]),
    decodeLoop_of_completes_full (h x (by simp)) _ _ (by simp [hfull]), Nat.zero_add, List.length_append]

end

/-! ## What the decoders store -/

/-- SYMBUF after a decoder that emitted `cs`: their symbols, and every later entry as before (44_decode.md R166). -/
theorem storeSymbols_done_read (s : State) (cs : List Sym) :
    ∃ m : Memory 8, storeSymbols (.done cs) s =
        { s with running := none, symLen := BitVec.ofNat 32 cs.length, symbuf := m } ∧
      (∀ i < cs.length, m.read i = cs[i]?) ∧ ∀ i, cs.length ≤ i → m.read i = s.symbuf.read i := by
  refine ⟨s.symbuf.writeFrom 0 cs, rfl, fun i hi => ?_, fun i hi => ?_⟩
  · rw [Memory.read_writeFrom, if_pos (by omega), Nat.sub_zero]
  · rw [Memory.read_writeFrom, if_neg (by omega)]

theorem exec_decode_of_le {s : State} (h : s.bitLen.toNat ≤ s.bitcap.toNat) :
    exec .decode s = .next (storeSymbols (decodeEnding s) s) :=
  if_neg (Nat.not_lt.2 h)

theorem exec_decodec_of_le {s : State} (h : s.bitLen.toNat ≤ s.bitcap.toNat) :
    exec .decodec s = .next (storeSymbols (decodecEnding s) s) :=
  if_neg (Nat.not_lt.2 h)

/-- DECODE stores what the loop over its bits ends with (44_decode.md R166). -/
theorem exec_decode_of_loop {s : State} {bs : BitString} {r : Ending (List Sym)}
    (hfits : s.bitLen.toNat ≤ s.bitcap.toNat) (hbits : s.bits = bs)
    (hloop : decodeLoop (fun _ => treeMove s.node) (rootOf s.node) s.symcap.toNat bs 0 (rootOf s.node) 0 [] = r) :
    exec .decode s = .next (storeSymbols r s) := by
  subst hbits hloop
  exact exec_decode_of_le hfits

/-! ## DECODE over the paths of a tree -/

/-- A path that ends inside the tree passes internal nodes only. -/
theorem kind_of_follow {ns : List Node} {q : BitString} {k j : Nat} (h : follow ns k q = some j)
    (hj : (nodeAt ns j).kind = true) : (nodeAt ns k).kind = true := by
  cases q with
  | nil =>
    obtain rfl : k = j := Option.some.inj h
    exact hj
  | cons b q =>
    by_contra hk
    rw [follow_cons_of_leaf (Bool.eq_false_of_not_eq_true hk)] at h
    cases h

theorem standAfter_treeMove {ns : List Node} (hlen : 2 ≤ ns.length) {q : BitString} {k j : Nat}
    (h : follow ns k q = some j) (hj : (nodeAt ns j).kind = true) : standAfter (treeMove ns) k q = some j := by
  induction q generalizing k with
  | nil => exact h
  | cons b q ih =>
    rw [follow_cons_of_internal (kind_of_follow h hj)] at h
    have hmove := treeMove_of_two_le hlen k b
    rw [if_pos (kind_of_follow h hj)] at hmove
    rw [standAfter_cons_of_inside hmove, ih h]

/-- The path to a leaf is a code of its symbol (44_decode.md R167). -/
theorem IsTree.completes {n : Nat} {ns : List Node} (h : IsTree n ns) (hn : 2 ≤ n) {k : Nat} {p : BitString}
    (hleaf : (nodeAt ns k).kind = false) (hpath : follow ns (rootOf ns) p = some k) :
    Completes (treeMove ns) (rootOf ns) p (nodeAt ns k).sym := by
  have hsize := h.size
  obtain rfl | ⟨q, b, rfl⟩ := p.eq_nil_or_concat'
  · obtain rfl : rootOf ns = k := Option.some.inj hpath
    simp [h.kind_root hn] at hleaf
  · obtain ⟨i, hi, hkind, rfl⟩ := follow_concat_eq_some_iff.1 hpath
    refine ⟨q, b, i, rfl, standAfter_treeMove (by omega) hi hkind, ?_⟩
    rw [treeMove_of_two_le (by omega), if_neg (by simp [hleaf])]

/-- The one leaf's code is "0" (44_decode.md R169). -/
theorem completes_of_oneLeaf (c : Sym) (w : Weight) (root : Nat) : Completes (treeMove [.leaf c w]) root [false] c :=
  ⟨[], false, root, rfl, rfl, rfl⟩

/-! ## DECODEC over the codes it takes -/

/-- The search for a symbol finds the smallest one (44_decode.md R174). -/
theorem find_allSymbols_eq_some_iff {f : Sym → Bool} {c : Sym} :
    allSymbols.find? f = some c ↔ f c = true ∧ ∀ d : Sym, d.toNat < c.toNat → f d = false := by
  have hfound {e : Sym} (he : allSymbols.find? f = some e) :
      f e = true ∧ ∀ d : Sym, d.toNat < e.toNat → f d = false := by
    obtain ⟨hfe, as, bs, hsplit, hbefore⟩ := List.find?_eq_some_iff_append.1 he
    refine ⟨hfe, fun d hd => ?_⟩
    have hasc := allSymbols_ascending
    have hmem := mem_allSymbols d
    rw [hsplit] at hasc hmem
    obtain hdas | hdbs := List.mem_append.1 hmem
    · simpa using hbefore d hdas
    obtain rfl | hdbs := List.mem_cons.1 hdbs
    · omega
    · have hlt := (List.pairwise_cons.1 (List.pairwise_append.1 hasc).2.1).1 d hdbs
      omega
  refine ⟨hfound, fun ⟨hc, hsmaller⟩ => ?_⟩
  cases he : allSymbols.find? f with
  | none => exact absurd hc (List.find?_eq_none.1 he c (mem_allSymbols c))
  | some e =>
    obtain ⟨hfe, hfirst⟩ := hfound he
    obtain hlt | heq | hlt := Nat.lt_trichotomy e.toNat c.toNat
    · simp [hsmaller e hlt] at hfe
    · rw [BitVec.eq_of_toNat_eq heq]
    · simp [hfirst c hlt] at hc

section
variable (s : State) (p : Nat) (acc : BitString) (b : Bool)

/-- One bit of DECODEC: a match is emitted, the smallest first; else a longer code goes on; else no entry is left
(44_decode.md R173 to R175). -/
theorem tableMove_cases :
    (∃ c, tableMove s p acc b = .emit c ∧ s.codeOf p c = acc ++ [b] ∧
      ∀ d : Sym, d.toNat < c.toNat → s.codeOf p d ≠ acc ++ [b]) ∨
    (tableMove s p acc b = .inside (acc ++ [b]) ∧ (∀ c, s.codeOf p c ≠ acc ++ [b]) ∧
      ∃ c, acc ++ [b] <+: s.codeOf p c) ∨
    (tableMove s p acc b = .noPath ∧ ∀ c, ¬ acc ++ [b] <+: s.codeOf p c) := by
  cases hfind : allSymbols.find? (entryMatches s p (acc ++ [b])) with
  | some c =>
    obtain ⟨hc, hfirst⟩ := find_allSymbols_eq_some_iff.1 hfind
    refine .inl ⟨c, by rw [tableMove, hfind], (entryMatches_iff ..).1 hc, fun d hd he => ?_⟩
    simpa [hfirst d hd] using (entryMatches_iff s p _ d).2 he
  | none =>
    have hnone (c : Sym) : s.codeOf p c ≠ acc ++ [b] := fun hc =>
      List.find?_eq_none.1 hfind c (mem_allSymbols c) ((entryMatches_iff ..).2 hc)
    by_cases hgo : ∃ c, acc ++ [b] <+: s.codeOf p c
    · obtain ⟨c, hc⟩ := hgo
      exact .inr (.inl ⟨tableMove_eq_inside hnone hc, hnone, c, hc⟩)
    · rw [not_exists] at hgo
      exact .inr (.inr ⟨tableMove_eq_noPath hgo, hgo⟩)

variable {s p acc b}

theorem tableMove_eq_emit_iff {c : Sym} : tableMove s p acc b = .emit c ↔
    s.codeOf p c = acc ++ [b] ∧ ∀ d : Sym, d.toNat < c.toNat → s.codeOf p d ≠ acc ++ [b] := by
  have hfind : tableMove s p acc b = .emit c ↔ allSymbols.find? (entryMatches s p (acc ++ [b])) = some c := by
    rw [tableMove]
    cases allSymbols.find? (entryMatches s p (acc ++ [b])) with
    | some d => simp
    | none => simp only [reduceCtorEq, iff_false]; split <;> simp
  rw [hfind, find_allSymbols_eq_some_iff, entryMatches_iff]
  simp only [← Bool.not_eq_true, entryMatches_iff, ne_eq]

theorem tableMove_eq_inside_iff {x : BitString} : tableMove s p acc b = .inside x ↔
    x = acc ++ [b] ∧ (∀ c, s.codeOf p c ≠ acc ++ [b]) ∧ ∃ c, acc ++ [b] <+: s.codeOf p c := by
  obtain ⟨c, hmove, hc, -⟩ | ⟨hmove, hnone, hgo⟩ | ⟨hmove, hno⟩ := tableMove_cases s p acc b <;> rw [hmove]
  · exact iff_of_false (by simp) fun h => h.2.1 c hc
  · rw [Move.inside.injEq, eq_comm, and_iff_left ⟨hnone, hgo⟩]
  · exact iff_of_false (by simp) fun h => h.2.2.elim hno

theorem tableMove_eq_noPath_iff : tableMove s p acc b = .noPath ↔ ∀ c, ¬ acc ++ [b] <+: s.codeOf p c := by
  refine ⟨fun h => ?_, tableMove_eq_noPath⟩
  obtain ⟨c, hmove, -⟩ | ⟨hmove, -⟩ | ⟨-, hno⟩ := tableMove_cases s p acc b
  · simp [h] at hmove
  · simp [h] at hmove
  · exact hno

end

/-- An entry is longer than the bits that begin it and are not all of it. -/
theorem lt_codelenAt_iff {s : State} {p : Nat} {acc : BitString} {c : Sym} (hne : s.codeOf p c ≠ acc) :
    acc.length < (s.codelenAt c).toNat ∧ acc <+: s.codeOf p c ↔ acc <+: s.codeOf p c := by
  refine and_iff_right_of_imp fun hpre => ?_
  rw [← codeOf_length s p c]
  exact hpre.length_le.lt_of_ne fun hlen => hne (hpre.eq_of_length hlen).symm

/-! ## A table whose codes are written -/

theorem codeOf_ne_nil {s : State} {c : Sym} (h : s.codelenAt c ≠ 0) (time : Nat) : s.codeOf time c ≠ [] :=
  List.length_pos_iff.1 (by rw [codeOf_length]; exact Nat.pos_of_ne_zero (BitVec.toNat_ne_iff_ne.2 h))

section
variable {s : State} (h : s.codesWritten)
include h

/-- A written code reads the same at every time. -/
theorem State.codesWritten.codeOf_eq (time : Nat) : s.codeOf time = s.codeOf 0 := by
  funext c
  refine List.map_congr_left fun j hj => ?_
  rw [State.codeBit, codeWord_of_written (h c j (List.mem_range.1 hj)), State.codeBit]

/-- Over written codes DECODEC does the same at every position. -/
theorem State.codesWritten.tableMove_eq : tableMove s = fun _ => tableMove s 0 := by
  funext p acc b
  have hmatches : entryMatches s p = entryMatches s 0 := by
    funext acc c
    rw [entryMatches, h.codeOf_eq p, entryMatches]
  have hcontinues : entryContinues s p = entryContinues s 0 := by
    funext acc c
    rw [entryContinues, h.codeOf_eq p, entryContinues]
  rw [tableMove, hmatches, hcontinues, tableMove]

/-- DECODEC over written codes stores what the loop over its bits ends with (44_decode.md R172). -/
theorem State.codesWritten.exec_decodec {bs : BitString} {r : Ending (List Sym)}
    (hfits : s.bitLen.toNat ≤ s.bitcap.toNat) (hbits : s.bits = bs)
    (hloop : decodeLoop (fun _ => tableMove s 0) [] s.symcap.toNat bs 0 [] 0 [] = r) :
    exec .decodec s = .next (storeSymbols r s) := by
  rw [exec_decodec_of_le hfits, decodecEnding, h.tableMove_eq, hbits, hloop]

end

/-- Bits inside a code leave DECODEC with just those bits accumulated (44_decode.md R172). -/
theorem standAfter_tableMove {s : State} {acc q : BitString} (h : s.insideCode (acc ++ q)) :
    standAfter (tableMove s 0) acc q = some (acc ++ q) := by
  induction q generalizing acc with
  | nil => rw [List.append_nil, standAfter_nil]
  | cons b q ih =>
    have hsplit : acc ++ b :: q = acc ++ [b] ++ q := by rw [List.append_assoc, List.singleton_append]
    rw [hsplit] at h ⊢
    have ⟨⟨c, hc, _⟩, hnone⟩ := h
    have hmove : tableMove s 0 acc b = .inside (acc ++ [b]) := by
      refine tableMove_eq_inside_iff.2 ⟨rfl, fun d hd => ?_, c, (List.prefix_append ..).trans hc⟩
      have hentry : s.codelenAt d ≠ 0 := mt (codeOf_eq_nil · 0) (by simp [hd])
      exact hnone d hentry (hd ▸ List.prefix_append ..)
    rw [standAfter_cons_of_inside hmove, ih h]

/-- A code that DECODEC takes is completed by its last bit (44_decode.md R174). -/
theorem State.taken.completes {s : State} {c : Sym} (h : s.taken c) :
    Completes (tableMove s 0) [] (s.codeOf 0 c) c := by
  obtain ⟨hentry, hsmallest, hshortest⟩ := h
  obtain hnil | ⟨q, b, hcode⟩ := (s.codeOf 0 c).eq_nil_or_concat'
  · exact absurd hnil (codeOf_ne_nil hentry 0)
  have hpre : q <+: s.codeOf 0 c := hcode ▸ List.prefix_append ..
  have hinside : s.insideCode q := by
    refine ⟨⟨c, hpre, by simp [hcode]⟩, fun d hd hdq => ?_⟩
    have hlen := hdq.length_le
    rw [hshortest d hd (hdq.trans hpre), hcode, List.length_append, List.length_singleton] at hlen
    omega
  exact ⟨q, b, q, hcode, standAfter_tableMove (acc := []) hinside,
    tableMove_eq_emit_iff.2 ⟨hcode, fun d hd => hcode ▸ hsmallest d hd⟩⟩

/-- DECODEC over codes it takes emits their symbols (44_decode.md R172). -/
theorem exec_decodec_of_codes {s : State} {cs : List Sym} (hwritten : s.codesWritten) (htaken : ∀ c ∈ cs, s.taken c)
    (hbits : s.bits = cs.flatMap (s.codeOf 0)) (hfits : s.bitLen.toNat ≤ s.bitcap.toNat)
    (hroom : cs.length ≤ s.symcap.toNat) : exec .decodec s = .next (storeSymbols (.done cs) s) := by
  have hdone := decodeLoop_codes_done (sym := id) (fun c hc => (htaken c hc).completes) hroom
  rw [List.map_id] at hdone
  exact hwritten.exec_decodec hfits hbits hdone

/-! ## The input back -/

/-- With a table whose codes are written, ENCODE of symbols that have entries and fit stores their codes
(43_encode.md R158). -/
theorem exec_encode_of_written {s : State} (hwritten : s.codesWritten) (hsym : s.symLen.toNat ≤ s.symcap.toNat)
    (hentry : ∀ c ∈ s.symbols, s.codelenAt c ≠ 0)
    (hfits : (s.symbols.map fun c => (s.codelenAt c).toNat).sum ≤ s.bitcap.toNat) :
    exec .encode s = .next (storeBitstream (s.symbols.flatMap (s.codeOf 0)) s) ∧
      (s.symbols.flatMap (s.codeOf 0)).length ≤ s.bitcap.toNat := by
  have hencoding : s.encoding (List.range s.symLen.toNat) = s.symbols.flatMap (s.codeOf 0) := by
    simp only [State.encoding, State.symbols, List.flatMap_map, hwritten.codeOf_eq]
  have hlen : (s.symbols.flatMap (s.codeOf 0)).length ≤ s.bitcap.toNat := by
    simpa [List.length_flatMap] using hfits
  have hloop := encodeLoop_eq_done
    (fun i hi => hentry (s.symAt i) (List.mem_map_of_mem (by exact hi))) (hencoding ▸ hlen)
  rw [hencoding] at hloop
  exact ⟨exec_encode_eq_storeBitstream hsym hloop, hlen⟩

/-- After DERIVE every word of CODEBITS is written (42_derive.md R144). -/
theorem derive_codesWritten {s t : State} (h : exec .derive s = .next t) : t.codesWritten := by
  intro c j hj
  have hc := c.isLt
  have hlen := (t.codelenAt c).isLt
  rw [derive_codebits_read h (by omega), Option.isSome_some]

end Sys2Proof.Machine

namespace Sys2Proof
open Machine

/-- Settles O39, by `tableMove_cases`. -/
theorem oneBitOfDecodecMatchesTheTable : Obligations.OneBitOfDecodecMatchesTheTable := by
  intro s p acc b
  refine ⟨fun c => ?emit, fun x => ?inside, tableMove_eq_noPath_iff⟩
  case emit =>
    rw [tableMove_eq_emit_iff, ← codeOf_length s p c]
    exact ⟨fun ⟨hc, hfirst⟩ => ⟨congrArg List.length hc, hc, hfirst⟩, fun ⟨_, hc, hfirst⟩ => ⟨hc, hfirst⟩⟩
  case inside =>
    rw [tableMove_eq_inside_iff]
    refine and_congr_right fun _ => and_congr_right fun hnone => exists_congr fun c => ?_
    exact (lt_codelenAt_iff (hnone c)).symm

/-- Settles O33: the path to each leaf completes a code (`IsTree.completes`), and the loop emits the leaves' symbols. -/
theorem decodeWalksTheTree : Obligations.DecodeWalksTheTree := by
  intro s n steps htree hn hfits hbits hsteps hroom
  have hdone := decodeLoop_codes_done
    (fun x hx => htree.completes hn (hsteps x hx).1 (hsteps x hx).2) hroom
  obtain ⟨m, hstore, hread, hlater⟩ := storeSymbols_done_read s (steps.map fun x => (nodeAt s.node x.1).sym)
  rw [List.length_map] at hstore hread hlater
  refine ⟨m, ?_, fun i hi => by rw [hread i hi, List.getElem?_map], hlater⟩
  rw [exec_decode_of_loop hfits hbits hdone, hstore]

/-- Settles O34: a path to an internal node completes no code, so the bits end inside one. -/
theorem decodeReportsATruncatedStream : Obligations.DecodeReportsATruncatedStream := by
  intro s n k steps q htree hn hfits hbits hsteps hq hpath hkind hroom
  have hsize := htree.size
  have hend := decodeLoop_codes_truncated
    (fun x hx => htree.completes hn (hsteps x hx).1 (hsteps x hx).2) hroom hq
    (standAfter_treeMove (by omega) hpath hkind)
  exact exec_decode_of_loop hfits hbits hend

/-- Settles O35: the last of SYM_CAP + 1 completed codes finds no room. -/
theorem decodeReportsTheSymbolThatDoesNotFit : Obligations.DecodeReportsTheSymbolThatDoesNotFit := by
  intro s n steps q htree hn hfits hbits hsteps hfull
  have hend := decodeLoop_codes_full
    (fun x hx => htree.completes hn (hsteps x hx).1 (hsteps x hx).2) hfull q
  exact exec_decode_of_loop hfits hbits hend

/-- Settles O36: each bit 0 is a completed code (`completes_of_oneLeaf`), and a bit 1 has no path. -/
theorem decodeOfOneLeaf : Obligations.DecodeOfOneLeaf := by
  intro s c w m hnode hfits hroom
  have hzeros (k : Nat) : (List.replicate k ()).flatMap (fun _ => [false]) = List.replicate k false := by
    simp [List.flatMap_replicate]
  have hcodes (k : Nat) : ∀ x ∈ List.replicate k (), Completes (treeMove s.node) (rootOf s.node) [false] c :=
    fun _ _ => hnode ▸ completes_of_oneLeaf c w _
  refine ⟨fun hbits => ?zeros, fun q hbits => ?one, fun q hm hbits => ?full⟩
  case zeros =>
    obtain ⟨b, hstore, hread, hlater⟩ := storeSymbols_done_read s (List.replicate m c)
    rw [List.length_replicate] at hstore hread hlater
    refine ⟨b, (exec_decode_of_oneLeaf hnode hfits hbits hroom).trans (congrArg _ hstore), fun i hi => ?_, hlater⟩
    rw [hread i hi, List.getElem?_replicate, if_pos hi]
  case one =>
    have hend := decodeLoop_codes_invalid (hcodes m) (by simpa using hroom) (standAfter_nil _ _)
      (b := true) (by rw [hnode, treeMove_of_oneLeaf]; rfl) q
    rw [hzeros, List.append_nil, List.length_replicate] at hend
    exact exec_decode_of_loop hfits hbits hend
  case full =>
    have hend := decodeLoop_codes_full (hcodes (m + 1)) (by rw [List.length_replicate, hm]) q
    rw [hzeros, List.length_replicate, Nat.add_sub_cancel, List.replicate_succ', List.append_assoc,
      List.singleton_append] at hend
    exact exec_decode_of_loop hfits hbits hend

/-- Settles O40: each code that DECODEC takes is completed by its last bit (`State.taken.completes`). -/
theorem decodecEmitsTheCodesInTurn : Obligations.DecodecEmitsTheCodesInTurn := by
  intro s cs hwritten htaken hbits hfits hroom
  obtain ⟨m, hstore, hread, hlater⟩ := storeSymbols_done_read s cs
  exact ⟨m, (exec_decodec_of_codes hwritten htaken hbits hfits hroom).trans (congrArg _ hstore), hread, hlater⟩

/-- Settles O41: after the codes taken DECODEC stands inside a code with the bits that follow
(`standAfter_tableMove`). -/
theorem decodecReportsWhereItFails : Obligations.DecodecReportsWhereItFails := by
  intro s cs q hwritten htaken hbits hfits
  have hcodes (c : Sym) (hc : c ∈ cs) := (htaken c hc).completes
  have hexec {r : Ending (List Sym)}
      (hloop : decodeLoop (fun _ => tableMove s 0) [] s.symcap.toNat (cs.flatMap (s.codeOf 0) ++ q) 0 [] 0 [] = r) :
      exec .decodec s = .next (storeSymbols r s) :=
    hwritten.exec_decodec hfits hbits hloop
  refine ⟨fun hroom hq hinside => ?truncated, fun x b y hroom hsplit hx hno => ?invalid, fun hfull => ?full⟩
  case truncated =>
    exact hexec (decodeLoop_codes_truncated (sym := id) hcodes hroom hq (standAfter_tableMove (acc := []) hinside))
  case invalid =>
    have hstand : standAfter (tableMove s 0) [] x = some x := by
      obtain rfl | hinside := hx
      · rfl
      · exact standAfter_tableMove (acc := []) hinside
    subst hsplit
    exact hexec (decodeLoop_codes_invalid (sym := id) hcodes hroom hstand (tableMove_eq_noPath hno) y)
  case full => exact hexec (decodeLoop_codes_full (sym := id) hcodes hfull q)

/-- Settles O43: MKTABLE leaves a written code in which no code begins another, ENCODE stores the codes of the input, of
which DECODEC takes each, and with the table of the tree DECODE ends as DECODEC does. -/
theorem encodeThenDecodeGivesTheInputBack : Obligations.EncodeThenDecodeGivesTheInputBack := by
  intro s a hcap _ hmktable hfits
  obtain ⟨a', hmktable', hframe, -, hinv, -, htable, hentries⟩ := mktableMakesAllThreeTables s hcap
  obtain rfl : a' = a := Host.Outcome.next.inj (hmktable'.symm.trans hmktable)
  have hprefixFree : a'.prefixFree := derivedCodesArePrefixFree.2 s a' hcap hmktable
  have hwritten : a'.codesWritten := derive_codesWritten (exec_mktable_of_le hcap ▸ hmktable)
  have hsymbols : a'.symbols = s.symbols := by rw [hframe]; rfl
  have hsymLen : a'.symLen = s.symLen := by rw [hframe]
  have hsymcap : a'.symcap = s.symcap := by rw [hframe]
  have hbitcap : a'.bitcap = s.bitcap := by rw [hframe]
  rw [← hsymbols] at hentries hfits ⊢
  rw [← hbitcap] at hfits
  have hlen : a'.symbols.length ≤ a'.symcap.toNat := by rwa [State.symbols_length, hsymLen, hsymcap]
  obtain ⟨hencode, hbits⟩ := exec_encode_of_written hwritten (by rwa [hsymLen, hsymcap])
    (fun c => (hentries c).2) hfits
  have hword : (a'.symbols.flatMap (a'.codeOf 0)).length < 2 ^ 32 := hbits.trans_lt a'.bitcap.isLt
  generalize hb : storeBitstream (a'.symbols.flatMap (a'.codeOf 0)) a' = b at hencode
  have hdecodec : exec .decodec b = .next (storeSymbols (.done a'.symbols) b) := by
    subst hb
    refine exec_decodec_of_codes (by exact hwritten)
      (fun c hc => by exact taken_of_prefixFree hprefixFree ((hentries c).2 hc)) (bits_storeBitstream hword a') ?_ hlen
    rwa [storeBitstream_bitLen, BitVec.toNat_ofNat, Nat.mod_eq_of_lt hword]
  have hdecode : exec .decode b = .next (storeSymbols (.done a'.symbols) b) := by
    subst hb
    exact (theTwoDecodersAgree (storeBitstream _ a') hinv htable).trans hdecodec
  refine ⟨b, _, hencode, hdecode, hdecodec, ?symLen, symbols_storeSymbols ?lt b, ?fault, ?err⟩
  case symLen =>
    show BitVec.ofNat 32 a'.symbols.length = _
    rw [State.symbols_length, hsymLen, BitVec.ofNat_toNat, BitVec.setWidth_eq]
  case lt => exact hlen.trans_lt a'.symcap.isLt
  case fault => rw [← hb, hframe]; rfl
  case err => rw [← hb, hframe]; rfl

end Sys2Proof
end

section
/-! SUPPORT. What a command reads decides how it ends (46_properties.md R205, 70_reset_and_hazards.md R246): of two
states in which the command reads the same, and which differ only in the three memories and the draw number, it makes
ends that differ so, with each memory cell written alike or left alone. -/

namespace Sys2Proof.Machine

/-! ## What a command does to the memories -/

/-- What a command does to the three memories, whatever they hold. -/
structure MemoryEffect where
  symbuf : Memory 8 → Memory 8
  bitbuf : Memory 32 → Memory 32
  codebits : Memory 32 → Memory 32

/-- An update of a memory that gives each cell contents of its own or leaves it alone. -/
def CellByCell {w : Nat} (f : Memory w → Memory w) : Prop :=
  ∀ m m' k, (f m').read k = (f m).read k ∨ ((f m').read k = m'.read k ∧ (f m).read k = m.read k)

theorem cellByCell_id {w : Nat} : CellByCell (id : Memory w → Memory w) := fun _ _ _ => .inr ⟨rfl, rfl⟩

theorem cellByCell_const {w : Nat} (m : Memory w) : CellByCell fun _ => m := fun _ _ _ => .inl rfl

theorem cellByCell_writeFrom {w : Nat} (a : Nat) (vs : List (BitVec w)) : CellByCell (Memory.writeFrom · a vs) := by
  intro m m' k
  simp only [Memory.read_writeFrom]
  split
  · exact .inl rfl
  · exact .inr ⟨rfl, rfl⟩

/-- `t` with the three memories that `E` makes of those of `u`, and the draw number of `u`. -/
def State.remember (t : State) (E : MemoryEffect) (u : State) : State :=
  { t with symbuf := E.symbuf u.symbuf, bitbuf := E.bitbuf u.bitbuf, codebits := E.codebits u.codebits,
           draw := u.draw }

/-- A command that leaves the memories. -/
def MemoryEffect.none : MemoryEffect := ⟨id, id, id⟩

/-- An error empties the memory behind the output (60_exceptions.md R221). -/
def MemoryEffect.emptied : Output → MemoryEffect
  | .codeTable => ⟨id, id, fun _ => []⟩
  | .allTables => ⟨id, id, fun _ => []⟩
  | .bitstream => ⟨id, fun _ => [], id⟩
  | .symbols => ⟨fun _ => [], id, id⟩
  | _ => .none

/-- Every cell of every memory is given contents of its own or left alone. -/
structure MemoryEffect.Local (E : MemoryEffect) : Prop where
  symbuf : CellByCell E.symbuf
  bitbuf : CellByCell E.bitbuf
  codebits : CellByCell E.codebits

theorem MemoryEffect.Local.none : MemoryEffect.none.Local := ⟨cellByCell_id, cellByCell_id, cellByCell_id⟩

theorem MemoryEffect.Local.emptied (o : Output) : (MemoryEffect.emptied o).Local := by
  cases o with
  | codeTable => exact ⟨cellByCell_id, cellByCell_id, cellByCell_const _⟩
  | allTables => exact ⟨cellByCell_id, cellByCell_id, cellByCell_const _⟩
  | bitstream => exact ⟨cellByCell_id, cellByCell_const _, cellByCell_id⟩
  | symbols => exact ⟨cellByCell_const _, cellByCell_id, cellByCell_id⟩
  | _ => exact MemoryEffect.Local.none

/-! ## What a command reads -/

/-- `u` is `s` but for the three memories and the draw number. -/
def SameButMemories (s u : State) : Prop :=
  ∃ sb bb cb d, u = { s with symbuf := sb, bitbuf := bb, codebits := cb, draw := d }

/-- What the command `i` reads of the memories is the same in both states (70_reset_and_hazards.md R246). -/
def SameReads (s u : State) : Instr → Prop
  | .count => u.symbols = s.symbols
  | .mktable => u.symbols = s.symbols
  | .encode => (∀ k < s.symLen.toNat, u.symAt k = s.symAt k) ∧ u.codeOf = s.codeOf
  | .decode => u.bits = s.bits
  | .decodec => u.bits = s.bits ∧ u.codeOf = s.codeOf
  | _ => True

section
variable {s u : State} (h : SameButMemories s u)
include h

theorem SameButMemories.symbols_eq (hsym : ∀ k < s.symLen.toNat, u.symAt k = s.symAt k) : u.symbols = s.symbols := by
  obtain ⟨sb, bb, cb, d, rfl⟩ := h
  exact List.map_congr_left fun k hk => hsym k (List.mem_range.1 hk)

theorem SameButMemories.bits_eq (hbit : ∀ k < s.bitLen.toNat, u.bitAt k = s.bitAt k) : u.bits = s.bits := by
  obtain ⟨sb, bb, cb, d, rfl⟩ := h
  exact List.map_congr_left fun k hk => hbit k (List.mem_range.1 hk)

theorem SameButMemories.codeOf_eq
    (hcode : ∀ (time : Nat) (c : Sym), ∀ j < (s.codelenAt c).toNat, u.codeBit time c j = s.codeBit time c j) :
    u.codeOf = s.codeOf := by
  obtain ⟨sb, bb, cb, d, rfl⟩ := h
  funext time c
  exact List.map_congr_left fun j hj => hcode time c j (List.mem_range.1 hj)

/-- States in which all that a command may read is the same. -/
theorem SameButMemories.sameReads (i : Instr) (hsym : ∀ k < s.symLen.toNat, u.symAt k = s.symAt k)
    (hbit : ∀ k < s.bitLen.toNat, u.bitAt k = s.bitAt k)
    (hcode : ∀ (time : Nat) (c : Sym), ∀ j < (s.codelenAt c).toNat, u.codeBit time c j = s.codeBit time c j) :
    SameReads s u i := by
  cases i with
  | count => exact h.symbols_eq hsym
  | mktable => exact h.symbols_eq hsym
  | encode => exact ⟨hsym, h.codeOf_eq hcode⟩
  | decode => exact h.bits_eq hbit
  | decodec => exact ⟨h.bits_eq hbit, h.codeOf_eq hcode⟩
  | _ => trivial

/-- The encoder loop reads the symbols at its positions and their codes. -/
theorem SameButMemories.encodeLoop_eq {is : List Nat} (hsym : ∀ k ∈ is, u.symAt k = s.symAt k)
    (hcode : u.codeOf = s.codeOf) (acc : BitString) : encodeLoop u is acc = encodeLoop s is acc := by
  have hcodelen (c : Sym) : u.codelenAt c = s.codelenAt c := by
    obtain ⟨sb, bb, cb, d, rfl⟩ := h
    rfl
  have hbitcap : u.bitcap = s.bitcap := by
    obtain ⟨sb, bb, cb, d, rfl⟩ := h
    rfl
  induction is generalizing acc with
  | nil => rfl
  | cons i is ih =>
    rw [encodeLoop, encodeLoop, hsym i List.mem_cons_self, hcodelen, hbitcap, hcode]
    simp only [ih fun k hk => hsym k (List.mem_cons_of_mem i hk)]

theorem SameButMemories.decodeEnding_eq (hbits : u.bits = s.bits) : decodeEnding u = decodeEnding s := by
  rw [decodeEnding, decodeEnding, hbits]
  obtain ⟨sb, bb, cb, d, rfl⟩ := h
  rfl

theorem SameButMemories.decodecEnding_eq (hbits : u.bits = s.bits) (hcode : u.codeOf = s.codeOf) :
    decodecEnding u = decodecEnding s := by
  have hmove : tableMove u = tableMove s := by
    have hmatches : entryMatches u = entryMatches s := by
      funext p acc c
      rw [entryMatches, entryMatches, hcode, ← codeOf_length u p, hcode, codeOf_length]
    have hcontinues : entryContinues u = entryContinues s := by
      funext p acc c
      rw [entryContinues, entryContinues, hcode, ← codeOf_length u p, hcode, codeOf_length]
    funext p acc b
    rw [tableMove, hmatches, hcontinues, tableMove]
  rw [decodecEnding, decodecEnding, hbits, hmove]
  obtain ⟨sb, bb, cb, d, rfl⟩ := h
  rfl

end

/-! ## Ends that agree -/

/-- The middle of MKTABLE writes the tree alone, and it depends on the table alone (42_derive.md R148). -/
theorem buildUnlessEmpty_eq (s : State) :
    buildUnlessEmpty s = { s with node := if tableEmpty s.freq then [] else buildTree s.freq } := by
  rw [buildUnlessEmpty]
  split <;> rfl

/-- The command `i` ends from both states alike, but for the memories, which one local effect makes. -/
def EndsAlike (i : Instr) (s u : State) : Prop :=
  ∃ (t : State) (E : MemoryEffect), E.Local ∧ exec i s = .next (t.remember E s) ∧ exec i u = .next (t.remember E u)

section
variable {s u : State} (h : SameButMemories s u)
include h

theorem SameButMemories.endsAlike_of_error {i : Instr} (o : Output) (e : Err) (info : Word)
    (hs : exec i s = .next (raiseError o e info s)) (hu : exec i u = .next (raiseError o e info u)) :
    EndsAlike i s u := by
  refine ⟨raiseError o e info s, .emptied o, MemoryEffect.Local.emptied o, hs.trans (congrArg _ ?_),
    hu.trans (congrArg _ ?_)⟩
  · cases o <;> rfl
  · obtain ⟨sb, bb, cb, d, rfl⟩ := h
    cases o <;> rfl

theorem SameButMemories.endsAlike_of_storeSymbols {i : Instr} {r : Ending (List Sym)}
    (hs : exec i s = .next (storeSymbols r s)) (hu : exec i u = .next (storeSymbols r u)) : EndsAlike i s u := by
  cases r with
  | failed e info => exact h.endsAlike_of_error .symbols e info hs hu
  | done cs =>
    obtain ⟨sb, bb, cb, d, rfl⟩ := h
    exact ⟨storeSymbols (.done cs) s, ⟨(Memory.writeFrom · 0 cs), id, id⟩,
      ⟨cellByCell_writeFrom 0 cs, cellByCell_id, cellByCell_id⟩, hs, hu⟩

/-- A command ends alike from states in which it reads the same. -/
theorem SameButMemories.endsAlike {i : Instr} (hreads : SameReads s u i) : EndsAlike i s u := by
  have hsame := h
  obtain ⟨sb, bb, cb, d, rfl⟩ := h
  cases i with
  | nop => exact ⟨endCommand s, .none, .none, rfl, rfl⟩
  | clrf => exact ⟨endCommand (acknowledge s), .none, .none, rfl, rfl⟩
  | srst =>
    exact ⟨endCommand (acknowledge
      { s with symLen := 0, bitLen := 0, node := [], freq := Vector.replicate 256 0,
               codelen := Vector.replicate 256 0 }), .none, .none, rfl, rfl⟩
  | derive =>
    exact ⟨endCommand (deriveBody s), ⟨id, id, fun _ => codeCells (codeIn (treeCodes s.node))⟩,
      ⟨cellByCell_id, cellByCell_id, cellByCell_const _⟩, rfl, rfl⟩
  | build =>
    cases hempty : tableEmpty s.freq with
    | true => exact hsame.endsAlike_of_error .tree .invalidInput 0 (if_pos hempty) (if_pos hempty)
    | false =>
      have hne : ¬ tableEmpty s.freq = true := by simp [hempty]
      exact ⟨endCommand (buildBody s), .none, .none, if_neg hne, if_neg hne⟩
  | count =>
    by_cases hcap : s.symLen.toNat > s.symcap.toNat
    · exact hsame.endsAlike_of_error .frequencies .capacity _ (if_pos hcap) (if_pos hcap)
    · refine ⟨endCommand (countBody s), .none, .none, if_neg hcap, (if_neg hcap).trans ?_⟩
      rw [countBody, show State.symbols _ = _ from hreads]
      rfl
  | mktable =>
    by_cases hcap : s.symLen.toNat > s.symcap.toNat
    · exact hsame.endsAlike_of_error .allTables .capacity _ (if_pos hcap) (if_pos hcap)
    · refine ⟨endCommand (deriveBody (buildUnlessEmpty (countBody s))),
        ⟨id, id, fun _ => codeCells (codeIn (treeCodes (buildUnlessEmpty (countBody s)).node))⟩,
        ⟨cellByCell_id, cellByCell_id, cellByCell_const _⟩, (if_neg hcap).trans ?_, (if_neg hcap).trans ?_⟩
      · rw [buildUnlessEmpty_eq]
        rfl
      · rw [countBody, show State.symbols _ = _ from hreads, buildUnlessEmpty_eq, buildUnlessEmpty_eq]
        rfl
  | encode =>
    by_cases hcap : s.symLen.toNat > s.symcap.toNat
    · exact hsame.endsAlike_of_error .bitstream .capacity _ (if_pos hcap) (if_pos hcap)
    obtain ⟨hsym, hcode⟩ := hreads
    have hloop := hsame.encodeLoop_eq (is := List.range s.symLen.toNat) (fun k hk => hsym k (List.mem_range.1 hk))
      hcode []
    rw [Nat.not_lt] at hcap
    cases hend : encodeLoop s (List.range s.symLen.toNat) [] with
    | failed e info =>
      exact hsame.endsAlike_of_error .bitstream e info (exec_encode_of_failed hcap hend)
        (exec_encode_of_failed hcap (hloop.trans hend))
    | done p =>
      exact ⟨storeBitstream p s, ⟨id, storeBits p, id⟩, ⟨cellByCell_id, cellByCell_writeFrom 0 _, cellByCell_id⟩,
        exec_encode_eq_storeBitstream hcap hend, exec_encode_eq_storeBitstream hcap (hloop.trans hend)⟩
  | decode =>
    by_cases hcap : s.bitLen.toNat > s.bitcap.toNat
    · exact hsame.endsAlike_of_error .symbols .capacity _ (if_pos hcap) (if_pos hcap)
    · rw [Nat.not_lt] at hcap
      refine hsame.endsAlike_of_storeSymbols (exec_decode_of_le hcap) ?_
      rw [exec_decode_of_le (by exact hcap), hsame.decodeEnding_eq hreads]
  | decodec =>
    by_cases hcap : s.bitLen.toNat > s.bitcap.toNat
    · exact hsame.endsAlike_of_error .symbols .capacity _ (if_pos hcap) (if_pos hcap)
    · rw [Nat.not_lt] at hcap
      obtain ⟨hbits, hcode⟩ := hreads
      refine hsame.endsAlike_of_storeSymbols (exec_decodec_of_le hcap) ?_
      rw [exec_decodec_of_le (by exact hcap), hsame.decodecEnding_eq hbits hcode]

end

/-! ## Written cells -/

section
variable {s : State} (d : Nat)

theorem symAt_of_written {k : Nat} (h : (s.symbuf.read k).isSome = true) :
    State.symAt { s with draw := d } k = s.symAt k := by
  obtain ⟨x, hx⟩ := Option.isSome_iff_exists.1 h
  rw [State.symAt, State.symAt, hx, Option.getD_some, Option.getD_some]

theorem bitAt_of_written {t : Nat} (h : (s.bitbuf.read (t / 32)).isSome = true) :
    State.bitAt { s with draw := d } t = s.bitAt t := by
  obtain ⟨x, hx⟩ := Option.isSome_iff_exists.1 h
  rw [State.bitAt, State.bitAt, State.bitWord, State.bitWord, hx, Option.getD_some, Option.getD_some]

theorem codeBit_of_written {time : Nat} {c : Sym} {j : Nat}
    (h : (s.codebits.read (8 * c.toNat + j / 32)).isSome = true) :
    State.codeBit { s with draw := d } time c j = s.codeBit time c j := by
  obtain ⟨x, hx⟩ := Option.isSome_iff_exists.1 h
  rw [State.codeBit, State.codeBit, State.codeWord, State.codeWord, hx, Option.getD_some, Option.getD_some]

/-- What is written reads the same whatever the draw number (70_reset_and_hazards.md R246). -/
theorem State.inputsWritten.sameReads {i : Instr} (h : s.inputsWritten i) : SameReads s { s with draw := d } i := by
  have hsame : SameButMemories s { s with draw := d } := ⟨_, _, _, d, rfl⟩
  cases i with
  | count => exact hsame.symbols_eq fun k hk => symAt_of_written d (h k hk)
  | mktable => exact hsame.symbols_eq fun k hk => symAt_of_written d (h k hk)
  | encode =>
    exact ⟨fun k hk => symAt_of_written d (h.1 k hk), hsame.codeOf_eq fun _ c j hj => codeBit_of_written d (h.2 c j hj)⟩
  | decode => exact hsame.bits_eq fun k hk => bitAt_of_written d (h k hk)
  | decodec =>
    exact ⟨hsame.bits_eq fun k hk => bitAt_of_written d (h.1 k hk),
      hsame.codeOf_eq fun _ c j hj => codeBit_of_written d (h.2 c j hj)⟩
  | _ => trivial

end

end Sys2Proof.Machine

namespace Sys2Proof
open Machine

/-- Settles O46: what is written reads the same whatever the draw number, and the memories are what the one effect
makes of the same ones. -/
theorem writtenInputsLeaveNothingFree : Obligations.WrittenInputsLeaveNothingFree := by
  intro i s t d hwritten h
  have hsame : SameButMemories s { s with draw := d } := ⟨_, _, _, d, rfl⟩
  obtain ⟨t', E, -, hs, hu⟩ := hsame.endsAlike (hwritten.sameReads d)
  obtain rfl : t'.remember E s = t := Host.Outcome.next.inj (hs.symm.trans h)
  exact hu

/-- Settles O47: the one effect that makes the memories of both ends goes cell by cell. -/
theorem nothingBeyondTheLengthsIsRead : Obligations.NothingBeyondTheLengthsIsRead := by
  intro i s u t hu hsym hbit hcode h
  have hsame : SameButMemories s u := ⟨_, _, _, s.draw, hu⟩
  have hdraw : u.draw = s.draw := by rw [hu]
  obtain ⟨t', E, hlocal, hends, hendu⟩ := hsame.endsAlike (hsame.sameReads i hsym hbit hcode)
  obtain rfl : t'.remember E s = t := Host.Outcome.next.inj (hends.symm.trans h)
  refine ⟨t'.remember E u, hendu, ?_, hlocal.symbuf _ _, hlocal.bitbuf _ _, hlocal.codebits _ _⟩
  rw [State.remember, hdraw]
  rfl

end Sys2Proof
end
